-- ==== Sys2Proof/Word.lean ====
section
/-! DEFINITION. The word types of the block: 32-bit command, response and register words
(10_state.md R30, 30_encoding.md R110), bytes, and the 64-bit values of the LCG and of the bounded
integers (R43, R114). Packing between them stands in Machine/Packing.lean. -/

namespace Sys2Proof

/-- A word of the register window, of a FIFO, of a packet or of an MT bank (R30, R41, R44, R110). -/
abbrev Word := BitVec 32

/-- One byte of a byte string (00_scope.md R15). -/
abbrev Byte := BitVec 8

/-- A 64-bit engine value or operand (R43, R114). -/
abbrev Word64 := BitVec 64

end Sys2Proof
end

