-- ==== Sys2Proof/Config.lean ====
section
/-! DEFINITION. The implementation parameters of 00_scope.md R10 and the two collaborator functions
of R12. The parameters are plain data and stand in `State.params`, so that every statement about a
state holds for every value of them; `Params.default` are the defaults of R10. `HASH` and `HMAC`
are functions and cannot stand in the state: they are constants with no body. -/

namespace Sys2Proof

/-- The parameters of R10 that are data. `LCG_W` is fixed (64), so it is no field. -/
structure Params where
  /-- `BLOCK_BASE`: the byte address of the register window. -/
  blockBase : Nat
  /-- `LCG_NINST`. -/
  lcgNinst : Nat
  /-- `MT_NINST`. -/
  mtNinst : Nat
  /-- `BBS_NINST`. -/
  bbsNinst : Nat
  /-- `DRBG_NINST`. -/
  drbgNinst : Nat
  /-- `BBS_W`: the width in bits of a BBS modulus. -/
  bbsW : Nat
  /-- `MAX_STR_BYTES`. -/
  maxStrBytes : Nat
  /-- `RANGE_MAX_ATTEMPTS`. -/
  rangeMaxAttempts : Nat
  /-- `CMD_DEPTH`. -/
  cmdDepth : Nat
  /-- `RSP_DEPTH`. -/
  rspDepth : Nat
  /-- `ENT_DEPTH`. -/
  entDepth : Nat
  /-- `HMAC_PRE_UPDATE`. -/
  hmacPreUpdate : Bool
  /-- `MT_RAM_INIT`: the word arrays of the banks after a hard reset. -/
  mtRamInit : Vector (Vector Word 624) 4
deriving DecidableEq, Repr

/-- The legal values of R10's table. -/
abbrev Params.Legal (p : Params) : Prop :=
  p.blockBase % 32 = 0 ∧
  (1 ≤ p.lcgNinst ∧ p.lcgNinst ≤ 4) ∧ (1 ≤ p.mtNinst ∧ p.mtNinst ≤ 4) ∧
  (1 ≤ p.bbsNinst ∧ p.bbsNinst ≤ 4) ∧ (1 ≤ p.drbgNinst ∧ p.drbgNinst ≤ 4) ∧
  (p.bbsW % 64 = 0 ∧ 64 ≤ p.bbsW ∧ p.bbsW ≤ 4096) ∧
  (1 ≤ p.maxStrBytes ∧ p.maxStrBytes ≤ 2 ^ 24 - 1) ∧
  (1 ≤ p.rangeMaxAttempts ∧ p.rangeMaxAttempts ≤ 2 ^ 16) ∧
  (1 ≤ p.cmdDepth ∧ p.cmdDepth ≤ 65535) ∧ (1 ≤ p.rspDepth ∧ p.rspDepth ≤ 65535) ∧
  (1 ≤ p.entDepth ∧ p.entDepth ≤ 65535)

/-- The defaults of R10's table. DESIGN CHOICE (log 2): `BLOCK_BASE` and `MT_RAM_INIT` are OPEN in
R10; here, and so in `State.reset` only, they are 0 and all-zero words. -/
def Params.default : Params where
  blockBase := 0
  lcgNinst := 1
  mtNinst := 2
  bbsNinst := 1
  drbgNinst := 1
  bbsW := 2048
  maxStrBytes := 4096
  rangeMaxAttempts := 100
  cmdDepth := 16
  rspDepth := 16
  entDepth := 16
  hmacPreUpdate := false
  mtRamInit := Vector.replicate 4 (Vector.replicate 624 0#32)

/-- The hash collaborator `HASH(m)` of R12: total, any byte string to exactly 32 bytes. A parameter
of R10 with no default, so it has no body here (log 3). -/
opaque Config.hash : List Byte → Vector Byte 32

/-- The MAC collaborator `HMAC(k, m)` of R12: a 32-byte key and any byte string to exactly 32
bytes. A parameter of R10 with no default, so it has no body here (log 3). -/
opaque Config.hmac : Vector Byte 32 → List Byte → Vector Byte 32

end Sys2Proof
end

