-- ==== Sys2Proof/Machine/Packing.lean ====
section
/-! DEFINITION. How values cross the interface (20_memory.md R89 to R93, 00_scope.md R13, R15): byte
strings, wide integers and bit strings in 32-bit words, always big-endian. -/

namespace Sys2Proof.Machine

/-- `ceil(a/b)` of R13. -/
def ceilDiv (a b : Nat) : Nat := (a + (b - 1)) / b

/-- `bitlen(x)` of R13: the number of bits without leading zeros, with `bitlen(0) = 0`. -/
def bitlen (x : Nat) : Nat := if x = 0 then 0 else Nat.log2 x + 1

/-! Integers in words: R91, most significant word first. -/

/-- The integer whose words are `ws`, most significant first (R91). -/
def natOfWords (ws : List Word) : Nat := ws.foldl (fun acc w => acc * 2 ^ 32 + w.toNat) 0

/-- `x mod 2^(32 k)` as `k` words, most significant first (R91). -/
def wordsOfNat : Nat → Nat → List Word
  | 0, _ => []
  | k + 1, x => BitVec.ofNat 32 (x >>> (32 * k)) :: wordsOfNat k x

/-- A 64-bit value as two words: `v[63:32]`, then `v[31:0]`. -/
def wordsOf64 (v : Word64) : List Word := [v.extractLsb' 32 32, v.extractLsb' 0 32]

/-! Byte strings: R15 and R90. -/

/-- `BE(b)` of R15. -/
def natOfBytes (b : List Byte) : Nat := b.foldl (fun acc x => acc * 2 ^ 8 + x.toNat) 0

/-- `BE_k(x)` of R15, as a list. -/
def bytesOfNat : Nat → Nat → List Byte
  | 0, _ => []
  | k + 1, x => BitVec.ofNat 8 (x >>> (8 * k)) :: bytesOfNat k x

/-- `BE_4(w)`: byte 0 in bits 31 to 24 (R90). -/
def wordBytes (w : Word) : List Byte :=
  [w.extractLsb' 24 8, w.extractLsb' 16 8, w.extractLsb' 8 8, w.extractLsb' 0 8]

/-- Four bytes as a word: the first in bits 31 to 24, the last in bits 7 to 0 (R90). -/
def word4 (a b c d : Byte) : Word :=
  a.setWidth 32 <<< 24 ||| b.setWidth 32 <<< 16 ||| c.setWidth 32 <<< 8 ||| d.setWidth 32

/-- A byte string packed four bytes a word, byte 0 in bits 31 to 24, the last word padded with
zeros (R90, R93). -/
def packBytes : List Byte → List Word
  | [] => []
  | [a] => [word4 a 0#8 0#8 0#8]
  | [a, b] => [word4 a b 0#8 0#8]
  | [a, b, c] => [word4 a b c 0#8]
  | a :: b :: c :: d :: rest => word4 a b c d :: packBytes rest

/-- The first `len` bytes of the words `ws`; the padding beyond them is ignored (R90, R93, R116). -/
def unpackBytes (len : Nat) (ws : List Word) : List Byte := (ws.flatMap wordBytes).take len

/-! Bit strings: R15 and R92. -/

/-- The bits of a byte, most significant first (R15). -/
def byteBits (b : Byte) : List Bool := (List.range 8).map b.getMsbD

/-- `bits(b)` of R15: most significant bit first within each byte, byte 0 first. -/
def bytesBits (b : List Byte) : List Bool := b.flatMap byteBits

/-- The integer whose bits are `bs`, the first most significant. -/
def natOfBits (bs : List Bool) : Nat := bs.foldl (fun acc b => 2 * acc + b.toNat) 0

/-- Up to 32 bits as a word, the first in bit 31, the unused low bits 0 (R92). -/
def wordOfBits (bs : List Bool) : Word := BitVec.ofNat 32 (natOfBits bs <<< (32 - bs.length))

/-- The first `k` words of a bit string packed by R92. -/
def packBitsIn : Nat → List Bool → List Word
  | 0, _ => []
  | k + 1, bs => wordOfBits (bs.take 32) :: packBitsIn k (bs.drop 32)

/-- A bit string packed most significant bit first in `ceil(n/32)` words (R92). -/
def packBits (bs : List Bool) : List Word := packBitsIn (ceilDiv bs.length 32) bs

/-- `n` draws from a state, in order: each draw returns a value and the state after it. -/
def drawN {σ α : Type} (f : σ → α × σ) : Nat → σ → List α × σ
  | 0, s => ([], s)
  | n + 1, s => ((f s).1 :: (drawN f n (f s).2).1, (drawN f n (f s).2).2)

end Sys2Proof.Machine
end

