-- ==== Sys2Proof/Syntax.lean ====
section
/-! DEFINITION. The instructions: one constructor for each row of spec/opcode_table.json (the
commands of 30_encoding.md R123), carrying every operand of its packet. COUNT is a field where the
command draws outputs, and the length of the operand list where it counts operand words or strings. -/

namespace Sys2Proof

/-- An instance index (INST, or SRCINST of a serializer source). Every instance count is at most 4
(R10), so a legal header names one of four. -/
abbrev Inst := Fin 4

/-- A COUNT field, `ARG[19:0]` (R112 form C). -/
abbrev Count := BitVec 20

/-- The DRBG variant selected by ARG form V (R112) and held in `DRBG[i].VARIANT` (R50). -/
inductive Variant where
  /-- HMAC-DRBG, encoded 0. -/
  | hmac
  /-- Hash-DRBG, encoded 1. -/
  | hash
deriving DecidableEq, Repr

/-- The source of a serializer command (R113, R311): engine and instance. -/
inductive Src where
  /-- SRCENG 0. -/
  | lcg (j : Inst)
  /-- SRCENG 1. -/
  | mt (j : Inst)
  /-- SRCENG 2. -/
  | bbs (j : Inst)
deriving DecidableEq, Repr

/-- The commands of R123, in the table's order. -/
inductive Instr where
  /-- R150. -/
  | sysNop
  /-- R151. -/
  | sysInfo
  /-- R152: WORDS(n). -/
  | sysEcho (ws : List Word)
  /-- R160: U64 seed, U64 a, U64 c, M65 m (three words, so 96 bits arrive). -/
  | lcgInit (i : Inst) (seed a c : Word64) (m : BitVec 96)
  /-- R161: PRESET, U64 seed. -/
  | lcgPreset (i : Inst) (preset : BitVec 4) (seed : Word64)
  /-- R162: n outputs. -/
  | lcgNext (i : Inst) (n : Count)
  /-- R163. -/
  | lcgRead (i : Inst)
  /-- R190: W seed. -/
  | mtSeed (i : Inst) (seed : Word)
  /-- R194: n outputs. -/
  | mtExtract (i : Inst) (n : Count)
  /-- R195. -/
  | mtTwist (i : Inst)
  /-- R196: WORDS(n). -/
  | mtTemper (i : Inst) (ys : List Word)
  /-- R197: WORDS(n). -/
  | mtUntemper (i : Inst) (ys : List Word)
  /-- R201: WORDS(n), the observed outputs in emission order. -/
  | mtClone (i : Inst) (os : List Word)
  /-- R202. -/
  | mtRead (i : Inst)
  /-- R203: W cur, WORDS(624). -/
  | mtWrite (i : Inst) (cur : Word) (ws : Vector Word 624)
  /-- R230: BIGH p, BIGH q, and BIGN seed when SEEDED = 1. -/
  | bbsInit (i : Inst) (p q : Nat) (seed : Option Nat)
  /-- R233: n bits. -/
  | bbsNextBit (i : Inst) (n : Count)
  /-- R234. -/
  | bbsRead (i : Inst)
  /-- R260: VARIANT, STR entropy, STR nonce, STR personalization. -/
  | drbgInstantiate (i : Inst) (variant : Variant) (entropy nonce pers : List Byte)
  /-- R261: n bytes, STR additional_input. -/
  | drbgGenerate (i : Inst) (n : Count) (addl : List Byte)
  /-- R262: STR entropy, STR additional_input. -/
  | drbgReseed (i : Inst) (entropy addl : List Byte)
  /-- R263: n bits. -/
  | drbgGenBits (i : Inst) (n : Count)
  /-- R264: S64 a, S64 b. -/
  | drbgRandomInt (i : Inst) (a b : Word64)
  /-- R265: W interval. -/
  | drbgSetInterval (i : Inst) (interval : Word)
  /-- R271. -/
  | drbgRead (i : Inst)
  /-- R313: n bytes. -/
  | serBytes (src : Src) (n : Count)
  /-- R314: n bits. -/
  | serBits (src : Src) (n : Count)
  /-- R315: n floats. -/
  | serFloat (src : Src) (n : Count)
  /-- R316: S64 a, S64 b. -/
  | serInt (src : Src) (a b : Word64)
  /-- R317: k strings. -/
  | serXor (ss : List (List Byte))
deriving DecidableEq, Repr

end Sys2Proof
end

