-- ==== Sys2Proof/Machine/Operands.lean ====
section
/-! DEFINITION. The operand kinds of 30_encoding.md R114, read from the front of a list of words and
written to words. A reader answers none when the words run out: the packet is then incomplete and
the processor waits in `CmdRead` (20_memory.md R85). -/

namespace Sys2Proof.Machine

/-- The first `n` words, and the words after them (R114, WORDS(n)). -/
def readWords (n : Nat) (ws : List Word) : Option (List Word × List Word) :=
  if ws.length < n then none else some (ws.take n, ws.drop n)

/-- A value of `k` words, most significant first (R91, R114: BIGH, BIGN). -/
def readNat (k : Nat) (ws : List Word) : Option (Nat × List Word) :=
  (readWords k ws).map fun r => (natOfWords r.1, r.2)

/-- Kind W (R114). -/
def readW : List Word → Option (Word × List Word)
  | [] => none
  | w :: ws => some (w, ws)

/-- Kinds U64 and S64 (R114); the sign of an S64 is read where it is used, by `toInt`. -/
def read64 (ws : List Word) : Option (Word64 × List Word) :=
  (readNat 2 ws).map fun r => (BitVec.ofNat 64 r.1, r.2)

/-- Kind M65 (R114): three words; that the first is 0 or 1 is the command's check, not the
decoder's. -/
def readM65 (ws : List Word) : Option (BitVec 96 × List Word) :=
  (readNat 3 ws).map fun r => (BitVec.ofNat 96 r.1, r.2)

/-- Kind BIGH (R114): `BBS_W/64` words. -/
def readBigH (p : Params) (ws : List Word) : Option (Nat × List Word) := readNat (p.bbsW / 64) ws

/-- Kind BIGN (R114): `BBS_W/32` words. -/
def readBigN (p : Params) (ws : List Word) : Option (Nat × List Word) := readNat (p.bbsW / 32) ws

/-- Kind STR (R114, R116): the length word L, then `ceil(L/4)` words whose first L bytes are the
string, also when L exceeds `MAX_STR_BYTES`. -/
def readStr (ws : List Word) : Option (List Byte × List Word) :=
  match ws with
  | [] => none
  | len :: rest =>
      (readWords (ceilDiv len.toNat 4) rest).map fun r => (unpackBytes len.toNat r.1, r.2)

/-- `k` strings in order (R123, the operands of SER_XOR). -/
def readStrs : Nat → List Word → Option (List (List Byte) × List Word)
  | 0, ws => some ([], ws)
  | k + 1, ws => do
      let (b, ws) ← readStr ws
      let (bs, ws) ← readStrs k ws
      some (b :: bs, ws)

/-- The words of a U64 or S64 operand (R91, R114). -/
def write64 (v : Word64) : List Word := wordsOfNat 2 v.toNat

/-- The words of an M65 operand (R91, R114). -/
def writeM65 (m : BitVec 96) : List Word := wordsOfNat 3 m.toNat

/-- The words of a BIGH operand. -/
def writeBigH (p : Params) (x : Nat) : List Word := wordsOfNat (p.bbsW / 64) x

/-- The words of a BIGN operand. -/
def writeBigN (p : Params) (x : Nat) : List Word := wordsOfNat (p.bbsW / 32) x

/-- The words of an STR operand: its length word, then its bytes packed by R90. -/
def writeStr (b : List Byte) : List Word := BitVec.ofNat 32 b.length :: packBytes b

end Sys2Proof.Machine
end

