-- ==== Sys2Proof/WellFormed.lean ====
section
/-! DEFINITION. Which instructions an encoding exists for: the instance exists (30_encoding.md R122
conditions 5 and 6), a count fits the 20 bits of COUNT (R112), a string length fits its length word
(R114), and a BBS operand fits its width (R114). -/

namespace Sys2Proof

/-- The number of instances of a serializer source's engine is above its instance index (R122
condition 6). -/
def Src.wellFormed (p : Params) : Src → Bool
  | .lcg j => decide (j.val < p.lcgNinst)
  | .mt j => decide (j.val < p.mtNinst)
  | .bbs j => decide (j.val < p.bbsNinst)

/-- A list of operand words whose number COUNT can say (R112, form C). -/
def countFits {α : Type} (xs : List α) : Bool := decide (xs.length < 2 ^ 20)

/-- A byte string whose length its length word can say (R114, STR). -/
def strFits (b : List Byte) : Bool := decide (b.length < 2 ^ 32)

/-- An instruction that has an encoding under the parameters `p` (R112 to R114, R122). -/
def Instr.wellFormed (p : Params) : Instr → Bool
  | .sysNop => true
  | .sysInfo => true
  | .sysEcho ws => countFits ws
  | .lcgInit i _ _ _ _ => decide (i.val < p.lcgNinst)
  | .lcgPreset i _ _ => decide (i.val < p.lcgNinst)
  | .lcgNext i _ => decide (i.val < p.lcgNinst)
  | .lcgRead i => decide (i.val < p.lcgNinst)
  | .mtSeed i _ => decide (i.val < p.mtNinst)
  | .mtExtract i _ => decide (i.val < p.mtNinst)
  | .mtTwist i => decide (i.val < p.mtNinst)
  | .mtTemper i ys => decide (i.val < p.mtNinst) && countFits ys
  | .mtUntemper i ys => decide (i.val < p.mtNinst) && countFits ys
  | .mtClone i os => decide (i.val < p.mtNinst) && countFits os
  | .mtRead i => decide (i.val < p.mtNinst)
  | .mtWrite i _ _ => decide (i.val < p.mtNinst)
  | .bbsInit i pp q seed =>
      decide (i.val < p.bbsNinst) && decide (pp < 2 ^ (p.bbsW / 2)) && decide (q < 2 ^ (p.bbsW / 2)) &&
        seed.all fun x => decide (x < 2 ^ p.bbsW)
  | .bbsNextBit i _ => decide (i.val < p.bbsNinst)
  | .bbsRead i => decide (i.val < p.bbsNinst)
  | .drbgInstantiate i _ e n ps => decide (i.val < p.drbgNinst) && strFits e && strFits n && strFits ps
  | .drbgGenerate i _ a => decide (i.val < p.drbgNinst) && strFits a
  | .drbgReseed i e a => decide (i.val < p.drbgNinst) && strFits e && strFits a
  | .drbgGenBits i _ => decide (i.val < p.drbgNinst)
  | .drbgRandomInt i _ _ => decide (i.val < p.drbgNinst)
  | .drbgSetInterval i _ => decide (i.val < p.drbgNinst)
  | .drbgRead i => decide (i.val < p.drbgNinst)
  | .serBytes src _ => src.wellFormed p
  | .serBits src _ => src.wellFormed p
  | .serFloat src _ => src.wellFormed p
  | .serInt src _ _ => src.wellFormed p
  | .serXor ss => countFits ss && ss.all strFits

end Sys2Proof
end

