-- ==== Sys2Proof/Decode.lean ====
section
/-! DEFINITION. Decoding a command packet (30_encoding.md R110 to R127): the header's fields, the
seven conditions that make a header illegal, and the operands the opcode map gives each command.
Total on any list of words; what is not an instruction is rejected by name. After it the encoder,
written from the same tables. -/

namespace Sys2Proof

open Machine

/-! ## The header word (R111) -/

/-- `ENG`, bits 31 to 28. -/
def engOf (h : Word) : BitVec 4 := h.extractLsb' 28 4

/-- `OP`, bits 27 to 24. -/
def opOf (h : Word) : BitVec 4 := h.extractLsb' 24 4

/-- `INST`, bits 23 to 20. -/
def instOf (h : Word) : BitVec 4 := h.extractLsb' 20 4

/-- `ARG`, bits 19 to 0. -/
def argOf (h : Word) : BitVec 20 := h.extractLsb' 0 20

/-- A header word from its four fields: `ENG<<28 | OP<<24 | INST<<20 | ARG` (R124). -/
def header (eng op inst : BitVec 4) (arg : BitVec 20) : Word :=
  eng.setWidth 32 <<< 28 ||| op.setWidth 32 <<< 24 ||| inst.setWidth 32 <<< 20 |||
    arg.setWidth 32

/-- The five forms of ARG (R112). -/
inductive Form where
  /-- ARG must be 0. -/
  | z
  /-- `COUNT = ARG[19:0]`. -/
  | c
  /-- `PRESET = ARG[3:0]`, `ARG[19:4]` must be 0. -/
  | p
  /-- `SEEDED = ARG[0]`, `ARG[19:1]` must be 0. -/
  | s
  /-- `VARIANT = ARG[0]`, `ARG[19:1]` must be 0. -/
  | v
deriving DecidableEq, Repr

/-- The ARG form of an operation, none where the opcode map has no row for it (R123, R125). -/
def formOf (eng op : Nat) : Option Form :=
  match eng, op with
  | 0, 0 => some .z
  | 0, 1 => some .z
  | 0, 2 => some .c
  | 1, 0 => some .z
  | 1, 1 => some .p
  | 1, 2 => some .c
  | 1, 3 => some .z
  | 2, 0 => some .z
  | 2, 1 => some .c
  | 2, 2 => some .z
  | 2, 3 => some .c
  | 2, 4 => some .c
  | 2, 5 => some .c
  | 2, 6 => some .z
  | 2, 7 => some .z
  | 3, 0 => some .s
  | 3, 1 => some .c
  | 3, 2 => some .z
  | 4, 0 => some .v
  | 4, 1 => some .c
  | 4, 2 => some .z
  | 4, 3 => some .c
  | 4, 4 => some .z
  | 4, 5 => some .z
  | 4, 6 => some .z
  | 5, 0 => some .c
  | 5, 1 => some .c
  | 5, 2 => some .c
  | 5, 3 => some .z
  | 5, 4 => some .c
  | _, _ => none

/-- ARG keeps its form's bits that must be 0 at 0 (R112). -/
def argKeepsForm (f : Form) (arg : BitVec 20) : Bool :=
  match f with
  | .z => decide (arg = 0#20)
  | .c => true
  | .p => decide (arg.extractLsb' 4 16 = 0#16)
  | .s => decide (arg.extractLsb' 1 19 = 0#19)
  | .v => decide (arg.extractLsb' 1 19 = 0#19)

/-- The instance count of an engine with instances (R122 condition 5). -/
def instCount (p : Params) (eng : Nat) : Nat :=
  match eng with
  | 1 => p.lcgNinst
  | 2 => p.mtNinst
  | 3 => p.bbsNinst
  | 4 => p.drbgNinst
  | _ => 0

/-- The instance count of a serializer source's engine; 0 for the reserved SRCENG 3 (R113, R122
condition 6). -/
def srcInstCount (p : Params) (srcEng : Nat) : Nat :=
  match srcEng with
  | 0 => p.lcgNinst
  | 1 => p.mtNinst
  | 2 => p.bbsNinst
  | _ => 0

/-- Why a list of words is no instruction. The first seven are the conditions of R122, in order. -/
inductive Reject where
  /-- Condition 1: ENG is 6 or above. -/
  | engReserved
  /-- Condition 2: OP is not one of the engine's operations. -/
  | opReserved
  /-- Condition 3: ARG breaks its form. -/
  | argForm
  /-- Condition 4: a SYS command with INST not 0. -/
  | sysInst
  /-- Condition 5: INST is not below the engine's instance count. -/
  | instRange
  /-- Condition 6: SRCENG is 3, or SRCINST is not below the instance count of SRCENG. -/
  | srcRange
  /-- Condition 7: SER_XOR with INST not 0. -/
  | xorInst
  /-- The header is legal and the packet has more words than are given. -/
  | truncated
  /-- No word at all. -/
  | empty
deriving DecidableEq, Repr

/-- The condition of R122 that makes a header illegal, if one does. -/
def headerReject (p : Params) (h : Word) : Option Reject :=
  if 6 ≤ (engOf h).toNat then some .engReserved
  else match formOf (engOf h).toNat (opOf h).toNat with
    | none => some .opReserved
    | some f =>
      if argKeepsForm f (argOf h) = false then some .argForm
      else if (engOf h).toNat = 0 then
        if instOf h = 0#4 then none else some .sysInst
      else if (engOf h).toNat ≤ 4 then
        if (instOf h).toNat < instCount p (engOf h).toNat then none else some .instRange
      else if (opOf h).toNat = 4 then
        if instOf h = 0#4 then none else some .xorInst
      else if (instOf h).toNat % 4 < srcInstCount p ((instOf h).toNat / 4) then none
      else some .srcRange

/-! ## The packet -/

/-- The instance a header names (R111); a legal header's INST is below 4. -/
def instIndex (h : Word) : Inst := Fin.ofNat 4 (instOf h).toNat

/-- The serializer source a header names: `SRCENG = INST[3:2]`, `SRCINST = INST[1:0]` (R113). A legal
header's SRCENG is 0, 1 or 2. -/
def srcOf (h : Word) : Src :=
  match (instOf h).toNat / 4 with
  | 0 => .lcg (instIndex h)
  | 1 => .mt (instIndex h)
  | _ => .bbs (instIndex h)

/-- `SEEDED` or `VARIANT`, `ARG[0]` (R112). -/
def argFlag (h : Word) : Bool := (argOf h).getLsbD 0

/-- The command of a legal header with its operands, read in the order of R123, and the words after
them; none when the words run out. -/
def decodeOperands (p : Params) (h : Word) (ws : List Word) : Option (Instr × List Word) :=
  let i := instIndex h
  let n := argOf h
  match (engOf h).toNat, (opOf h).toNat with
  | 0, 0 => some (.sysNop, ws)
  | 0, 1 => some (.sysInfo, ws)
  | 0, 2 => do
      let (xs, ws) ← readWords n.toNat ws
      some (.sysEcho xs, ws)
  | 1, 0 => do
      let (seed, ws) ← read64 ws
      let (a, ws) ← read64 ws
      let (c, ws) ← read64 ws
      let (m, ws) ← readM65 ws
      some (.lcgInit i seed a c m, ws)
  | 1, 1 => do
      let (seed, ws) ← read64 ws
      some (.lcgPreset i (n.extractLsb' 0 4) seed, ws)
  | 1, 2 => some (.lcgNext i n, ws)
  | 1, 3 => some (.lcgRead i, ws)
  | 2, 0 => do
      let (seed, ws) ← readW ws
      some (.mtSeed i seed, ws)
  | 2, 1 => some (.mtExtract i n, ws)
  | 2, 2 => some (.mtTwist i, ws)
  | 2, 3 => do
      let (ys, ws) ← readWords n.toNat ws
      some (.mtTemper i ys, ws)
  | 2, 4 => do
      let (ys, ws) ← readWords n.toNat ws
      some (.mtUntemper i ys, ws)
  | 2, 5 => do
      let (os, ws) ← readWords n.toNat ws
      some (.mtClone i os, ws)
  | 2, 6 => some (.mtRead i, ws)
  | 2, 7 => do
      let (cur, ws) ← readW ws
      let (xs, ws) ← readWords 624 ws
      some (.mtWrite i cur (Vector.ofFn fun k => xs.getD k.val 0#32), ws)
  | 3, 0 => do
      let (pp, ws) ← readBigH p ws
      let (q, ws) ← readBigH p ws
      if argFlag h then do
        let (seed, ws) ← readBigN p ws
        some (.bbsInit i pp q (some seed), ws)
      else some (.bbsInit i pp q none, ws)
  | 3, 1 => some (.bbsNextBit i n, ws)
  | 3, 2 => some (.bbsRead i, ws)
  | 4, 0 => do
      let (e, ws) ← readStr ws
      let (nonce, ws) ← readStr ws
      let (ps, ws) ← readStr ws
      some (.drbgInstantiate i (if argFlag h then .hash else .hmac) e nonce ps, ws)
  | 4, 1 => do
      let (a, ws) ← readStr ws
      some (.drbgGenerate i n a, ws)
  | 4, 2 => do
      let (e, ws) ← readStr ws
      let (a, ws) ← readStr ws
      some (.drbgReseed i e a, ws)
  | 4, 3 => some (.drbgGenBits i n, ws)
  | 4, 4 => do
      let (a, ws) ← read64 ws
      let (b, ws) ← read64 ws
      some (.drbgRandomInt i a b, ws)
  | 4, 5 => do
      let (v, ws) ← readW ws
      some (.drbgSetInterval i v, ws)
  | 4, 6 => some (.drbgRead i, ws)
  | 5, 0 => some (.serBytes (srcOf h) n, ws)
  | 5, 1 => some (.serBits (srcOf h) n, ws)
  | 5, 2 => some (.serFloat (srcOf h) n, ws)
  | 5, 3 => do
      let (a, ws) ← read64 ws
      let (b, ws) ← read64 ws
      some (.serInt (srcOf h) a b, ws)
  | 5, 4 => do
      let (ss, ws) ← readStrs n.toNat ws
      some (.serXor ss, ws)
  | _, _ => none

/-- What a list of words holds at its front. -/
inductive Decoded where
  /-- An instruction, and the words after its packet. -/
  | ok (i : Instr) (rest : List Word)
  /-- No instruction, for the reason named. -/
  | reject (r : Reject)
deriving DecidableEq, Repr

/-- Decoding a packet: header first (R356 step 1), then all operands (R117). -/
def decode (p : Params) : List Word → Decoded
  | [] => .reject .empty
  | h :: ws =>
    match headerReject p h with
    | some r => .reject r
    | none =>
      match decodeOperands p h ws with
      | some (i, rest) => .ok i rest
      | none => .reject .truncated

/-! ## The encoder -/

/-- `SRC` as the INST field of a serializer command (R113). -/
def srcNibble : Src → BitVec 4
  | .lcg j => BitVec.ofNat 4 j.val
  | .mt j => BitVec.ofNat 4 (4 + j.val)
  | .bbs j => BitVec.ofNat 4 (8 + j.val)

/-- An instance index as the INST field. -/
def instNibble (i : Inst) : BitVec 4 := BitVec.ofNat 4 i.val

/-- A number of operand words or strings as COUNT. -/
def countOf {α : Type} (xs : List α) : BitVec 20 := BitVec.ofNat 20 xs.length

/-- VARIANT as ARG (R112 form V). -/
def variantArg : Variant → BitVec 20
  | .hmac => 0#20
  | .hash => 1#20

/-- SEEDED as ARG (R112 form S). -/
def seededArg (seed : Option Nat) : BitVec 20 := if seed.isSome then 1#20 else 0#20

/-- The header word of an instruction (R111, R123). -/
def headerOf : Instr → Word
  | .sysNop => header 0 0 0 0
  | .sysInfo => header 0 1 0 0
  | .sysEcho ws => header 0 2 0 (countOf ws)
  | .lcgInit i _ _ _ _ => header 1 0 (instNibble i) 0
  | .lcgPreset i preset _ => header 1 1 (instNibble i) (preset.setWidth 20)
  | .lcgNext i n => header 1 2 (instNibble i) n
  | .lcgRead i => header 1 3 (instNibble i) 0
  | .mtSeed i _ => header 2 0 (instNibble i) 0
  | .mtExtract i n => header 2 1 (instNibble i) n
  | .mtTwist i => header 2 2 (instNibble i) 0
  | .mtTemper i ys => header 2 3 (instNibble i) (countOf ys)
  | .mtUntemper i ys => header 2 4 (instNibble i) (countOf ys)
  | .mtClone i os => header 2 5 (instNibble i) (countOf os)
  | .mtRead i => header 2 6 (instNibble i) 0
  | .mtWrite i _ _ => header 2 7 (instNibble i) 0
  | .bbsInit i _ _ seed => header 3 0 (instNibble i) (seededArg seed)
  | .bbsNextBit i n => header 3 1 (instNibble i) n
  | .bbsRead i => header 3 2 (instNibble i) 0
  | .drbgInstantiate i v _ _ _ => header 4 0 (instNibble i) (variantArg v)
  | .drbgGenerate i n _ => header 4 1 (instNibble i) n
  | .drbgReseed i _ _ => header 4 2 (instNibble i) 0
  | .drbgGenBits i n => header 4 3 (instNibble i) n
  | .drbgRandomInt i _ _ => header 4 4 (instNibble i) 0
  | .drbgSetInterval i _ => header 4 5 (instNibble i) 0
  | .drbgRead i => header 4 6 (instNibble i) 0
  | .serBytes src n => header 5 0 (srcNibble src) n
  | .serBits src n => header 5 1 (srcNibble src) n
  | .serFloat src n => header 5 2 (srcNibble src) n
  | .serInt src _ _ => header 5 3 (srcNibble src) 0
  | .serXor ss => header 5 4 0 (countOf ss)

/-- The operand words of an instruction, in the order of R123. -/
def operandsOf (p : Params) : Instr → List Word
  | .sysNop => []
  | .sysInfo => []
  | .sysEcho ws => ws
  | .lcgInit _ seed a c m => write64 seed ++ write64 a ++ write64 c ++ writeM65 m
  | .lcgPreset _ _ seed => write64 seed
  | .lcgNext _ _ => []
  | .lcgRead _ => []
  | .mtSeed _ seed => [seed]
  | .mtExtract _ _ => []
  | .mtTwist _ => []
  | .mtTemper _ ys => ys
  | .mtUntemper _ ys => ys
  | .mtClone _ os => os
  | .mtRead _ => []
  | .mtWrite _ cur ws => cur :: ws.toList
  | .bbsInit _ pp q seed =>
      writeBigH p pp ++ writeBigH p q ++ (match seed with | some x => writeBigN p x | none => [])
  | .bbsNextBit _ _ => []
  | .bbsRead _ => []
  | .drbgInstantiate _ _ e n ps => writeStr e ++ writeStr n ++ writeStr ps
  | .drbgGenerate _ _ a => writeStr a
  | .drbgReseed _ e a => writeStr e ++ writeStr a
  | .drbgGenBits _ _ => []
  | .drbgRandomInt _ a b => write64 a ++ write64 b
  | .drbgSetInterval _ v => [v]
  | .drbgRead _ => []
  | .serBytes _ _ => []
  | .serBits _ _ => []
  | .serFloat _ _ => []
  | .serInt _ a b => write64 a ++ write64 b
  | .serXor ss => ss.flatMap writeStr

/-- The packet of an instruction: its header and its operand words (R110). -/
def encode (p : Params) (i : Instr) : List Word := headerOf i :: operandsOf p i

/-! ## Words as the opcode table numbers them -/

/-- The least number of operand words a legal header calls for: what it calls for when every operand
word is 0 (each string is then empty and has its length word alone, R114, R118). -/
def zeroOperandWords (p : Params) (h : Word) : Nat :=
  match (engOf h).toNat, (opOf h).toNat with
  | 0, 2 => (argOf h).toNat
  | 1, 0 => 9
  | 1, 1 => 2
  | 2, 0 => 1
  | 2, 3 => (argOf h).toNat
  | 2, 4 => (argOf h).toNat
  | 2, 5 => (argOf h).toNat
  | 2, 7 => 625
  | 3, 0 => 2 * (p.bbsW / 64) + (if argFlag h then p.bbsW / 32 else 0)
  | 4, 0 => 3
  | 4, 1 => 1
  | 4, 2 => 2
  | 4, 4 => 4
  | 4, 5 => 1
  | 5, 3 => 4
  | 5, 4 => (argOf h).toNat
  | _, _ => 0

/-- The `k` words of a number whose bit 0 is the least significant bit of the first word. -/
def wordsFromLow : Nat → Nat → List Word
  | 0, _ => []
  | k + 1, w => BitVec.ofNat 32 w :: wordsFromLow k (w >>> 32)

/-- The packet whose first `nbits` bits are `w` and whose other bits are 0: its header and, when the
header is legal, its operand words. -/
def packetOfBits (p : Params) (nbits w : Nat) : List Word :=
  match wordsFromLow (ceilDiv nbits 32) (w % 2 ^ nbits) with
  | [] => []
  | h :: ws =>
    match headerReject p h with
    | some _ => h :: ws
    | none => h :: ws ++ List.replicate (zeroOperandWords p h - ws.length) 0#32

/-- The instruction the decoder reads, under the default parameters, from an instruction whose bits
are `w`, numbered as spec/opcode_table.json numbers them; none where the decoder rejects. -/
def decodeTableWord (nbits w : Nat) : Option Instr :=
  match decode Params.default (packetOfBits Params.default nbits w) with
  | .ok i _ => some i
  | .reject _ => none

end Sys2Proof
end

