-- ==== Sys2Proof/Machine/State.lean ====
section
/-! DEFINITION. Everything the spec gives the block as state (10_state.md R30 to R56), plain data
throughout, and the state after reset (70_reset_and_hazards.md R390). -/

namespace Sys2Proof.Machine

/-- The reasons a step stops the machine with a fault. The block's own FAULT state (60_exceptions.md
R352) is none of them: it is a mode the machine goes on in. -/
inductive Fault where
  /-- A host access to an address outside the 32-byte window. Raised by `busAccess`. R82: what the
  platform does there is outside the block. Safe: the run stops where the block is not reached. -/
  | outsideWindow (addr : Nat)
deriving DecidableEq, Repr

/-- The reasons a step is refused. -/
inductive Refusal where
  /-- An instruction with no meaning yet, raised by `exec`'s arm for it. No arm of this model raises
  it. Safe: the run stops. -/
  | notModelled (mnemonic : String)
deriving DecidableEq, Repr

/-- An LCG instance (R43). -/
structure Lcg where
  /-- `VALID`: a successful LCG_INIT or LCG_PRESET has run since reset. -/
  valid : Bool
  /-- `VALUE`. -/
  value : Word64
  /-- `A`. -/
  a : Word64
  /-- `C`. -/
  c : Word64
  /-- `M`, 65 bits. -/
  m : BitVec 65
deriving DecidableEq, Repr

/-- An MT19937 bank (R44 to R47). -/
structure Mt where
  /-- `VALID` (R46). -/
  valid : Bool
  /-- `W[0..623]`. -/
  w : Vector Word 624
  /-- `CUR`, 10 bits; 624 or less (R45). -/
  cur : BitVec 10
deriving DecidableEq, Repr

/-- A BBS instance (R48). The fields are unsigned integers below `2^BBS_W` (X, N) and
`2^(BBS_W/2)` (P, Q); `BBS_W` is a parameter, so the bound is an invariant and not in the type. -/
structure Bbs where
  /-- `VALID`. -/
  valid : Bool
  /-- `X`. -/
  x : Nat
  /-- `N`. -/
  n : Nat
  /-- `P`. -/
  p : Nat
  /-- `Q`. -/
  q : Nat
deriving DecidableEq, Repr

/-- A DRBG instance (R50). -/
structure Drbg where
  /-- `INST`: instantiated or reseeded since reset. -/
  inst : Bool
  /-- `VARIANT`. -/
  variant : Variant
  /-- `V`, 55 bytes. -/
  v : Vector Byte 55
  /-- `K`: Key (HMAC, bytes 0 to 31) or C (Hash). -/
  k : Vector Byte 55
  /-- `CTR`, the reseed_counter. -/
  ctr : Word
  /-- `INTERVAL`, the reseed_interval. -/
  interval : Word
deriving DecidableEq, Repr

/-- The stored bits of the ERR register (R37); its other bits read 0. -/
structure Err where
  /-- Bit 0, `CMD_OVF`. -/
  cmdOvf : Bool
  /-- Bit 1, `RSP_UDF`. -/
  rspUdf : Bool
  /-- Bit 2, `ENT_OVF`. -/
  entOvf : Bool
  /-- Bit 3, `ILLEGAL`. -/
  illegal : Bool
deriving DecidableEq, Repr

/-- The processor mode (R40). -/
inductive Mode where
  /-- Waiting for a header word. -/
  | idle
  /-- Inside a packet. -/
  | exec
  /-- Halted. -/
  | fault
deriving DecidableEq, Repr

/-- Where in a packet the processor stands: the EXEC sub-state of R40 beyond the header and the
operand words read so far. -/
inductive Phase where
  /-- Reading operands (`CmdRead`), or, once the packet is complete, about to compute. -/
  | operands
  /-- In the draw of a seedless BBS_INIT on instance `i` with factors `p` and `q` (43_bbs.md R232):
  `acc` are the ENT words of the current candidate read so far, and the candidate is computed when
  they are complete. -/
  | draw (i : Inst) (p q : Nat) (acc : List Word)
  /-- Writing the response (`RspWrite`): the words written so far and those to write. -/
  | response (written todo : List Word)
deriving DecidableEq, Repr

/-- One host access (20_memory.md R80): its width in bits, its byte address, and for a write its
value. -/
inductive Access where
  /-- A load. -/
  | read (bits addr : Nat)
  /-- A store of `v`. -/
  | write (bits addr : Nat) (v : Word)
deriving DecidableEq, Repr

/-- What happens at the block's ports, in the order it happens (R97, 60_exceptions.md R366). -/
inductive BusEvent where
  /-- A host agent's step: one access. -/
  | access (a : Access)
  /-- The bus is quiet for one step and the processor takes its next step, if one is enabled. -/
  | quiet
  /-- The reset input is asserted (R390). -/
  | hardReset
deriving DecidableEq, Repr

/-- What the bus gives back for one access. -/
inductive BusReply where
  /-- The word a read returns. -/
  | data (v : Word)
  /-- A write was taken. -/
  | done
  /-- The host bus's error response, `BusError(addr)` of R81. DESIGN CHOICE (log 13): `addr` is the
  host's byte address, not the offset in the window. -/
  | error (addr : Nat)
deriving DecidableEq, Repr

/-- The state of the block and of its ports. -/
structure State where
  /-- The implementation parameters (00_scope.md R10). No step changes them. -/
  params : Params
  /-- The processor mode (R40). -/
  mode : Mode
  /-- The current header (R40); 0 outside a packet. -/
  hdr : Word
  /-- The operand words of the current packet read so far, in order (R40). -/
  ops : List Word
  /-- Where in the packet the processor stands (R40); `operands` outside a packet. -/
  phase : Phase
  /-- `FPEND`, a fault is pending (R40). -/
  fpend : Bool
  /-- `pc`, the command-stream position (R39). -/
  pc : Nat
  /-- The CMD FIFO, oldest word first (R41). -/
  cmd : List Word
  /-- The RSP FIFO, oldest word first (R41). -/
  rsp : List Word
  /-- The ENT FIFO, oldest word first (R41). -/
  ent : List Word
  /-- `CTRL.IE` (R32), the one stored bit of CTRL. -/
  ie : Bool
  /-- `ERR` (R37). -/
  err : Err
  /-- `FAULT_INFO` (R38). -/
  faultInfo : Word
  /-- `LCG[i]` (R43). An index at or above `LCG_NINST` is no instance: no legal header names it. -/
  lcg : Vector Lcg 4
  /-- `MT[i]` (R44). -/
  mt : Vector Mt 4
  /-- `BBS[i]` (R48). -/
  bbs : Vector Bbs 4
  /-- `DRBG[i]` (R50). -/
  drbg : Vector Drbg 4
  /-- The model's own: what is still to happen at the ports, the next event first (log 1). -/
  bus : List BusEvent
  /-- The model's own: what the bus has given back so far, oldest first (log 1). -/
  busOut : List BusReply
deriving DecidableEq, Repr

/-- `LCG[i]` after reset (R43). -/
def Lcg.reset : Lcg where
  valid := false
  value := 0
  a := 0
  c := 0
  m := 0

/-- `MT[i]` after reset with the words `w` (R47). -/
def Mt.reset (w : Vector Word 624) : Mt where
  valid := false
  w := w
  cur := 624#10

/-- `BBS[i]` after reset (R48). -/
def Bbs.reset : Bbs where
  valid := false
  x := 0
  n := 0
  p := 0
  q := 0

/-- `DRBG[i]` after reset (R50, R52). -/
def Drbg.reset : Drbg where
  inst := false
  variant := .hmac
  v := Vector.replicate 55 0#8
  k := Vector.replicate 55 0#8
  ctr := 0
  interval := 10000#32

/-- `ERR` after reset (R37). -/
def Err.reset : Err where
  cmdOvf := false
  rspUdf := false
  entOvf := false
  illegal := false

/-- The reset state of a block with parameters `p` (R390), with nothing at its ports. -/
def State.resetOf (p : Params) : State where
  params := p
  mode := .idle
  hdr := 0
  ops := []
  phase := .operands
  fpend := false
  pc := 0
  cmd := []
  rsp := []
  ent := []
  ie := false
  err := Err.reset
  faultInfo := 0
  lcg := Vector.replicate 4 Lcg.reset
  mt := Vector.ofFn fun i : Fin 4 => Mt.reset p.mtRamInit[i]
  bbs := Vector.replicate 4 Bbs.reset
  drbg := Vector.replicate 4 Drbg.reset
  bus := []
  busOut := []

/-- The machine right after reset (R390), with the default parameters of R10. -/
def State.reset : State := State.resetOf Params.default

end Sys2Proof.Machine
end

