-- ==== Sys2Proof/Machine/Flags.lean ====
section
/-! DEFINITION. The registers whose bits are computed from other state when they are read: STATUS,
CTRL and ERR as words, the derived DRBG state and the interrupt line (10_state.md R31 to R37, R53,
60_exceptions.md R360). -/

namespace Sys2Proof.Machine

/-- `ID` (R31). -/
def idWord : Word := 0x54585207#32

/-- The derived DRBG state of R53. -/
inductive DrbgState where
  /-- 0. -/
  | uninstantiated
  /-- 1. -/
  | ready
  /-- 2. -/
  | reseedRequired
deriving DecidableEq, Repr

/-- `CTR > INTERVAL`: the condition of ReseedRequired (R53, R269). -/
def Drbg.exhausted (d : Drbg) : Bool := decide (d.interval.toNat < d.ctr.toNat)

/-- `DrbgState(i)` of R53. -/
def Drbg.state (d : Drbg) : DrbgState :=
  if d.inst = false then .uninstantiated
  else if d.exhausted then .reseedRequired
  else .ready

/-- The number of a DRBG state (R53). -/
def DrbgState.code : DrbgState → BitVec 2
  | .uninstantiated => 0#2
  | .ready => 1#2
  | .reseedRequired => 2#2

/-- The number of ENT words of one candidate of a seedless draw modulo `n`: `ceil(bitlen(n)/32)`
(43_bbs.md R232). -/
def candidateWords (n : Nat) : Nat := ceilDiv (bitlen n) 32

/-- `STATUS.BUSY` (R33). -/
def State.busy (s : State) : Bool := !s.cmd.isEmpty || decide (s.mode = .exec)

/-- `STATUS.CMD_FULL` (R33). -/
def State.cmdFull (s : State) : Bool := decide (s.params.cmdDepth ≤ s.cmd.length)

/-- `STATUS.RSP_VALID` (R33). -/
def State.rspValid (s : State) : Bool := !s.rsp.isEmpty

/-- The RSP FIFO holds `RSP_DEPTH` words (20_memory.md R85). -/
def State.rspFull (s : State) : Bool := decide (s.params.rspDepth ≤ s.rsp.length)

/-- The processor is in `EntRead()`: a seedless draw lacks words of its candidate (R232). -/
def State.inEntRead (s : State) : Bool :=
  match s.mode, s.phase with
  | .exec, .draw _ p q acc => decide (acc.length < candidateWords (p * q))
  | _, _ => false

/-- `STATUS.ENT_WAIT` (R33). -/
def State.entWait (s : State) : Bool := s.inEntRead && s.ent.isEmpty

/-- `STATUS.FAULT` (R33). -/
def State.faultFlag (s : State) : Bool := decide (s.mode = .fault) || s.fpend

/-- `STATUS.ENT_FULL` (R33). -/
def State.entFull (s : State) : Bool := decide (s.params.entDepth ≤ s.ent.length)

/-- A flag as bit `k` of a word whose other bits are 0. -/
def flagBit (b : Bool) (k : Nat) : Word := (BitVec.ofBool b).setWidth 32 <<< k

/-- `STATUS` (R33), bits 0 up to 31; the bits not named are 0. -/
def State.statusWord (s : State) : Word :=
  flagBit s.busy 0 ||| flagBit s.cmdFull 1 ||| flagBit s.rspValid 2 ||| flagBit s.entWait 3 |||
  flagBit s.faultFlag 4 ||| flagBit s.entFull 5 |||
  s.drbg[0].state.code.setWidth 32 <<< 8 |||
  (BitVec.ofNat 8 (min 255 (s.params.cmdDepth - s.cmd.length))).setWidth 32 <<< 16 |||
  (BitVec.ofNat 8 (min 255 s.rsp.length)).setWidth 32 <<< 24

/-- `CTRL` as it reads (R32, 20_memory.md R80): SRST reads 0. -/
def State.ctrlWord (s : State) : Word := flagBit s.ie 1

/-- `ERR` as it reads (R37). -/
def Err.word (e : Err) : Word :=
  flagBit e.cmdOvf 0 ||| flagBit e.rspUdf 1 ||| flagBit e.entOvf 2 ||| flagBit e.illegal 3

/-- The interrupt line `irq` (60_exceptions.md R360); where it goes is outside the block (log 12). -/
def State.irq (s : State) : Bool := s.ie && (s.rspValid || s.faultFlag)

end Sys2Proof.Machine
end

