-- ==== Sys2Proof/Machine/Ops.lean ====
section
/-! DEFINITION. The named operations on the state that the meanings and the agents' steps share:
engine registers, responses, raising a fault and entering FAULT, and the two resets
(30_encoding.md R119 to R122, 60_exceptions.md R352, 70_reset_and_hazards.md R390, R391). -/

namespace Sys2Proof.Machine

/-! ## Engine registers -/

/-- `LCG[i] <- x`. -/
def State.setLcg (s : State) (i : Inst) (x : Lcg) : State := { s with lcg := s.lcg.set i x }

/-- `MT[i] <- x`. -/
def State.setMt (s : State) (i : Inst) (x : Mt) : State := { s with mt := s.mt.set i x }

/-- `BBS[i] <- x`. -/
def State.setBbs (s : State) (i : Inst) (x : Bbs) : State := { s with bbs := s.bbs.set i x }

/-- `DRBG[i] <- x`. -/
def State.setDrbg (s : State) (i : Inst) (x : Drbg) : State := { s with drbg := s.drbg.set i x }

/-! ## Responses -/

/-- The status codes (R121). -/
inductive Status where
  | ok
  | invalidParameter
  | invalidSeed
  | reseedRequired
  | rangeGenerationFailed
  | lengthMismatch
  | insufficientData
  | illegalCommand
  | notInstantiated
deriving DecidableEq, Repr

/-- The number of a status (R121). -/
def Status.code : Status → Byte
  | .ok => 0x00#8
  | .invalidParameter => 0x01#8
  | .invalidSeed => 0x02#8
  | .reseedRequired => 0x03#8
  | .rangeGenerationFailed => 0x04#8
  | .lengthMismatch => 0x05#8
  | .insufficientData => 0x06#8
  | .illegalCommand => 0x07#8
  | .notInstantiated => 0x08#8

/-- The response header word of a command header: ENG, OP and INST copied, 12 zero bits, the status
(R119). -/
def respHeader (h : Word) (st : Status) : Word := (h &&& 0xFFF00000#32) ||| st.code.setWidth 32

/-- The words of a response: header, LEN, data (R110, R119). -/
def responseWords (h : Word) (st : Status) (data : List Word) : List Word :=
  respHeader h st :: BitVec.ofNat 32 data.length :: data

/-- The end of a command's Compute step (60_exceptions.md R366): its complete list of response words
stands ready to be written. -/
def State.respond (s : State) (h : Word) (st : Status) (data : List Word) : State :=
  { s with mode := .exec, phase := .response [] (responseWords h st data) }

/-- A command that completes: `respond OK` with its data words (00_scope.md R16). -/
def finish (i : Instr) (data : List Word) (s : State) : Host.Outcome State Fault Refusal :=
  .next (s.respond (headerOf i) .ok data)

/-- A command that fails: `raise` of a status other than OK, with LEN 0 and no data (R16, R356). -/
def raise (i : Instr) (st : Status) (s : State) : Host.Outcome State Fault Refusal :=
  .next (s.respond (headerOf i) st [])

/-! ## Faults -/

/-- The two causes of a processor fault (60_exceptions.md R350). -/
inductive FaultCause where
  /-- An illegal header (R122). -/
  | illegal
  /-- A CMD overflow (20_memory.md R83). -/
  | cmdOvf
deriving DecidableEq, Repr

/-- The ERR register with the bit of a fault cause set (R352). -/
def Err.record (e : Err) : FaultCause → Err
  | .illegal => { e with illegal := true }
  | .cmdOvf => { e with cmdOvf := true }

/-- Raising a fault with the word `w` (R352): the ERR bit that names the cause, FAULT_INFO, FPEND. -/
def State.raiseFault (s : State) (c : FaultCause) (w : Word) : State :=
  { s with err := s.err.record c, faultInfo := w, fpend := true }

/-- `enter FAULT` of R352: the mode, FPEND cleared, the CMD FIFO emptied. -/
def State.enterFault (s : State) : State :=
  { s with mode := .fault, fpend := false, cmd := [], hdr := 0, ops := [], phase := .operands }

/-- An illegal header `h` at decode (R122, R352): the fault is raised and the IllegalCommand response
stands ready; FAULT is entered when it is written. -/
def State.raiseIllegal (s : State) (h : Word) : State :=
  { s.raiseFault .illegal h with
    mode := .exec, hdr := h, ops := [],
    phase := .response [] (responseWords h .illegalCommand []) }

/-- The end of a packet: FAULT if a fault is pending (R352), else IDLE with an empty sub-state. -/
def State.endPacket (s : State) : State :=
  if s.fpend then s.enterFault
  else { s with mode := .idle, hdr := 0, ops := [], phase := .operands }

/-! ## Reset, the only way out of FAULT (60_exceptions.md R355) -/

/-- The hard reset of R390. The parameters, and what the ports still hold for the model, stay. -/
def State.hardReset (s : State) : State :=
  { State.resetOf s.params with bus := s.bus, busOut := s.busOut }

/-- The soft reset of R391 by a write of `v` to CTRL: every state of R390 but the MT word arrays, and
IE from the same write. -/
def State.softReset (s : State) (v : Word) : State :=
  { s.hardReset with
    mt := s.mt.map fun b => Mt.reset b.w
    ie := v.getLsbD 1 }

end Sys2Proof.Machine
end

