-- ==== Sys2Proof/Machine/Bbs.lean ====
section
/-! DEFINITION. The BBS modular-squaring core (43_bbs.md). -/

namespace Sys2Proof.Machine

/-- `BbsStep` (R235): one squaring, exact before the reduction, and bit 0 of the new X. -/
def bbsStep (b : Bbs) : Bool × Bbs :=
  let x := b.x * b.x % b.n
  (x.testBit 0, { b with x := x })

/-- The parameter checks of R231, in order. -/
def bbsParamsOk (p q : Nat) : Bool := decide (p % 4 = 3) && decide (q % 4 = 3) && decide (p ≠ q)

/-- An instance initialised with the factors p and q and the start value x (R230). -/
def bbsInitial (p q x : Nat) : Bbs where
  valid := true
  x := x
  n := p * q
  p := p
  q := q

/-- The candidate of a seedless draw modulo `n` from its ENT words, the first most significant: the
low `bitlen(n)` bits (R232). -/
def bbsCandidate (n : Nat) (acc : List Word) : Nat := natOfWords acc % 2 ^ bitlen n

/-- A candidate is accepted if it lies in `[2, n-1]` and is coprime to `n` (R232). -/
def bbsAccepts (n c : Nat) : Bool := decide (2 ≤ c) && decide (c ≤ n - 1) && decide (Nat.gcd c n = 1)

/-- The Compute step of one candidate of a seedless BBS_INIT, its ENT words complete (R232,
60_exceptions.md R366): an accepted candidate initialises the instance and ends the command, a
rejected one is lost and the next is read. -/
def State.bbsTryCandidate (s : State) (i : Inst) (p q : Nat) (acc : List Word) : State :=
  if bbsAccepts (p * q) (bbsCandidate (p * q) acc) then
    (s.setBbs i (bbsInitial p q (bbsCandidate (p * q) acc))).respond
      (headerOf (.bbsInit i p q none)) .ok []
  else { s with mode := .exec, phase := .draw i p q [] }

/-- BBS_INIT (R230): the checks of R231; with a seed, the gcd check and the whole command; without
one, the draw of R232 begins (its candidates are `State.bbsTryCandidate`). -/
def execBbsInit (i : Inst) (p q : Nat) (seed : Option Nat) (s : State) :
    Host.Outcome State Fault Refusal :=
  if bbsParamsOk p q = false then raise (.bbsInit i p q seed) .invalidParameter s
  else match seed with
    | some x =>
      if Nat.gcd x (p * q) ≠ 1 then raise (.bbsInit i p q (some x)) .invalidSeed s
      else finish (.bbsInit i p q (some x)) [] (s.setBbs i (bbsInitial p q (x % (p * q))))
    | none => .next { s with mode := .exec, phase := .draw i p q [] }

/-- BBS_NEXT_BIT (R233). -/
def execBbsNextBit (i : Inst) (n : Count) (s : State) : Host.Outcome State Fault Refusal :=
  if s.bbs[i].valid = false then raise (.bbsNextBit i n) .notInstantiated s
  else
    let r := drawN bbsStep n.toNat s.bbs[i]
    finish (.bbsNextBit i n) (packBits r.1) (s.setBbs i r.2)

/-- The data words of BBS_READ (R234): VALID, X, N, P, Q. -/
def bbsReadWords (w : Nat) (b : Bbs) : List Word :=
  BitVec.ofNat 32 b.valid.toNat :: (wordsOfNat (w / 32) b.x ++ wordsOfNat (w / 32) b.n ++
    wordsOfNat (w / 64) b.p ++ wordsOfNat (w / 64) b.q)

/-- BBS_READ (R234). -/
def execBbsRead (i : Inst) (s : State) : Host.Outcome State Fault Refusal :=
  finish (.bbsRead i) (bbsReadWords s.params.bbsW s.bbs[i]) s

end Sys2Proof.Machine
end

