-- ==== Sys2Proof/Machine/Drbg.lean ====
section
/-! DEFINITION. The NIST DRBG update/generate state machine (44_drbg.md). `HASH` and `HMAC` are the
collaborators `Config.hash` and `Config.hmac` (00_scope.md R12). -/

namespace Sys2Proof.Machine

/-! ## Storage (R266) -/

/-- `VLEN(i)` (10_state.md R51). -/
def Drbg.vlen (d : Drbg) : Nat :=
  match d.variant with
  | .hmac => 32
  | .hash => 55

/-- The first 32 bytes of a 55-byte field. -/
def low32 (f : Vector Byte 55) : Vector Byte 32 := Vector.ofFn fun j => f[j.val]

/-- 32 bytes in a 55-byte field, bytes 32 to 54 zero (R266, log 10). -/
def fill55 (d : Vector Byte 32) : Vector Byte 55 :=
  Vector.ofFn fun j => if h : j.val < 32 then d[j.val] else 0#8

/-- The first 55 bytes of a byte string, in a field. Every string it is given has 55 or more. -/
def field55 (b : List Byte) : Vector Byte 55 := Vector.ofFn fun j => b.getD j.val 0#8

/-- `Key(i)`: bytes 0 to 31 of K (R266). -/
def Drbg.key (d : Drbg) : Vector Byte 32 := low32 d.k

/-- `V(i)`: the first VLEN bytes of V (R51, R266). -/
def Drbg.vBytes (d : Drbg) : List Byte := d.v.toList.take d.vlen

/-- `C(i)` as an integer, `BE(C)` (R266). -/
def Drbg.cNat (d : Drbg) : Nat := natOfBytes d.k.toList

/-! ## HMAC variant -/

/-- `Key <- HMAC(Key, m)` (R266, R267). -/
def Drbg.hmacKey (d : Drbg) (m : List Byte) : Drbg := { d with k := fill55 (Config.hmac d.key m) }

/-- `V <- HMAC(Key, V)` (R266, R267). -/
def Drbg.hmacV (d : Drbg) : Drbg := { d with v := fill55 (Config.hmac d.key (low32 d.v).toList) }

/-- One pass of the update with the marker byte `mark` (R267). -/
def Drbg.hmacPass (d : Drbg) (mark : Byte) (data : List Byte) : Drbg :=
  (d.hmacKey ((low32 d.v).toList ++ mark :: data)).hmacV

/-- `HmacUpdate` (R267): a second pass, with marker 0x01, exactly when data is present. -/
def Drbg.hmacUpdate (d : Drbg) (data : List Byte) : Drbg :=
  if data.length > 0 then (d.hmacPass 0x00#8 data).hmacPass 0x01#8 data else d.hmacPass 0x00#8 data

/-- `n` output blocks of the HMAC variant, V refreshed for each (R269). -/
def Drbg.hmacBlocks : Nat → Drbg → List Byte × Drbg
  | 0, d => ([], d)
  | n + 1, d =>
      ((low32 d.hmacV.v).toList ++ (Drbg.hmacBlocks n d.hmacV).1, (Drbg.hmacBlocks n d.hmacV).2)

/-! ## Hash variant -/

/-- The blocks `ctr, ctr+1, …` of `HashDf`, `n` of them, for a length of `bits` bits (R268). -/
def hashDfBlocks : Nat → Nat → Nat → List Byte → List Byte
  | 0, _, _, _ => []
  | n + 1, ctr, bits, m =>
      (Config.hash (bytesOfNat 1 ctr ++ bytesOfNat 4 bits ++ m)).toList ++
        hashDfBlocks n (ctr + 1) bits m

/-- `HashDf(m, 55)` (R268): 55 is the length in every use. -/
def hashDf55 (m : List Byte) : List Byte := (hashDfBlocks (ceilDiv 55 32) 1 (8 * 55) m).take 55

/-- `n` blocks of Hashgen from the 440-bit number `d` (R269). -/
def hashgenBlocks : Nat → Nat → List Byte
  | 0, _ => []
  | n + 1, d => (Config.hash (bytesOfNat 55 d)).toList ++ hashgenBlocks n ((d + 1) % 2 ^ 440)

/-- `V <- BE_55(x)` (R266). -/
def Drbg.setV (d : Drbg) (x : Nat) : Drbg := { d with v := field55 (bytesOfNat 55 x) }

/-- `BE(V)` (R266). -/
def Drbg.vNat (d : Drbg) : Nat := natOfBytes d.v.toList

/-- V with the additional input added before output, when there is one (R269). -/
def Drbg.hashAddInput (d : Drbg) (a : List Byte) : Drbg :=
  if a.length > 0 then
    d.setV (d.vNat + natOfBytes (Config.hash (0x02#8 :: (d.v.toList ++ a))).toList)
  else d

/-- The final V step of the Hash variant: the old counter value is the one added (R269). -/
def Drbg.hashPost (d : Drbg) : Drbg :=
  d.setV (d.vNat + natOfBytes (Config.hash (0x03#8 :: d.v.toList)).toList + d.cNat + d.ctr.toNat)

/-! ## Generate -/

/-- The output and the state of a Generate that is not refused, before the counter (R269). -/
def Drbg.produce (preUpdate : Bool) (d : Drbg) (n : Nat) (a : List Byte) : List Byte × Drbg :=
  match d.variant with
  | .hmac =>
    let d := if preUpdate && decide (a.length > 0) then d.hmacUpdate a else d
    let r := Drbg.hmacBlocks (ceilDiv n 32) d
    (r.1.take n, r.2.hmacUpdate a)
  | .hash =>
    let d := d.hashAddInput a
    ((hashgenBlocks (ceilDiv n 32) d.vNat).take n, d.hashPost)

/-- `DrbgGenerate(i, n, a)` (R269): refused with ReseedRequired and no state change when CTR exceeds
INTERVAL; else n bytes, and CTR counts on. -/
def Drbg.generate (preUpdate : Bool) (n : Nat) (a : List Byte) (d : Drbg) :
    Except Status (List Byte × Drbg) :=
  if d.exhausted then .error .reseedRequired
  else
    let r := d.produce preUpdate n a
    .ok (r.1, { r.2 with ctr := r.2.ctr + 1 })

/-- `DrbgBits(i, k)` (R270). -/
def Drbg.bits (preUpdate : Bool) (k : Nat) (d : Drbg) : Except Status (List Bool × Drbg) :=
  (d.generate preUpdate (ceilDiv k 8) []).map fun r => ((bytesBits r.1).take k, r.2)

/-! ## Bounded integers (R276), for DRBG_RANDOM_INT and SER_INT -/

/-- At most `n` attempts at a `k`-bit number not above `r`: the number or the status, and the source
after the draws made, which stay made (R276). -/
def boundedAttempts {σ : Type} (r k : Nat) (bits : Nat → σ → Except Status (List Bool × σ)) :
    Nat → σ → Except Status Nat × σ
  | 0, s => (.error .rangeGenerationFailed, s)
  | n + 1, s =>
    match bits k s with
    | .error st => (.error st, s)
    | .ok (bs, s') =>
      if natOfBits bs ≤ r then (.ok (natOfBits bs), s') else boundedAttempts r k bits n s'

/-- `BoundedInt(a, b, bits)` (R276), with `a ≤ b` already checked. -/
def boundedInt {σ : Type} (attempts : Nat) (a b : Word64)
    (bits : Nat → σ → Except Status (List Bool × σ)) (s : σ) : Except Status Word64 × σ :=
  let r := (b.toInt - a.toInt).toNat
  if r = 0 then (.ok a, s)
  else
    let t := boundedAttempts r (bitlen r) bits attempts s
    (t.1.map fun v => BitVec.ofInt 64 (a.toInt + v), t.2)

/-! ## Commands -/

/-- A string operand is longer than `MAX_STR_BYTES` (30_encoding.md R126). -/
def tooLong (p : Params) (b : List Byte) : Bool := decide (p.maxStrBytes < b.length)

/-- The instance after an instantiate with the seed material `sm` (R260); INTERVAL stays. -/
def Drbg.instantiate (d : Drbg) (variant : Variant) (sm : List Byte) : Drbg :=
  match variant with
  | .hmac =>
    { { d with variant := .hmac
               k := Vector.replicate 55 0#8
               v := fill55 (Vector.replicate 32 1#8) }.hmacUpdate sm with ctr := 1, inst := true }
  | .hash =>
    { d with variant := .hash
             v := field55 (hashDf55 sm)
             k := field55 (hashDf55 (0x00#8 :: hashDf55 sm))
             ctr := 1
             inst := true }

/-- DRBG_INSTANTIATE (R260). -/
def execDrbgInstantiate (i : Inst) (variant : Variant) (e n ps : List Byte) (s : State) :
    Host.Outcome State Fault Refusal :=
  if tooLong s.params e || tooLong s.params n || tooLong s.params ps then
    raise (.drbgInstantiate i variant e n ps) .invalidParameter s
  else finish (.drbgInstantiate i variant e n ps) []
    (s.setDrbg i (s.drbg[i].instantiate variant (e ++ n ++ ps)))

/-- DRBG_GENERATE (R261). -/
def execDrbgGenerate (i : Inst) (n : Count) (a : List Byte) (s : State) :
    Host.Outcome State Fault Refusal :=
  if s.drbg[i].inst = false then raise (.drbgGenerate i n a) .notInstantiated s
  else if tooLong s.params a then raise (.drbgGenerate i n a) .invalidParameter s
  else match s.drbg[i].generate s.params.hmacPreUpdate n.toNat a with
    | .error st => raise (.drbgGenerate i n a) st s
    | .ok (t, d) => finish (.drbgGenerate i n a) (packBytes t) (s.setDrbg i d)

/-- The instance after a reseed with entropy e and additional input a (R262). -/
def Drbg.reseed (d : Drbg) (e a : List Byte) : Drbg :=
  match d.variant with
  | .hmac => { d.hmacUpdate (e ++ a) with ctr := 1, inst := true }
  | .hash =>
    let v := hashDf55 (0x01#8 :: (d.v.toList ++ e ++ a))
    { d with v := field55 v, k := field55 (hashDf55 (0x00#8 :: v)), ctr := 1, inst := true }

/-- DRBG_RESEED (R262). -/
def execDrbgReseed (i : Inst) (e a : List Byte) (s : State) : Host.Outcome State Fault Refusal :=
  if tooLong s.params e || tooLong s.params a then raise (.drbgReseed i e a) .invalidParameter s
  else finish (.drbgReseed i e a) [] (s.setDrbg i (s.drbg[i].reseed e a))

/-- DRBG_GEN_BITS (R263). -/
def execDrbgGenBits (i : Inst) (n : Count) (s : State) : Host.Outcome State Fault Refusal :=
  if s.drbg[i].inst = false then raise (.drbgGenBits i n) .notInstantiated s
  else if n = 0#20 then raise (.drbgGenBits i n) .invalidParameter s
  else match s.drbg[i].bits s.params.hmacPreUpdate n.toNat with
    | .error st => raise (.drbgGenBits i n) st s
    | .ok (bs, d) => finish (.drbgGenBits i n) (packBits bs) (s.setDrbg i d)

/-- DRBG_RANDOM_INT (R264): the draws of a failed command stay made (60_exceptions.md R356). -/
def execDrbgRandomInt (i : Inst) (a b : Word64) (s : State) : Host.Outcome State Fault Refusal :=
  if s.drbg[i].inst = false then raise (.drbgRandomInt i a b) .notInstantiated s
  else if b.toInt < a.toInt then raise (.drbgRandomInt i a b) .invalidParameter s
  else
    let r := boundedInt s.params.rangeMaxAttempts a b (Drbg.bits s.params.hmacPreUpdate) s.drbg[i]
    match r.1 with
    | .error st => raise (.drbgRandomInt i a b) st (s.setDrbg i r.2)
    | .ok v => finish (.drbgRandomInt i a b) (wordsOf64 v) (s.setDrbg i r.2)

/-- DRBG_SET_INTERVAL (R265). -/
def execDrbgSetInterval (i : Inst) (v : Word) (s : State) : Host.Outcome State Fault Refusal :=
  if v.toNat < 1 ∨ 2 ^ 31 < v.toNat then raise (.drbgSetInterval i v) .invalidParameter s
  else finish (.drbgSetInterval i v) [] (s.setDrbg i { s.drbg[i] with interval := v })

/-- VARIANT as a bit (R50). -/
def variantBit : Variant → Nat
  | .hmac => 0
  | .hash => 1

/-- The data words of DRBG_READ (R271). -/
def drbgReadWords (d : Drbg) : List Word :=
  (BitVec.ofNat 32 d.inst.toNat ||| BitVec.ofNat 32 (variantBit d.variant) <<< 1 |||
    d.state.code.setWidth 32 <<< 8) ::
  d.ctr :: d.interval :: (packBytes d.vBytes ++ packBytes (d.k.toList.take d.vlen))

/-- DRBG_READ (R271). -/
def execDrbgRead (i : Inst) (s : State) : Host.Outcome State Fault Refusal :=
  finish (.drbgRead i) (drbgReadWords s.drbg[i]) s

end Sys2Proof.Machine
end

