-- ==== Sys2Proof/Machine/Lcg.lean ====
section
/-! DEFINITION. The LCG recurrence engine (41_lcg.md). -/

namespace Sys2Proof.Machine

/-- `LcgStep` (R164): the recurrence, exact before the reduction; the value returned is the value
stored. -/
def lcgStep (l : Lcg) : Word64 × Lcg :=
  let v := BitVec.ofNat 64 ((l.a.toNat * l.value.toNat + l.c.toNat) % l.m.toNat)
  (v, { l with value := v })

/-- An instance initialised with a seed and parameters, the seed reduced mod m (R160, R161). -/
def lcgInitial (seed a c : Word64) (m : BitVec 65) : Lcg where
  valid := true
  value := BitVec.ofNat 64 (seed.toNat % m.toNat)
  a := a
  c := c
  m := m

/-- The presets of R161: (a, c, m); none for PRESET 3 to 15. The RANDU and Knuth-MMIX numbers are the
spec's, which marks them as general knowledge (93_implementation_defined.md G1, G2; log 11). -/
def lcgPresetParams (preset : BitVec 4) : Option (Word64 × Word64 × BitVec 65) :=
  match preset.toNat with
  | 0 => some (1103515245#64, 12345#64, BitVec.ofNat 65 (2 ^ 31))
  | 1 => some (65539#64, 0#64, BitVec.ofNat 65 (2 ^ 31))
  | 2 => some (6364136223846793005#64, 1442695040888963407#64, BitVec.ofNat 65 (2 ^ 64))
  | _ => none

/-- LCG_INIT (R160). -/
def execLcgInit (i : Inst) (seed a c : Word64) (m : BitVec 96) (s : State) :
    Host.Outcome State Fault Refusal :=
  if m.toNat = 0 ∨ 2 ^ 64 < m.toNat then raise (.lcgInit i seed a c m) .invalidParameter s
  else finish (.lcgInit i seed a c m) [] (s.setLcg i (lcgInitial seed a c (m.setWidth 65)))

/-- LCG_PRESET (R161). -/
def execLcgPreset (i : Inst) (preset : BitVec 4) (seed : Word64) (s : State) :
    Host.Outcome State Fault Refusal :=
  match lcgPresetParams preset with
  | none => raise (.lcgPreset i preset seed) .invalidParameter s
  | some (a, c, m) => finish (.lcgPreset i preset seed) [] (s.setLcg i (lcgInitial seed a c m))

/-- LCG_NEXT (R162). -/
def execLcgNext (i : Inst) (n : Count) (s : State) : Host.Outcome State Fault Refusal :=
  if s.lcg[i].valid = false then raise (.lcgNext i n) .notInstantiated s
  else
    let r := drawN lcgStep n.toNat s.lcg[i]
    finish (.lcgNext i n) (r.1.flatMap wordsOf64) (s.setLcg i r.2)

/-- The ten data words of LCG_READ (R163). -/
def lcgReadWords (l : Lcg) : List Word :=
  BitVec.ofNat 32 l.valid.toNat :: (wordsOf64 l.value ++ wordsOf64 l.a ++ wordsOf64 l.c ++
    [(l.m.extractLsb' 64 1).setWidth 32, l.m.extractLsb' 32 32, l.m.extractLsb' 0 32])

/-- LCG_READ (R163). -/
def execLcgRead (i : Inst) (s : State) : Host.Outcome State Fault Refusal :=
  finish (.lcgRead i) (lcgReadWords s.lcg[i]) s

end Sys2Proof.Machine
end

