-- ==== Sys2Proof/Machine/Mt.lean ====
section
/-! DEFINITION. The MT19937 twist/temper engine (42_mt19937.md); its constants are those of R204. -/

namespace Sys2Proof.Machine

/-- The words `k, k+1, …` of the seed fill, `n` of them, `p` being word `k` (R191). -/
def mtFillFrom : Nat → Nat → Word → List Word
  | 0, _, _ => []
  | n + 1, k, p =>
      p :: mtFillFrom n (k + 1) (1812433253#32 * (p ^^^ (p >>> 30)) + BitVec.ofNat 32 (k + 1))

/-- `MtSeedFill` (R191): the words, and the cursor at 624; VALID as R190 sets it. -/
def mtSeedFill (seed : Word) : Mt where
  valid := true
  w := Vector.ofFn fun k => (mtFillFrom 624 0 seed).getD k.val 0#32
  cur := 624#10

/-- `y >> 1`, with the twist matrix constant XORed in when y is odd (R192). -/
def twistShift (y : Word) : Word :=
  if y.getLsbD 0 then (y >>> 1) ^^^ 0x9908B0DF#32 else y >>> 1

/-- Step k of the twist, in place: it reads words that earlier steps have rewritten (R192). Index
arithmetic on `Fin 624` is modulo 624. -/
def twistStep (w : Vector Word 624) (k : Fin 624) : Vector Word 624 :=
  w.set k (w[k + 397] ^^^
    twistShift ((w[k] &&& 0x80000000#32) ||| (w[k + 1] &&& 0x7FFFFFFF#32)))

/-- The word array after the twist's pass, k ascending from 0 to 623 (R192). -/
def twistWords (w : Vector Word 624) : Vector Word 624 := (List.finRange 624).foldl twistStep w

/-- `Twist` (R192). -/
def mtTwist (b : Mt) : Mt := { b with w := twistWords b.w, cur := 0#10 }

/-- `Temper` (R193). -/
def temper (y : Word) : Word :=
  let y := y ^^^ (y >>> 11)
  let y := y ^^^ ((y <<< 7) &&& 0x9D2C5680#32)
  let y := y ^^^ ((y <<< 15) &&& 0xEFC60000#32)
  y ^^^ (y >>> 18)

/-- `Untemper` (R198): single steps for the shifts by 18 and 15, four passes for the shift by 7 and
two for the shift by 11. -/
def untemper (y : Word) : Word :=
  let y := y ^^^ (y >>> 18)
  let y := y ^^^ ((y <<< 15) &&& 0xEFC60000#32)
  let x := y ^^^ ((y <<< 7) &&& 0x9D2C5680#32)
  let x := y ^^^ ((x <<< 7) &&& 0x9D2C5680#32)
  let x := y ^^^ ((x <<< 7) &&& 0x9D2C5680#32)
  let y := y ^^^ ((x <<< 7) &&& 0x9D2C5680#32)
  let x := y ^^^ (y >>> 11)
  y ^^^ (x >>> 11)

/-- The word at the cursor. The cursor is below 624 where this is read (R45, R199). -/
def Mt.atCursor (b : Mt) : Word := (b.w[b.cur.toNat]?).getD 0#32

/-- `MtExtract` (R199): a twist exactly when the cursor is 624, then one tempered word. -/
def mtExtract (b : Mt) : Word × Mt :=
  let b := if b.cur = 624#10 then mtTwist b else b
  (temper b.atCursor, { b with cur := b.cur + 1#10 })

/-- The bank loaded from 624 observed outputs (R201). -/
def mtCloned (os : List Word) : Mt where
  valid := true
  w := Vector.ofFn fun k => untemper (os.getD k.val 0#32)
  cur := 624#10

/-- MT_SEED (R190). -/
def execMtSeed (i : Inst) (seed : Word) (s : State) : Host.Outcome State Fault Refusal :=
  finish (.mtSeed i seed) [] (s.setMt i (mtSeedFill seed))

/-- MT_EXTRACT (R194). -/
def execMtExtract (i : Inst) (n : Count) (s : State) : Host.Outcome State Fault Refusal :=
  if s.mt[i].valid = false then raise (.mtExtract i n) .notInstantiated s
  else
    let r := drawN mtExtract n.toNat s.mt[i]
    finish (.mtExtract i n) r.1 (s.setMt i r.2)

/-- MT_TWIST (R195). -/
def execMtTwist (i : Inst) (s : State) : Host.Outcome State Fault Refusal :=
  if s.mt[i].valid = false then raise (.mtTwist i) .notInstantiated s
  else finish (.mtTwist i) [] (s.setMt i (mtTwist s.mt[i]))

/-- MT_TEMPER (R196). -/
def execMtTemper (i : Inst) (ys : List Word) (s : State) : Host.Outcome State Fault Refusal :=
  finish (.mtTemper i ys) (ys.map temper) s

/-- MT_UNTEMPER (R197). -/
def execMtUntemper (i : Inst) (ys : List Word) (s : State) : Host.Outcome State Fault Refusal :=
  finish (.mtUntemper i ys) (ys.map untemper) s

/-- MT_CLONE (R201). -/
def execMtClone (i : Inst) (os : List Word) (s : State) : Host.Outcome State Fault Refusal :=
  if os.length < 624 then raise (.mtClone i os) .insufficientData s
  else if 624 < os.length then raise (.mtClone i os) .invalidParameter s
  else finish (.mtClone i os) [] (s.setMt i (mtCloned os))

/-- MT_READ (R202). -/
def execMtRead (i : Inst) (s : State) : Host.Outcome State Fault Refusal :=
  if s.mt[i].valid = false then raise (.mtRead i) .notInstantiated s
  else finish (.mtRead i) (s.mt[i].cur.setWidth 32 :: s.mt[i].w.toList) s

/-- MT_WRITE (R203). -/
def execMtWrite (i : Inst) (cur : Word) (ws : Vector Word 624) (s : State) :
    Host.Outcome State Fault Refusal :=
  if 624 < cur.toNat then raise (.mtWrite i cur ws) .invalidParameter s
  else finish (.mtWrite i cur ws) []
    (s.setMt i { valid := true, w := ws, cur := cur.extractLsb' 0 10 })

end Sys2Proof.Machine
end

