-- ==== Sys2Proof/Machine/Ser.lean ====
section
/-! DEFINITION. The output serializer and the XOR combiner (45_serializer.md). The serializer has no
state of its own (R310). -/

namespace Sys2Proof.Machine

/-- `SrcValid(SRC)` (R311). -/
def State.srcValid (s : State) : Src → Bool
  | .lcg j => s.lcg[j].valid
  | .mt j => s.mt[j].valid
  | .bbs j => s.bbs[j].valid

/-- `BbsByte` (R312): eight squarings, the first bit most significant. -/
def bbsByte (b : Bbs) : Byte × Bbs :=
  let r := drawN bbsStep 8 b
  (BitVec.ofNat 8 (natOfBits r.1), r.2)

/-- `SrcBytes(SRC, n)` (R318). -/
def State.srcBytes (s : State) (src : Src) (n : Nat) : List Byte × State :=
  match src with
  | .lcg j =>
    let r := drawN lcgStep n s.lcg[j]
    (r.1.map fun v => v.extractLsb' 0 8, s.setLcg j r.2)
  | .mt j =>
    let r := drawN mtExtract (ceilDiv n 4) s.mt[j]
    ((r.1.flatMap wordBytes).take n, s.setMt j r.2)
  | .bbs j =>
    let r := drawN bbsByte n s.bbs[j]
    (r.1, s.setBbs j r.2)

/-- `SrcBits(SRC, n)` (R319): n squarings for BBS, else the first n bits of the byte stream. -/
def State.srcBits (s : State) (src : Src) (n : Nat) : List Bool × State :=
  match src with
  | .lcg j =>
    let r := s.srcBytes (.lcg j) (ceilDiv n 8)
    ((bytesBits r.1).take n, r.2)
  | .mt j =>
    let r := s.srcBytes (.mt j) (ceilDiv n 8)
    ((bytesBits r.1).take n, r.2)
  | .bbs j =>
    let r := drawN bbsStep n s.bbs[j]
    (r.1, s.setBbs j r.2)

/-- `F64(v, w)` (R320): `v / 2^w` in binary64, rounding toward zero, for `v < 2^w` and `w ≤ 64`. With
`e = bitlen(v) - 1` the value is `1.f * 2^(e-w)`, f being the 52 bits of v below bit e. -/
def f64 (v w : Nat) : Word64 :=
  if v = 0 then 0#64
  else
    let e := bitlen v - 1
    let frac := (if e ≤ 52 then v <<< (52 - e) else v >>> (e - 52)) - 2 ^ 52
    BitVec.ofNat 64 ((1023 + e - w) <<< 52 + frac)

/-- One float from an LCG: `LcgW = bitlen(M - 1)` (R311, R315). -/
def lcgFloat (l : Lcg) : Word64 × Lcg :=
  (f64 (lcgStep l).1.toNat (bitlen (l.m.toNat - 1)), (lcgStep l).2)

/-- One float from an MT bank (R315). -/
def mtFloat (b : Mt) : Word64 × Mt := (f64 (mtExtract b).1.toNat 32, (mtExtract b).2)

/-- One float from a BBS instance (R315). -/
def bbsFloat (b : Bbs) : Word64 × Bbs := (f64 (bbsByte b).1.toNat 8, (bbsByte b).2)

/-- n floats from a source (R315). -/
def State.srcFloats (s : State) (src : Src) (n : Nat) : List Word64 × State :=
  match src with
  | .lcg j =>
    let r := drawN lcgFloat n s.lcg[j]
    (r.1, s.setLcg j r.2)
  | .mt j =>
    let r := drawN mtFloat n s.mt[j]
    (r.1, s.setMt j r.2)
  | .bbs j =>
    let r := drawN bbsFloat n s.bbs[j]
    (r.1, s.setBbs j r.2)

/-- SER_BYTES (R313). -/
def execSerBytes (src : Src) (n : Count) (s : State) : Host.Outcome State Fault Refusal :=
  if s.srcValid src = false then raise (.serBytes src n) .notInstantiated s
  else
    let r := s.srcBytes src n.toNat
    finish (.serBytes src n) (packBytes r.1) r.2

/-- SER_BITS (R314). -/
def execSerBits (src : Src) (n : Count) (s : State) : Host.Outcome State Fault Refusal :=
  if s.srcValid src = false then raise (.serBits src n) .notInstantiated s
  else if n = 0#20 then raise (.serBits src n) .invalidParameter s
  else
    let r := s.srcBits src n.toNat
    finish (.serBits src n) (packBits r.1) r.2

/-- SER_FLOAT (R315). -/
def execSerFloat (src : Src) (n : Count) (s : State) : Host.Outcome State Fault Refusal :=
  if s.srcValid src = false then raise (.serFloat src n) .notInstantiated s
  else
    let r := s.srcFloats src n.toNat
    finish (.serFloat src n) (r.1.flatMap wordsOf64) r.2

/-- SER_INT (R316): the draws of a failed command stay made. -/
def execSerInt (src : Src) (a b : Word64) (s : State) : Host.Outcome State Fault Refusal :=
  if s.srcValid src = false then raise (.serInt src a b) .notInstantiated s
  else if b.toInt < a.toInt then raise (.serInt src a b) .invalidParameter s
  else
    let r := boundedInt s.params.rangeMaxAttempts a b (fun k t => .ok (State.srcBits t src k)) s
    match r.1 with
    | .error st => raise (.serInt src a b) st r.2
    | .ok v => finish (.serInt src a b) (wordsOf64 v) r.2

/-- Position-wise XOR of a list of equally long byte strings with `acc` (R317). -/
def xorAll (acc : List Byte) (ss : List (List Byte)) : List Byte :=
  ss.foldl (fun x y => List.zipWith (fun u v => u ^^^ v) x y) acc

/-- SER_XOR (R317). -/
def execSerXor (ss : List (List Byte)) (s : State) : Host.Outcome State Fault Refusal :=
  match ss with
  | [] => raise (.serXor []) .invalidParameter s
  | b :: rest =>
    if (b :: rest).any (tooLong s.params) then raise (.serXor (b :: rest)) .invalidParameter s
    else if rest.any fun y => decide (y.length ≠ b.length) then
      raise (.serXor (b :: rest)) .lengthMismatch s
    else finish (.serXor (b :: rest)) (packBytes (xorAll b rest)) s

end Sys2Proof.Machine
end

