-- ==== Sys2Proof/Machine/Sys.lean ====
section
/-! DEFINITION. The system commands (40_system.md). -/

namespace Sys2Proof.Machine

/-- SYS_NOP (R150). -/
def execSysNop (s : State) : Host.Outcome State Fault Refusal := finish .sysNop [] s

/-- The second word of SYS_INFO (R151): the instance counts and `HMAC_PRE_UPDATE`. -/
def infoCounts (p : Params) : Word :=
  BitVec.ofNat 32 p.lcgNinst ||| BitVec.ofNat 32 p.mtNinst <<< 4 |||
  BitVec.ofNat 32 p.bbsNinst <<< 8 ||| BitVec.ofNat 32 p.drbgNinst <<< 12 |||
  BitVec.ofNat 32 p.hmacPreUpdate.toNat <<< 16

/-- The eight words of SYS_INFO (R151). -/
def infoWords (p : Params) : List Word :=
  [idWord, infoCounts p, BitVec.ofNat 32 p.bbsW, BitVec.ofNat 32 p.maxStrBytes,
    BitVec.ofNat 32 p.rangeMaxAttempts, BitVec.ofNat 32 p.cmdDepth, BitVec.ofNat 32 p.rspDepth,
    BitVec.ofNat 32 p.entDepth]

/-- SYS_INFO (R151). -/
def execSysInfo (s : State) : Host.Outcome State Fault Refusal :=
  finish .sysInfo (infoWords s.params) s

/-- SYS_ECHO (R152). -/
def execSysEcho (ws : List Word) (s : State) : Host.Outcome State Fault Refusal :=
  finish (.sysEcho ws) ws s

end Sys2Proof.Machine
end

