-- ==== Sys2Proof/Machine/Dispatch.lean ====
section
/-! DEFINITION. The dispatch: one arm per command of 30_encoding.md R123. -/

namespace Sys2Proof.Machine

def exec (i : Instr) (s : State) : Host.Outcome State Fault Refusal :=
  match i with
  | .sysNop => Sys2Proof.Machine.execSysNop s
  | .sysInfo => Sys2Proof.Machine.execSysInfo s
  | .sysEcho ws => Sys2Proof.Machine.execSysEcho ws s
  | .lcgInit j seed a c m => Sys2Proof.Machine.execLcgInit j seed a c m s
  | .lcgPreset j preset seed => Sys2Proof.Machine.execLcgPreset j preset seed s
  | .lcgNext j n => Sys2Proof.Machine.execLcgNext j n s
  | .lcgRead j => Sys2Proof.Machine.execLcgRead j s
  | .mtSeed j seed => Sys2Proof.Machine.execMtSeed j seed s
  | .mtExtract j n => Sys2Proof.Machine.execMtExtract j n s
  | .mtTwist j => Sys2Proof.Machine.execMtTwist j s
  | .mtTemper j ys => Sys2Proof.Machine.execMtTemper j ys s
  | .mtUntemper j ys => Sys2Proof.Machine.execMtUntemper j ys s
  | .mtClone j os => Sys2Proof.Machine.execMtClone j os s
  | .mtRead j => Sys2Proof.Machine.execMtRead j s
  | .mtWrite j cur ws => Sys2Proof.Machine.execMtWrite j cur ws s
  | .bbsInit j p q seed => Sys2Proof.Machine.execBbsInit j p q seed s
  | .bbsNextBit j n => Sys2Proof.Machine.execBbsNextBit j n s
  | .bbsRead j => Sys2Proof.Machine.execBbsRead j s
  | .drbgInstantiate j variant e n ps => Sys2Proof.Machine.execDrbgInstantiate j variant e n ps s
  | .drbgGenerate j n a => Sys2Proof.Machine.execDrbgGenerate j n a s
  | .drbgReseed j e a => Sys2Proof.Machine.execDrbgReseed j e a s
  | .drbgGenBits j n => Sys2Proof.Machine.execDrbgGenBits j n s
  | .drbgRandomInt j a b => Sys2Proof.Machine.execDrbgRandomInt j a b s
  | .drbgSetInterval j v => Sys2Proof.Machine.execDrbgSetInterval j v s
  | .drbgRead j => Sys2Proof.Machine.execDrbgRead j s
  | .serBytes src n => Sys2Proof.Machine.execSerBytes src n s
  | .serBits src n => Sys2Proof.Machine.execSerBits src n s
  | .serFloat src n => Sys2Proof.Machine.execSerFloat src n s
  | .serInt src a b => Sys2Proof.Machine.execSerInt src a b s
  | .serXor ss => Sys2Proof.Machine.execSerXor ss s

end Sys2Proof.Machine
end

