-- ==== Sys2Proof/Machine/Bus.lean ====
section
/-! DEFINITION. A host agent's step: one access to the register window (20_memory.md R80 to R88). -/

namespace Sys2Proof.Machine

/-- The byte address of an access on the host's bus (log 13). -/
def Access.addr : Access → Nat
  | .read _ a => a
  | .write _ a _ => a

/-- The width of an access in bits. -/
def Access.bits : Access → Nat
  | .read b _ => b
  | .write b _ _ => b

/-- The byte offset in the window of an address, none outside `[BLOCK_BASE, BLOCK_BASE + 0x20)`
(R82). -/
def windowOffset (p : Params) (addr : Nat) : Option Nat :=
  if p.blockBase ≤ addr ∧ addr < p.blockBase + 0x20 then some (addr - p.blockBase) else none

/-- A write of `v` to CMD (R83): discarded in FAULT or with a fault pending; a CMD overflow if the
FIFO is full; else appended. -/
def State.writeCmd (s : State) (v : Word) : State :=
  if s.faultFlag then s
  else if s.cmdFull then s.raiseFault .cmdOvf v
  else { s with cmd := s.cmd ++ [v] }

/-- A write of `v` to ENT (R84). -/
def State.writeEnt (s : State) (v : Word) : State :=
  if s.entFull then { s with err := { s.err with entOvf := true } }
  else { s with ent := s.ent ++ [v] }

/-- A write of `v` to CTRL (R80, R32, R391). -/
def State.writeCtrl (s : State) (v : Word) : State :=
  if v.getLsbD 0 then s.softReset v else { s with ie := v.getLsbD 1 }

/-- A write of `v` to ERR (R80, R37): 1 clears RSP_UDF and ENT_OVF. -/
def State.writeErr (s : State) (v : Word) : State :=
  { s with err := { s.err with
      rspUdf := s.err.rspUdf && !v.getLsbD 1
      entOvf := s.err.entOvf && !v.getLsbD 2 } }

/-- A read of RSP (R86): the head word, removed; from an empty FIFO 0, and RSP_UDF is set. -/
def State.readRsp (s : State) : Word × State :=
  match s.rsp with
  | [] => (0#32, { s with err := { s.err with rspUdf := true } })
  | w :: rest => (w, { s with rsp := rest })

/-- A 32-bit read at a word offset (R80). -/
def State.readReg (s : State) (off : Nat) : Word × State :=
  match off with
  | 0x00 => (idWord, s)
  | 0x04 => (s.ctrlWord, s)
  | 0x08 => (s.statusWord, s)
  | 0x0C => (0#32, s)
  | 0x10 => s.readRsp
  | 0x14 => (0#32, s)
  | 0x18 => (s.err.word, s)
  | 0x1C => (s.faultInfo, s)
  | _ => (0#32, s)

/-- A 32-bit write at a word offset (R80); ignored at ID, STATUS, RSP and FAULT_INFO. -/
def State.writeReg (s : State) (off : Nat) (v : Word) : State :=
  match off with
  | 0x04 => s.writeCtrl v
  | 0x0C => s.writeCmd v
  | 0x14 => s.writeEnt v
  | 0x18 => s.writeErr v
  | _ => s

/-- The bus gives `r` back. -/
def State.reply (s : State) (r : BusReply) : State := { s with busOut := s.busOut ++ [r] }

/-- One host access. Outside the window the block is not reached (R82). A width other than 32 bits
or a misaligned offset changes no state of the block and gets the bus's error response (R81, R359).
DESIGN CHOICE (log 13): the address that response names is the access's own, `BLOCK_BASE` plus the
offset; R81 does not say which. -/
def busAccess (a : Access) (s : State) : Host.Outcome State Fault Refusal :=
  match windowOffset s.params a.addr with
  | none => .fault (.outsideWindow a.addr)
  | some off =>
    if a.bits = 32 ∧ off % 4 = 0 then
      match a with
      | .read _ _ => .next ((s.readReg off).2.reply (.data (s.readReg off).1))
      | .write _ _ v => .next ((s.writeReg off v).reply .done)
    else .next (s.reply (.error a.addr))

end Sys2Proof.Machine
end

