-- ==== Sys2Proof/Machine/Proc.lean ====
section
/-! DEFINITION. The processor agent's steps (60_exceptions.md R366) and the interleaving of the two
kinds of agent. The Compute step of a command is the argument `run`, which Machine/Step.lean gives
as `exec`. A processor that is not enabled waits: the state stays as it is (20_memory.md R85). -/

namespace Sys2Proof.Machine

/-- A header word `h` has been popped (R366 step 1): an illegal one raises the fault (R352), a legal
one opens its packet. -/
def State.openPacket (s : State) (h : Word) : State :=
  match headerReject s.params h with
  | some _ => s.raiseIllegal h
  | none => { s with mode := .exec, hdr := h, ops := [], phase := .operands }

/-- `ReadHeader` (R366 step 1): with a fault pending FAULT is entered instead of reading a header
(R352). -/
def State.readHeader (s : State) : State :=
  if s.fpend then s.enterFault
  else match s.cmd with
    | [] => s
    | h :: rest => { s with cmd := rest, pc := s.pc + 1 }.openPacket h

/-- `ReadOperand` (R366 step 2). -/
def State.readOperand (s : State) : State :=
  match s.cmd with
  | [] => s
  | w :: rest => { s with cmd := rest, pc := s.pc + 1, ops := s.ops ++ [w] }

/-- A step inside the draw of a seedless BBS_INIT: `ReadEnt` (R366 step 3) while the candidate lacks
words, then its Compute step. -/
def State.drawStep (s : State) (i : Inst) (p q : Nat) (acc : List Word) : State :=
  if acc.length < candidateWords (p * q) then
    match s.ent with
    | [] => s
    | w :: rest => { s with ent := rest, phase := .draw i p q (acc ++ [w]) }
  else s.bbsTryCandidate i p q acc

/-- `WriteResponse` (R366 step 5): one word, with RSP not full; the last one ends the packet. -/
def State.writeResponse (s : State) (written todo : List Word) : State :=
  match todo with
  | [] => s.endPacket
  | w :: rest =>
    if s.rspFull then s
    else match rest with
      | [] => { s with rsp := s.rsp ++ [w] }.endPacket
      | _ :: _ => { s with rsp := s.rsp ++ [w], phase := .response (written ++ [w]) rest }

/-- The processor agent's next step, `run` being the Compute step of a command whose packet is
complete. -/
def procStep (run : Instr → State → Host.Outcome State Fault Refusal) (s : State) :
    Host.Outcome State Fault Refusal :=
  match s.mode with
  | .fault => .next s
  | .idle => .next s.readHeader
  | .exec =>
    match s.phase with
    | .operands =>
      match decode s.params (s.hdr :: s.ops) with
      | .ok i _ => run i s
      | .reject .truncated => .next s.readOperand
      | .reject _ => .next (s.raiseIllegal s.hdr)
    | .draw i p q acc => .next (s.drawStep i p q acc)
    | .response written todo => .next (s.writeResponse written todo)

/-- One step of the whole: the next event at the ports, or the processor's step when the ports are
quiet (R97, R366). -/
def stepWith (run : Instr → State → Host.Outcome State Fault Refusal) (s : State) :
    Host.Outcome State Fault Refusal :=
  match s.bus with
  | [] => procStep run s
  | .quiet :: rest => procStep run { s with bus := rest }
  | .access a :: rest => busAccess a { s with bus := rest }
  | .hardReset :: rest => .next { s with bus := rest }.hardReset

/-- The state with the packet `ws` read and about to be computed, at a quiet port (log 5). -/
def State.withPacket (s : State) (ws : List Word) : State :=
  match ws with
  | [] => s
  | h :: ops =>
    { s with mode := .exec, hdr := h, ops := ops, phase := .operands,
             pc := s.pc + ws.length, bus := [] }

end Sys2Proof.Machine
end

