-- ==== Sys2Proof/Machine/Step.lean ====
section
/-! DEFINITION. The step: Machine/Proc.lean's, with `exec` as the Compute step; and the state in which
the very next step runs an instruction given by its bits. -/

namespace Sys2Proof.Machine

/-- One step of the machine (60_exceptions.md R366). -/
def step (s : State) : Host.Outcome State Fault Refusal := stepWith exec s

/-- `s` with the instruction whose first `nbits` bits are `w` read and complete, so that the next step
is its Compute step (log 5). -/
def State.withFetchWord (s : State) (nbits w : Nat) : State :=
  s.withPacket (packetOfBits s.params nbits w)

end Sys2Proof.Machine
end

