-- ==== Sys2Proof/Safety.lean ====
section
/-! DEFINITION. The terms claims are made in: the legal states of each piece of state (10_state.md R39
to R53) and the invariant they form; what of a state belongs to the engines, to the command
processor and to the host's side; the sequences that the engines' closed forms speak of. -/

namespace Sys2Proof.Machine

/-! ## Legal values -/

/-- The legal values of an LCG instance while VALID = 1 (R43). -/
def Lcg.Legal (l : Lcg) : Prop :=
  l.valid = true → (1 ≤ l.m.toNat ∧ l.m.toNat ≤ 2 ^ 64) ∧ l.value.toNat < l.m.toNat

/-- The cursor's invariant (R45). -/
def Mt.Legal (b : Mt) : Prop := b.cur.toNat ≤ 624

/-- The legal values of a BBS instance of width `w` while VALID = 1 (R48, R49). -/
def Bbs.Legal (w : Nat) (b : Bbs) : Prop :=
  b.valid = true →
    (b.p % 4 = 3 ∧ b.q % 4 = 3 ∧ b.p ≠ b.q) ∧ (b.p < 2 ^ (w / 2) ∧ b.q < 2 ^ (w / 2)) ∧
    b.n = b.p * b.q ∧ b.x < b.n ∧ Nat.gcd b.x b.n = 1

/-- The legal values of a DRBG instance (R50 to R52, R265, R266). -/
def Drbg.Legal (d : Drbg) : Prop :=
  (1 ≤ d.interval.toNat ∧ d.interval.toNat ≤ 2 ^ 31) ∧ d.ctr.toNat ≤ 2 ^ 31 + 1 ∧
  (d.inst = true → 1 ≤ d.ctr.toNat) ∧ (d.inst = false → d.ctr = 0) ∧
  (d.variant = .hmac → ∀ j : Fin 55, 32 ≤ j.val → d.v[j] = 0#8 ∧ d.k[j] = 0#8)

/-! ## The invariant -/

/-- What holds of every state the machine reaches (R37 to R53). -/
structure Inv (s : State) : Prop where
  /-- The parameters have legal values (00_scope.md R10). -/
  params : s.params.Legal
  /-- No FIFO holds more than its capacity (R41). -/
  cmdBound : s.cmd.length ≤ s.params.cmdDepth
  /-- R41. -/
  rspBound : s.rsp.length ≤ s.params.rspDepth
  /-- R41. -/
  entBound : s.ent.length ≤ s.params.entDepth
  /-- R43. -/
  lcg : ∀ i : Inst, s.lcg[i].Legal
  /-- R45. -/
  mt : ∀ i : Inst, s.mt[i].Legal
  /-- R48, R49. -/
  bbs : ∀ i : Inst, s.bbs[i].Legal s.params.bbsW
  /-- R50 to R52. -/
  drbg : ∀ i : Inst, s.drbg[i].Legal
  /-- An index at or above the instance count is never initialised (R43, R44, R48, R50). -/
  absent : ∀ i : Inst,
    (s.params.lcgNinst ≤ i.val → s.lcg[i] = Lcg.reset) ∧
    (s.params.mtNinst ≤ i.val → s.mt[i].valid = false) ∧
    (s.params.bbsNinst ≤ i.val → s.bbs[i] = Bbs.reset) ∧
    (s.params.drbgNinst ≤ i.val → s.drbg[i] = Drbg.reset)
  /-- Outside a packet the EXEC sub-state is empty (R40). -/
  quiet : s.mode ≠ .exec → s.hdr = 0#32 ∧ s.ops = [] ∧ s.phase = .operands
  /-- In FAULT no fault is pending and the CMD FIFO is empty (60_exceptions.md R352). -/
  halted : s.mode = .fault → s.fpend = false ∧ s.cmd = []
  /-- STATUS.FAULT reads 1 exactly when an ERR bit names a fault's cause (R37, R352, R355). -/
  cause : s.faultFlag = (s.err.illegal || s.err.cmdOvf)
  /-- Only one fault is ever recorded (60_exceptions.md R357). -/
  oneFault : (s.err.illegal && s.err.cmdOvf) = false
  /-- Inside a packet whose operands are read the header is legal (30_encoding.md R122). -/
  header : s.mode = .exec → s.phase = .operands → headerReject s.params s.hdr = none
  /-- In a draw the factors have passed the checks of 43_bbs.md R231 and fit their width, and the
  instance exists. -/
  drawing : ∀ i p q acc, s.phase = .draw i p q acc →
    bbsParamsOk p q = true ∧ p < 2 ^ (s.params.bbsW / 2) ∧ q < 2 ^ (s.params.bbsW / 2) ∧
    i.val < s.params.bbsNinst ∧ acc.length ≤ candidateWords (p * q)
  /-- A response being written has words left to write (R40). -/
  responding : ∀ written todo, s.phase = .response written todo → todo ≠ []

/-! ## Parts of a state -/

/-- The engine registers of two states are the same (R42 to R53). -/
def State.sameEngines (s t : State) : Prop :=
  t.lcg = s.lcg ∧ t.mt = s.mt ∧ t.bbs = s.bbs ∧ t.drbg = s.drbg

/-- The command processor stands at the same place: mode, packet, position (R39, R40). -/
def State.sameProcessor (s t : State) : Prop :=
  t.mode = s.mode ∧ t.hdr = s.hdr ∧ t.ops = s.ops ∧ t.phase = s.phase ∧ t.pc = s.pc

/-- The FIFOs and the host's registers are the same (R32, R37, R38, R41), and so are FPEND, the
parameters and the ports. -/
def State.sameHostSide (s t : State) : Prop :=
  t.params = s.params ∧ t.cmd = s.cmd ∧ t.rsp = s.rsp ∧ t.ent = s.ent ∧ t.ie = s.ie ∧
  t.err = s.err ∧ t.faultInfo = s.faultInfo ∧ t.fpend = s.fpend ∧ t.bus = s.bus ∧
  t.busOut = s.busOut

/-- The data words of the response that stands ready, without its header and LEN. -/
def State.responseData (s : State) : List Word :=
  match s.phase with
  | .response _ todo => todo.drop 2
  | .operands => []
  | .draw _ _ _ _ => []

/-- The STATUS field of the response that stands ready or is being written (R119). -/
def State.responseStatus (s : State) : Option Byte :=
  match s.phase with
  | .response written todo => ((written ++ todo).head?).map fun hdr => hdr.extractLsb' 0 8
  | .operands => none
  | .draw _ _ _ _ => none

/-- The response header word `{ENG, OP, INST, 12'b0, STATUS}` (30_encoding.md R119), from its fields. -/
def responseHeader (eng op inst : BitVec 4) (status : Byte) : Word :=
  header eng op inst (status.setWidth 20)

/-- `s` at the end of a Compute step (60_exceptions.md R366): the response with the header word `hdr`
and the data words `data` stands ready, LEN being their number (R119), and nothing of it is written. -/
def State.answered (s : State) (hdr : Word) (data : List Word) : State :=
  { s with mode := .exec, phase := .response [] (hdr :: BitVec.ofNat 32 data.length :: data) }

/-- Two states that differ at most in words no command can read: the word arrays of banks that are not
valid, and what a hard reset puts there (10_state.md R46, R47). -/
def State.sameButUnseenWords (s t : State) : Prop :=
  t = { s with mt := t.mt, params := { s.params with mtRamInit := t.params.mtRamInit } } ∧
  ∀ i : Inst, t.mt[i].valid = s.mt[i].valid ∧ t.mt[i].cur = s.mt[i].cur ∧
    (s.mt[i].valid = true → t.mt[i].w = s.mt[i].w)

/-- The access that performs the soft reset: a 32-bit write of CTRL with bit 0 set (R32, R391). -/
def isSoftReset (p : Params) (a : Access) : Prop :=
  ∃ v : Word, a = .write 32 (p.blockBase + 0x04) v ∧ v.getLsbD 0 = true

/-- The next event at the ports is a reset (R390, R391). -/
def State.resetNext (s : State) : Prop :=
  ∃ rest, s.bus = .hardReset :: rest ∨ ∃ a, s.bus = .access a :: rest ∧ isSoftReset s.params a

/-- The next step is the processor's, and `later` is then still to happen at the ports: a quiet event
heads the list, or the list is empty (60_exceptions.md R366, log 1). -/
def State.quietThen (s : State) (later : List BusEvent) : Prop :=
  s.bus = .quiet :: later ∨ (s.bus = [] ∧ later = [])

/-! ## What a command may write and answer -/

/-- An engine instance. -/
inductive Target where
  /-- `LCG[i]`. -/
  | lcg (i : Inst)
  /-- `MT[i]`. -/
  | mt (i : Inst)
  /-- `BBS[i]`. -/
  | bbs (i : Inst)
  /-- `DRBG[i]`. -/
  | drbg (i : Inst)
deriving DecidableEq, Repr

/-- The instance a source draws from (45_serializer.md R311). -/
def targetOf : Src → Target
  | .lcg j => .lcg j
  | .mt j => .mt j
  | .bbs j => .bbs j

/-- The engine instance a command's Compute step may write, none where it writes no engine. The
seedless BBS_INIT writes its instance in the last step of its draw only (60_exceptions.md R366). -/
def writes : Instr → Option Target
  | .sysNop => none
  | .sysInfo => none
  | .sysEcho _ => none
  | .lcgInit i _ _ _ _ => some (.lcg i)
  | .lcgPreset i _ _ => some (.lcg i)
  | .lcgNext i _ => some (.lcg i)
  | .lcgRead _ => none
  | .mtSeed i _ => some (.mt i)
  | .mtExtract i _ => some (.mt i)
  | .mtTwist i => some (.mt i)
  | .mtTemper _ _ => none
  | .mtUntemper _ _ => none
  | .mtClone i _ => some (.mt i)
  | .mtRead _ => none
  | .mtWrite i _ _ => some (.mt i)
  | .bbsInit i _ _ seed => if seed.isSome then some (.bbs i) else none
  | .bbsNextBit i _ => some (.bbs i)
  | .bbsRead _ => none
  | .drbgInstantiate i _ _ _ _ => some (.drbg i)
  | .drbgGenerate i _ _ => some (.drbg i)
  | .drbgReseed i _ _ => some (.drbg i)
  | .drbgGenBits i _ => some (.drbg i)
  | .drbgRandomInt i _ _ => some (.drbg i)
  | .drbgSetInterval i _ => some (.drbg i)
  | .drbgRead _ => none
  | .serBytes src _ => some (targetOf src)
  | .serBits src _ => some (targetOf src)
  | .serFloat src _ => some (targetOf src)
  | .serInt src _ _ => some (targetOf src)
  | .serXor _ => none

/-- The statuses other than OK a command can return, in check order: the table of 60_exceptions.md
R351. -/
def failures : Instr → List Status
  | .sysNop => []
  | .sysInfo => []
  | .sysEcho _ => []
  | .lcgInit _ _ _ _ _ => [.invalidParameter]
  | .lcgPreset _ _ _ => [.invalidParameter]
  | .lcgNext _ _ => [.notInstantiated]
  | .lcgRead _ => []
  | .mtSeed _ _ => []
  | .mtExtract _ _ => [.notInstantiated]
  | .mtTwist _ => [.notInstantiated]
  | .mtTemper _ _ => []
  | .mtUntemper _ _ => []
  | .mtClone _ _ => [.insufficientData, .invalidParameter]
  | .mtRead _ => [.notInstantiated]
  | .mtWrite _ _ _ => [.invalidParameter]
  | .bbsInit _ _ _ _ => [.invalidParameter, .invalidSeed]
  | .bbsNextBit _ _ => [.notInstantiated]
  | .bbsRead _ => []
  | .drbgInstantiate _ _ _ _ _ => [.invalidParameter]
  | .drbgGenerate _ _ _ => [.notInstantiated, .invalidParameter, .reseedRequired]
  | .drbgReseed _ _ _ => [.invalidParameter]
  | .drbgGenBits _ _ => [.notInstantiated, .invalidParameter, .reseedRequired]
  | .drbgRandomInt _ _ _ =>
      [.notInstantiated, .invalidParameter, .reseedRequired, .rangeGenerationFailed]
  | .drbgSetInterval _ _ => [.invalidParameter]
  | .drbgRead _ => []
  | .serBytes _ _ => [.notInstantiated]
  | .serBits _ _ => [.notInstantiated, .invalidParameter]
  | .serFloat _ _ => [.notInstantiated]
  | .serInt _ _ _ => [.notInstantiated, .invalidParameter, .rangeGenerationFailed]
  | .serXor _ => [.invalidParameter, .lengthMismatch]

/-- The number of data words of a command that answers OK: the column of 30_encoding.md R123. -/
def okDataLength (s : State) : Instr → Nat
  | .sysNop => 0
  | .sysInfo => 8
  | .sysEcho ws => ws.length
  | .lcgInit _ _ _ _ _ => 0
  | .lcgPreset _ _ _ => 0
  | .lcgNext _ n => 2 * n.toNat
  | .lcgRead _ => 10
  | .mtSeed _ _ => 0
  | .mtExtract _ n => n.toNat
  | .mtTwist _ => 0
  | .mtTemper _ ys => ys.length
  | .mtUntemper _ ys => ys.length
  | .mtClone _ _ => 0
  | .mtRead _ => 625
  | .mtWrite _ _ _ => 0
  | .bbsInit _ _ _ _ => 0
  | .bbsNextBit _ n => ceilDiv n.toNat 32
  | .bbsRead _ => 1 + 2 * (s.params.bbsW / 32) + 2 * (s.params.bbsW / 64)
  | .drbgInstantiate _ _ _ _ _ => 0
  | .drbgGenerate _ n _ => ceilDiv n.toNat 4
  | .drbgReseed _ _ _ => 0
  | .drbgGenBits _ n => ceilDiv n.toNat 32
  | .drbgRandomInt _ _ _ => 2
  | .drbgSetInterval _ _ => 0
  | .drbgRead i => match s.drbg[i].variant with
    | .hmac => 19
    | .hash => 31
  | .serBytes _ n => ceilDiv n.toNat 4
  | .serBits _ n => ceilDiv n.toNat 32
  | .serFloat _ n => 2 * n.toNat
  | .serInt _ _ _ => 2
  | .serXor ss => ceilDiv (ss.headD []).length 4

/-- The two commands whose failed attempts stay made (60_exceptions.md R356). -/
def keepsFailedDraws : Instr → Bool
  | .drbgRandomInt _ _ _ => true
  | .serInt _ _ _ => true
  | _ => false

/-! ## Sequences -/

/-- The LCG sequence: term k is the value after k steps of the recurrence, over the integers
(41_lcg.md R164). -/
def lcgTerm (a c m v : Nat) : Nat → Nat
  | 0 => v
  | k + 1 => (a * lcgTerm a c m v k + c) % m

/-- The bits of `n` modular squarings of `x` modulo `m`: bit t is that of `x^(2^(t+1)) mod m`
(43_bbs.md R235). -/
def squaringBits (x m n : Nat) : List Bool :=
  (List.range n).map fun t => decide (x ^ 2 ^ (t + 1) % m % 2 = 1)

/-- The `n` values after an LCG's present one, as integers (41_lcg.md R162, R164). -/
def Lcg.outputs (l : Lcg) (n : Nat) : List Nat :=
  (List.range n).map fun k => lcgTerm l.a.toNat l.c.toNat l.m.toNat l.value.toNat (k + 1)

/-- An LCG after `n` steps (R164). -/
def Lcg.after (l : Lcg) (n : Nat) : Lcg :=
  { l with value := BitVec.ofNat 64 (lcgTerm l.a.toNat l.c.toNat l.m.toNat l.value.toNat n) }

/-- 624 consecutive terms `x(t), …` of the sequence that obeys
`x(t+624) = x(t+397) ^ f((x(t) & 0x80000000) | (x(t+1) & 0x7FFFFFFF))` (42_mt19937.md R205), moved on by
one term. -/
def mtShift (x : Vector Word 624) : Vector Word 624 :=
  let y := (x[0] &&& 0x80000000#32) ||| (x[1] &&& 0x7FFFFFFF#32)
  let f := if y.getLsbD 0 then (y >>> 1) ^^^ 0x9908B0DF#32 else y >>> 1
  Vector.ofFn fun j : Fin 624 => if h : j.val < 623 then x[j.val + 1] else x[397] ^^^ f

/-- The 624 terms from term `t` on of the sequence that starts with the words `w`. -/
def mtWindow (w : Vector Word 624) : Nat → Vector Word 624
  | 0 => w
  | t + 1 => mtShift (mtWindow w t)

/-- Term `t` of that sequence. -/
def mtTerm (w : Vector Word 624) (t : Nat) : Word := (mtWindow w t)[0]

/-- The `n` next outputs of a bank: the tempered terms from the cursor on (R199, R205). -/
def Mt.outputs (b : Mt) (n : Nat) : List Word :=
  (List.range n).map fun k => temper (mtTerm b.w (b.cur.toNat + k))

/-- A bank after `n` outputs: a cursor of 624 stays until the next output, so the last one came from
position `cur + n - 1` and each 624 positions are one twist (R199). -/
def Mt.after (b : Mt) (n : Nat) : Mt :=
  if n = 0 then b
  else { b with
    w := mtWindow b.w (624 * ((b.cur.toNat + n - 1) / 624))
    cur := BitVec.ofNat 10 ((b.cur.toNat + n - 1) % 624 + 1) }

/-- A BBS instance after `n` squarings (43_bbs.md R235), for `X < N`. -/
def Bbs.after (b : Bbs) (n : Nat) : Bbs := { b with x := b.x ^ 2 ^ n % b.n }

/-- The integer in the first `k` bits of data words packed by 20_memory.md R92, the first bit most
significant (44_drbg.md R276). -/
def leadingBits (k : Nat) (data : List Word) : Nat := natOfWords data >>> (32 * data.length - k)

/-- Key and V after the HMAC variant's update with provided data (44_drbg.md R267), as the four
assignments stand there. -/
def updatedKeyV (key v : Vector Byte 32) (data : List Byte) : Vector Byte 32 × Vector Byte 32 :=
  let k1 := Config.hmac key (v.toList ++ [0x00#8] ++ data)
  let v1 := Config.hmac k1 v.toList
  let k2 := Config.hmac k1 (v1.toList ++ [0x01#8] ++ data)
  let v2 := Config.hmac k2 v1.toList
  if data = [] then (k1, v1) else (k2, v2)

/-- Term k of the chain `V <- HMAC(Key, V)` (44_drbg.md R269). -/
def hmacChain (key v : Vector Byte 32) : Nat → Vector Byte 32
  | 0 => v
  | k + 1 => Config.hmac key (hmacChain key v k).toList

/-- The 55 bytes of `HashDf(m, 55)`: two blocks with the length field 0x000001B8, 32 + 23 bytes
(44_drbg.md R268). -/
def hashDfBytes (m : List Byte) : List Byte :=
  (Config.hash ([0x01#8, 0x00#8, 0x00#8, 0x01#8, 0xB8#8] ++ m)).toList ++
  (Config.hash ([0x02#8, 0x00#8, 0x00#8, 0x01#8, 0xB8#8] ++ m)).toList.take 23

/-- `n` Generates of `len` bytes with no additional input, one after the other, each answering OK;
none as soon as one does not. -/
def generateTimes (i : Inst) (len : Count) : Nat → State → Option State
  | 0, s => some s
  | n + 1, s =>
    match exec (.drbgGenerate i len []) s with
    | .next t =>
      if t.responseStatus = some 0x00#8 then generateTimes i len n t else none
    | .fault _ => none
    | .refused _ => none

/-! ## Safe runs -/

/-- A step that does not stop the machine. -/
def goesOn (o : Host.Outcome State Fault Refusal) : Prop := ∃ t, o = .next t

/-- A host that keeps to the window (20_memory.md R82): no access of it reaches an address the block
does not decode. -/
def keepsToWindow (p : Params) (e : BusEvent) : Prop :=
  match e with
  | .access a => windowOffset p a.addr ≠ none
  | .quiet => True
  | .hardReset => True

end Sys2Proof.Machine
end

