-- ==== Sys2Proof/Certificates/Slice0/Obligations.lean ====
section
/-! DEFINITION. The statements for the provers, in the order of OBLIGATIONS.json: the commands engine by
engine (40_system.md to 45_serializer.md), then the encoding, the processor and the host's side. In a
statement about a command, `s.answered hdr data` is the whole next state but for the engine registers
named beside it, so the equation says the result, the response and everything left unchanged; the
response header is built from the command (log 8). Where a statement rests on a choice of the model
(the ports as the lists `bus` and `busOut`, log 1; `withFetchWord`, log 5; when a pending fault is entered, log 6; the steps of a seedless draw, log 7; what the sub-state holds outside
a packet, log 8; the address a bus error names, log 13), its docstring names the log entry. -/

open Sys2Proof Sys2Proof.Machine

/-! ## System commands -/

/-- R150 to R152: the three system commands, their packets and their responses, from every state. -/
def Obligations.SystemCommandsAnswer : Prop :=
  ∀ s : State,
    (encode s.params .sysNop = [0x00000000#32] ∧
      exec .sysNop s = .next (s.answered 0x00000000#32 [])) ∧
    (encode s.params .sysInfo = [0x01000000#32] ∧
      (s.params.Legal →
        exec .sysInfo s = .next (s.answered 0x01000000#32
          [0x54585207#32,
            BitVec.ofNat 32 (s.params.lcgNinst + s.params.mtNinst * 2 ^ 4 + s.params.bbsNinst * 2 ^ 8 +
              s.params.drbgNinst * 2 ^ 12 + s.params.hmacPreUpdate.toNat * 2 ^ 16),
            BitVec.ofNat 32 s.params.bbsW, BitVec.ofNat 32 s.params.maxStrBytes,
            BitVec.ofNat 32 s.params.rangeMaxAttempts, BitVec.ofNat 32 s.params.cmdDepth,
            BitVec.ofNat 32 s.params.rspDepth, BitVec.ofNat 32 s.params.entDepth]))) ∧
    (∀ ws : List Word, ws.length < 2 ^ 20 →
      encode s.params (.sysEcho ws) = (0x02000000#32 ||| BitVec.ofNat 32 ws.length) :: ws ∧
      exec (.sysEcho ws) s = .next (s.answered 0x02000000#32 ws))

/-! ## LCG -/

/-- R160: LCG_INIT. A modulus of 0 or above 2^64 is InvalidParameter; else the instance is replaced,
the seed reduced modulo m. -/
def Obligations.LcgInitResult : Prop :=
  ∀ (s : State) (i : Inst) (seed a c : Word64) (m : BitVec 96),
    encode s.params (.lcgInit i seed a c m) =
      (0x10000000#32 ||| BitVec.ofNat 32 i.val <<< 20) ::
        (wordsOf64 seed ++ wordsOf64 a ++ wordsOf64 c ++
          [m.extractLsb' 64 32, m.extractLsb' 32 32, m.extractLsb' 0 32]) ∧
    (m.toNat = 0 ∨ 2 ^ 64 < m.toNat →
      exec (.lcgInit i seed a c m) s =
        .next (s.answered (responseHeader 1 0 (instNibble i) 0x01#8) [])) ∧
    (0 < m.toNat ∧ m.toNat ≤ 2 ^ 64 →
      let new : Lcg :=
        { valid := true, value := BitVec.ofNat 64 (seed.toNat % m.toNat), a := a, c := c,
          m := BitVec.ofNat 65 m.toNat }
      exec (.lcgInit i seed a c m) s =
        .next ({ s with lcg := s.lcg.set i new }.answered (responseHeader 1 0 (instNibble i) 0x00#8) []))

/-- R161: LCG_PRESET with the three presets, and InvalidParameter for PRESET 3 to 15. The RANDU and MMIX
numbers are those the rule itself marks as general knowledge (log 11). -/
def Obligations.LcgPresetResult : Prop :=
  ∀ (s : State) (i : Inst) (seed : Word64),
    (∀ preset : BitVec 4,
      encode s.params (.lcgPreset i preset seed) =
        (0x11000000#32 ||| BitVec.ofNat 32 i.val <<< 20 ||| preset.setWidth 32) :: wordsOf64 seed ∧
      (3 ≤ preset.toNat →
        exec (.lcgPreset i preset seed) s =
          .next (s.answered (responseHeader 1 1 (instNibble i) 0x01#8) []))) ∧
    (∀ row ∈ [((0 : Nat), (1103515245 : Nat), (12345 : Nat), (2 ^ 31 : Nat)), (1, 65539, 0, 2 ^ 31),
        (2, 6364136223846793005, 1442695040888963407, 2 ^ 64)],
      let new : Lcg :=
        { valid := true, value := BitVec.ofNat 64 (seed.toNat % row.2.2.2),
          a := BitVec.ofNat 64 row.2.1, c := BitVec.ofNat 64 row.2.2.1, m := BitVec.ofNat 65 row.2.2.2 }
      exec (.lcgPreset i (BitVec.ofNat 4 row.1) seed) s =
        .next ({ s with lcg := s.lcg.set i new }.answered (responseHeader 1 1 (instNibble i) 0x00#8) []))

/-- R162 and R164: LCG_NEXT in closed form. Its n values are the next n terms of
`v(k+1) = (a·v(k) + c) mod m` over the integers, each as two words, and VALUE is the last of them. -/
def Obligations.LcgNextResult : Prop :=
  ∀ (s : State) (i : Inst) (n : Count),
    encode s.params (.lcgNext i n) =
      [0x12000000#32 ||| BitVec.ofNat 32 i.val <<< 20 ||| n.setWidth 32] ∧
    (s.lcg[i].valid = false →
      exec (.lcgNext i n) s = .next (s.answered (responseHeader 1 2 (instNibble i) 0x08#8) [])) ∧
    (s.lcg[i].valid = true → s.lcg[i].Legal →
      exec (.lcgNext i n) s =
        .next ({ s with lcg := s.lcg.set i (s.lcg[i].after n.toNat) }.answered
          (responseHeader 1 2 (instNibble i) 0x00#8)
          ((s.lcg[i].outputs n.toNat).flatMap fun v =>
            [BitVec.ofNat 32 (v / 2 ^ 32), BitVec.ofNat 32 v])))

/-- R165: every value LCG_NEXT returns is below M, and two instances with the same VALUE, A, C and M
give the same values and are left with the same state. -/
def Obligations.LcgRangeLaw : Prop :=
  ∀ (s t : State) (i j : Inst) (n : Count),
    s.lcg[i].valid = true → s.lcg[i].Legal →
    ∃ s', exec (.lcgNext i n) s = .next s' ∧
      (∀ k, k < n.toNat →
        natOfWords ((s'.responseData.drop (2 * k)).take 2) < s.lcg[i].m.toNat) ∧
      (t.lcg[j] = s.lcg[i] →
        ∃ t', exec (.lcgNext j n) t = .next t' ∧ t'.responseData = s'.responseData ∧
          t'.lcg[j] = s'.lcg[i])

/-- R163: LCG_READ returns the ten words of the instance, also while VALID = 0; after reset all are 0. -/
def Obligations.LcgReadResult : Prop :=
  ∀ (s : State) (i : Inst),
    encode s.params (.lcgRead i) = [0x13000000#32 ||| BitVec.ofNat 32 i.val <<< 20] ∧
    exec (.lcgRead i) s = .next (s.answered (responseHeader 1 3 (instNibble i) 0x00#8)
      ((if s.lcg[i].valid then 1#32 else 0#32) ::
        (wordsOf64 s.lcg[i].value ++ wordsOf64 s.lcg[i].a ++ wordsOf64 s.lcg[i].c ++
          [BitVec.ofNat 32 (s.lcg[i].m.toNat / 2 ^ 64), BitVec.ofNat 32 (s.lcg[i].m.toNat / 2 ^ 32),
            BitVec.ofNat 32 s.lcg[i].m.toNat]))) ∧
    (s.lcg[i] = Lcg.reset →
      exec (.lcgRead i) s = .next (s.answered (responseHeader 1 3 (instNibble i) 0x00#8)
        (List.replicate 10 0#32)))

/-! ## MT19937 -/

/-- R190 and R191: MT_SEED fills word 0 with the seed and each later word from the one before it, and
leaves the cursor at 624. -/
def Obligations.MtSeedFill : Prop :=
  ∀ (s : State) (i : Inst) (seed : Word),
    encode s.params (.mtSeed i seed) = [0x20000000#32 ||| BitVec.ofNat 32 i.val <<< 20, seed] ∧
    ∃ w : Vector Word 624,
      w[0] = seed ∧
      (∀ (k : Nat) (_ : k + 1 < 624),
        w[k + 1] = 1812433253#32 * (w[k] ^^^ (w[k] >>> 30)) + BitVec.ofNat 32 (k + 1)) ∧
      exec (.mtSeed i seed) s =
        .next ({ s with mt := s.mt.set i { valid := true, w := w, cur := 624#10 } }.answered
          (responseHeader 2 0 (instNibble i) 0x00#8) [])

/-- R192 and R195: MT_TWIST. Word k of the new array is the word 397 places on, old below the wrap and
new beyond it, XORed with the shifted combination of word k and the word after it, which is the new
word 0 for k = 623. -/
def Obligations.MtTwistInPlace : Prop :=
  ∀ (s : State) (i : Inst),
    encode s.params (.mtTwist i) = [0x22000000#32 ||| BitVec.ofNat 32 i.val <<< 20] ∧
    (s.mt[i].valid = false →
      exec (.mtTwist i) s = .next (s.answered (responseHeader 2 2 (instNibble i) 0x08#8) [])) ∧
    (s.mt[i].valid = true →
      ∃ w : Vector Word 624,
        (∀ (k : Nat) (hk : k < 624),
          let next : Word := if h : k < 623 then (s.mt[i].w)[k + 1]'(by omega) else w[0]
          let far : Word := if h : k < 227 then (s.mt[i].w)[k + 397]'(by omega)
            else w[k - 227]'(by omega)
          let y := ((s.mt[i].w)[k] &&& 0x80000000#32) ||| (next &&& 0x7FFFFFFF#32)
          w[k] = far ^^^ (if y.getLsbD 0 then (y >>> 1) ^^^ 0x9908B0DF#32 else y >>> 1)) ∧
        exec (.mtTwist i) s =
          .next ({ s with mt := s.mt.set i { s.mt[i] with w := w, cur := 0#10 } }.answered
            (responseHeader 2 2 (instNibble i) 0x00#8) []))

/-- R194 and R199 in closed form: the n outputs of MT_EXTRACT are the tempered terms, from the cursor
on, of the sequence that the array starts and the recurrence of R205 continues, across any number of
twists. -/
def Obligations.MtExtractResult : Prop :=
  ∀ (s : State) (i : Inst) (n : Count),
    encode s.params (.mtExtract i n) =
      [0x21000000#32 ||| BitVec.ofNat 32 i.val <<< 20 ||| n.setWidth 32] ∧
    (s.mt[i].valid = false →
      exec (.mtExtract i n) s = .next (s.answered (responseHeader 2 1 (instNibble i) 0x08#8) [])) ∧
    (s.mt[i].valid = true → s.mt[i].Legal →
      exec (.mtExtract i n) s =
        .next ({ s with mt := s.mt.set i (s.mt[i].after n.toNat) }.answered
          (responseHeader 2 1 (instNibble i) 0x00#8) (s.mt[i].outputs n.toNat)))

/-- R193, R196, R197 and R198: MT_TEMPER and MT_UNTEMPER map the four steps, and their inverses with
the pass counts of R198, over the operand words; they work for every state of the bank. -/
def Obligations.MtTemperResults : Prop :=
  ∀ (s : State) (i : Inst) (ys : List Word), ys.length < 2 ^ 20 →
    (encode s.params (.mtTemper i ys) =
        (0x23000000#32 ||| BitVec.ofNat 32 i.val <<< 20 ||| BitVec.ofNat 32 ys.length) :: ys ∧
      exec (.mtTemper i ys) s = .next (s.answered (responseHeader 2 3 (instNibble i) 0x00#8)
        (ys.map fun y : Word =>
          let y1 := y ^^^ (y >>> 11)
          let y2 := y1 ^^^ ((y1 <<< 7) &&& 0x9D2C5680#32)
          let y3 := y2 ^^^ ((y2 <<< 15) &&& 0xEFC60000#32)
          y3 ^^^ (y3 >>> 18)))) ∧
    (encode s.params (.mtUntemper i ys) =
        (0x24000000#32 ||| BitVec.ofNat 32 i.val <<< 20 ||| BitVec.ofNat 32 ys.length) :: ys ∧
      exec (.mtUntemper i ys) s = .next (s.answered (responseHeader 2 4 (instNibble i) 0x00#8)
        (ys.map fun y : Word =>
          let y1 := y ^^^ (y >>> 18)
          let y2 := y1 ^^^ ((y1 <<< 15) &&& 0xEFC60000#32)
          let y3 := Nat.iterate (fun x : Word => y2 ^^^ ((x <<< 7) &&& 0x9D2C5680#32)) 4 y2
          Nat.iterate (fun x : Word => y3 ^^^ (x >>> 11)) 2 y3)))

/-- R200: Untemper and Temper are inverse to each other, and neither is its own inverse. -/
def Obligations.UntemperInvertsTemper : Prop :=
  (∀ x : Word, untemper (temper x) = x) ∧ (∀ y : Word, temper (untemper y) = y) ∧
  temper 0x00000001#32 = 0x00400091#32 ∧ untemper 0x00000001#32 = 0x102244C9#32 ∧
  temper (temper 0x00000001#32) ≠ 0x00000001#32

/-- R201: MT_CLONE takes exactly 624 outputs, untempers them into the bank and sets the cursor to 624;
fewer are InsufficientData, more InvalidParameter. -/
def Obligations.MtCloneResult : Prop :=
  ∀ (s : State) (i : Inst) (os : List Word), os.length < 2 ^ 20 →
    encode s.params (.mtClone i os) =
      (0x25000000#32 ||| BitVec.ofNat 32 i.val <<< 20 ||| BitVec.ofNat 32 os.length) :: os ∧
    (os.length < 624 →
      exec (.mtClone i os) s = .next (s.answered (responseHeader 2 5 (instNibble i) 0x06#8) [])) ∧
    (624 < os.length →
      exec (.mtClone i os) s = .next (s.answered (responseHeader 2 5 (instNibble i) 0x01#8) [])) ∧
    (∀ h : os.length = 624,
      let new : Mt :=
        { valid := true, w := Vector.ofFn fun k => untemper (os[k.val]'(by omega)), cur := 624#10 }
      exec (.mtClone i os) s =
        .next ({ s with mt := s.mt.set i new }.answered (responseHeader 2 5 (instNibble i) 0x00#8) []))

/-- R202 and R203: MT_READ returns the cursor and the raw words of a valid bank and changes nothing;
MT_WRITE loads a cursor up to 624 and the words, and refuses a larger cursor. MT_WRITE of what MT_READ
returned restores the bank exactly. -/
def Obligations.MtReadWriteResults : Prop :=
  ∀ (s t : State) (i j : Inst) (cur : Word) (ws : Vector Word 624),
    encode s.params (.mtRead i) = [0x26000000#32 ||| BitVec.ofNat 32 i.val <<< 20] ∧
    encode s.params (.mtWrite i cur ws) =
      (0x27000000#32 ||| BitVec.ofNat 32 i.val <<< 20) :: cur :: ws.toList ∧
    (s.mt[i].valid = false →
      exec (.mtRead i) s = .next (s.answered (responseHeader 2 6 (instNibble i) 0x08#8) [])) ∧
    (s.mt[i].valid = true →
      exec (.mtRead i) s = .next (s.answered (responseHeader 2 6 (instNibble i) 0x00#8)
        (BitVec.ofNat 32 s.mt[i].cur.toNat :: (s.mt[i].w).toList))) ∧
    (624 < cur.toNat →
      exec (.mtWrite i cur ws) s =
        .next (s.answered (responseHeader 2 7 (instNibble i) 0x01#8) [])) ∧
    (cur.toNat ≤ 624 →
      let new : Mt := { valid := true, w := ws, cur := BitVec.ofNat 10 cur.toNat }
      exec (.mtWrite i cur ws) s =
        .next ({ s with mt := s.mt.set i new }.answered (responseHeader 2 7 (instNibble i) 0x00#8) [])) ∧
    (s.mt[i].valid = true → s.mt[i].Legal →
      exec (.mtRead i) s = .next (s.answered (responseHeader 2 6 (instNibble i) 0x00#8)
        (cur :: ws.toList)) →
      exec (.mtWrite j cur ws) t =
        .next ({ t with mt := t.mt.set j s.mt[i] }.answered
          (responseHeader 2 7 (instNibble j) 0x00#8) []))

/-- R205, the clone law: 624 consecutive outputs of a valid bank, whatever its words and cursor, loaded
by MT_CLONE into a bank of any state give a bank whose every later output is that of the first. -/
def Obligations.CloneLaw : Prop :=
  ∀ (s t : State) (v c : Inst), s.mt[v].valid = true → s.mt[v].Legal →
    ∃ s1 t1, exec (.mtExtract v 624#20) s = .next s1 ∧
      exec (.mtClone c s1.responseData) t = .next t1 ∧
      (∀ k : Nat, (drawN mtExtract k t1.mt[c]).1 = (drawN mtExtract k s1.mt[v]).1) ∧
      (∀ n : Count, ∃ s2 t2, exec (.mtExtract v n) s1 = .next s2 ∧
        exec (.mtExtract c n) t1 = .next t2 ∧ s2.responseData = t2.responseData)

/-! ## BBS -/

/-- R230 and R231: BBS_INIT with a seed: InvalidParameter for a broken congruence or p = q, then
InvalidSeed for a seed not coprime to p·q, else the instance is replaced, the seed reduced. Without a
seed the same parameter checks come first, and then the draw begins with the instance unchanged, the
checks being a step of their own (log 7). -/
def Obligations.BbsInitResult : Prop :=
  ∀ (s : State) (i : Inst) (p q x : Nat),
    (encode s.params (.bbsInit i p q (some x)) =
        (0x30000001#32 ||| BitVec.ofNat 32 i.val <<< 20) ::
          (wordsOfNat (s.params.bbsW / 64) p ++ wordsOfNat (s.params.bbsW / 64) q ++
            wordsOfNat (s.params.bbsW / 32) x) ∧
      encode s.params (.bbsInit i p q none) =
        (0x30000000#32 ||| BitVec.ofNat 32 i.val <<< 20) ::
          (wordsOfNat (s.params.bbsW / 64) p ++ wordsOfNat (s.params.bbsW / 64) q)) ∧
    (¬ (p % 4 = 3 ∧ q % 4 = 3 ∧ p ≠ q) → ∀ seed : Option Nat,
      exec (.bbsInit i p q seed) s =
        .next (s.answered (responseHeader 3 0 (instNibble i) 0x01#8) [])) ∧
    (p % 4 = 3 ∧ q % 4 = 3 ∧ p ≠ q →
      (Nat.gcd x (p * q) ≠ 1 →
        exec (.bbsInit i p q (some x)) s =
          .next (s.answered (responseHeader 3 0 (instNibble i) 0x02#8) [])) ∧
      (Nat.gcd x (p * q) = 1 →
        let new : Bbs := { valid := true, x := x % (p * q), n := p * q, p := p, q := q }
        exec (.bbsInit i p q (some x)) s =
          .next ({ s with bbs := s.bbs.set i new }.answered
            (responseHeader 3 0 (instNibble i) 0x00#8) [])) ∧
      exec (.bbsInit i p q none) s =
        .next { s with mode := .exec, phase := .draw i p q [] })

/-- R232 over single steps and over whole runs. The single steps of a draw, from every state inside one
and whatever is still to happen at the ports: while the candidate lacks words the head word of ENT is
read into it; a complete candidate that is not accepted is lost, and the next begins with no word read;
an accepted one initialises the instance and the command answers OK. The runs: from a seedless
BBS_INIT with good factors, at quiet ports, and an ENT FIFO
that holds any number of rejected candidates, then an accepted one, then `rest`, the processor takes
one step for each ENT word and one for each candidate, and ends with X the accepted candidate, OK, and
ENT holding `rest`. A candidate is the low `bitlen(p·q)` bits of its `ceil(bitlen(p·q)/32)` words. The
count of steps is the model's reading of R366 (log 7); in the runs quiet ports are an empty `bus`, in
the single steps also a quiet event (log 1). While ENT is empty the processor waits:
`ProcessorHolds`. -/
def Obligations.SeedlessDrawRuns : Prop :=
  ∀ (s : State) (i : Inst) (p q : Nat),
    let n := p * q
    let nw := ceilDiv (bitlen n) 32
    let candidate (ws : List Word) : Nat := natOfWords ws % 2 ^ bitlen n
    let accepted (ws : List Word) : Prop :=
      2 ≤ candidate ws ∧ candidate ws ≤ n - 1 ∧ Nat.gcd (candidate ws) n = 1
    let initialised (x : Nat) : Vector Bbs 4 :=
      s.bbs.set i { valid := true, x := x, n := n, p := p, q := q }
    (∀ (acc : List Word) (later : List BusEvent),
      s.quietThen later → s.mode = .exec → s.phase = .draw i p q acc →
      (∀ w rest, acc.length < nw → s.ent = w :: rest →
        step s = .next { s with bus := later, ent := rest, phase := .draw i p q (acc ++ [w]) }) ∧
      (nw ≤ acc.length → ¬ accepted acc →
        step s = .next { s with bus := later, phase := .draw i p q [] }) ∧
      (nw ≤ acc.length → accepted acc →
        step s = .next ({ s with bus := later, bbs := initialised (candidate acc) }.answered
          (responseHeader 3 0 (instNibble i) 0x00#8) []))) ∧
    (∀ (rejected : List (List Word)) (good rest : List Word),
      p % 4 = 3 ∧ q % 4 = 3 ∧ p ≠ q →
      (∀ ws ∈ rejected, ws.length = nw ∧ ¬ accepted ws) →
      good.length = nw → accepted good →
      s.bus = [] → s.ent = rejected.flatten ++ good ++ rest →
      ∃ t, exec (.bbsInit i p q none) s = .next t ∧
        Host.Core.run Sys2Proof.core ((rejected.length + 1) * (nw + 1)) t =
          .next ({ s with ent := rest, bbs := initialised (candidate good) }.answered
            (responseHeader 3 0 (instNibble i) 0x00#8) []))

/-- R233 and R235 in closed form: bit t of BBS_NEXT_BIT is bit 0 of `X^(2^(t+1)) mod N`, and X after n
squarings is `X^(2^n) mod N`. -/
def Obligations.BbsNextBitResult : Prop :=
  ∀ (s : State) (i : Inst) (n : Count),
    encode s.params (.bbsNextBit i n) =
      [0x31000000#32 ||| BitVec.ofNat 32 i.val <<< 20 ||| n.setWidth 32] ∧
    (s.bbs[i].valid = false →
      exec (.bbsNextBit i n) s = .next (s.answered (responseHeader 3 1 (instNibble i) 0x08#8) [])) ∧
    (s.bbs[i].valid = true → s.bbs[i].Legal s.params.bbsW →
      exec (.bbsNextBit i n) s =
        .next ({ s with bbs := s.bbs.set i (s.bbs[i].after n.toNat) }.answered
          (responseHeader 3 1 (instNibble i) 0x00#8)
          (packBits (squaringBits s.bbs[i].x s.bbs[i].n n.toNat))))

/-- R234: BBS_READ returns VALID, X, N, P and Q, most significant word first, also while VALID = 0. -/
def Obligations.BbsReadResult : Prop :=
  ∀ (s : State) (i : Inst),
    encode s.params (.bbsRead i) = [0x32000000#32 ||| BitVec.ofNat 32 i.val <<< 20] ∧
    ∃ xs ns ps qs : List Word,
      exec (.bbsRead i) s = .next (s.answered (responseHeader 3 2 (instNibble i) 0x00#8)
        ((if s.bbs[i].valid then 1#32 else 0#32) :: (xs ++ ns ++ ps ++ qs))) ∧
      (xs.length = s.params.bbsW / 32 ∧ ns.length = s.params.bbsW / 32 ∧
        ps.length = s.params.bbsW / 64 ∧ qs.length = s.params.bbsW / 64) ∧
      (s.params.Legal → s.bbs[i].valid = true → s.bbs[i].Legal s.params.bbsW →
        natOfWords xs = s.bbs[i].x ∧ natOfWords ns = s.bbs[i].n ∧
        natOfWords ps = s.bbs[i].p ∧ natOfWords qs = s.bbs[i].q) ∧
      (s.bbs[i] = Bbs.reset →
        natOfWords xs = 0 ∧ natOfWords ns = 0 ∧ natOfWords ps = 0 ∧ natOfWords qs = 0)

/-- R236: the bits depend only on X and N, so that inits with the same p, q and seed give the same
bits; the sequence is eventually periodic within N steps; p = 11, q = 23, seed 3 returns to X = 3 after
20 steps. -/
def Obligations.BbsReproducible : Prop :=
  (∀ (s t : State) (i j : Inst) (n : Count),
    s.bbs[i].valid = true → t.bbs[j].valid = true →
    s.bbs[i].x = t.bbs[j].x → s.bbs[i].n = t.bbs[j].n →
    ∃ s' t', exec (.bbsNextBit i n) s = .next s' ∧ exec (.bbsNextBit j n) t = .next t' ∧
      s'.responseData = t'.responseData ∧ s'.bbs[i].x = t'.bbs[j].x) ∧
  (∀ (s t : State) (i j : Inst) (p q x : Nat) (n : Count),
    p % 4 = 3 ∧ q % 4 = 3 ∧ p ≠ q → Nat.gcd x (p * q) = 1 →
    ∃ s1 s2 t1 t2, exec (.bbsInit i p q (some x)) s = .next s1 ∧ exec (.bbsNextBit i n) s1 = .next s2 ∧
      exec (.bbsInit j p q (some x)) t = .next t1 ∧ exec (.bbsNextBit j n) t1 = .next t2 ∧
      s2.responseData = t2.responseData) ∧
  (∀ b : Bbs, b.x < b.n → ∃ start period : Nat, 1 ≤ period ∧ start + period ≤ b.n ∧
    ∀ k, start ≤ k → (drawN bbsStep (k + period) b).2.x = (drawN bbsStep k b).2.x) ∧
  ∀ b : Bbs, b.n = 253 → b.x = 3 →
    (drawN bbsStep 20 b).2.x = 3 ∧ ∀ k, 0 < k → k < 20 → (drawN bbsStep k b).2.x ≠ 3

/-! ## Packing -/

/-- R92: a packed bit string has `ceil(n/32)` words, bit t stands in bit `31 - (t mod 32)` of word
`floor(t/32)`, and every other bit is 0. -/
def Obligations.BitStringPacking : Prop :=
  ∀ bs : List Bool,
    (packBits bs).length = ceilDiv bs.length 32 ∧
    ∀ t, t < 32 * ceilDiv bs.length 32 →
      ((packBits bs).getD (t / 32) 0#32).getLsbD (31 - t % 32) = bs.getD t false

/-- R90, R93 and R116: the words of a byte string, `ceil(L/4)` of them, hold byte 4j+r in bits 31-8r to
24-8r of word j, with 0 beyond the string; a string operand read back is its first L bytes, whatever
the bytes beyond them are. -/
def Obligations.ByteStringPacking : Prop :=
  ∀ b : List Byte,
    (packBytes b).length = ceilDiv b.length 4 ∧
    (∀ p, p < 4 * ceilDiv b.length 4 →
      ((packBytes b).getD (p / 4) 0#32).extractLsb' (24 - 8 * (p % 4)) 8 = b.getD p 0#8) ∧
    (∀ ws rest : List Word, b.length < 2 ^ 32 → ws.length = ceilDiv b.length 4 →
      (∀ p, p < b.length →
        (ws.getD (p / 4) 0#32).extractLsb' (24 - 8 * (p % 4)) 8 = b.getD p 0#8) →
      readStr (BitVec.ofNat 32 b.length :: (ws ++ rest)) = some (b, rest))

/-! ## DRBG -/

/-- R260, R267 and R268: DRBG_INSTANTIATE in both variants, from the concatenated seed material;
InvalidParameter when a string is longer than MAX_STR_BYTES. INTERVAL is kept. HASH and HMAC are any
functions (log 3), bytes 32 to 54 of an HMAC instance are filled with zeros (R266, log 10), and HashDf
is R268's (log 11). -/
def Obligations.DrbgInstantiateResult : Prop :=
  ∀ (s : State) (i : Inst) (variant : Variant) (e n ps : List Byte),
    let d := s.drbg[i]
    let sm := e ++ n ++ ps
    (e.length < 2 ^ 32 → n.length < 2 ^ 32 → ps.length < 2 ^ 32 →
      encode s.params (.drbgInstantiate i variant e n ps) =
        (0x40000000#32 ||| BitVec.ofNat 32 i.val <<< 20 ||| BitVec.ofNat 32 (variantBit variant)) ::
          ((BitVec.ofNat 32 e.length :: packBytes e) ++ (BitVec.ofNat 32 n.length :: packBytes n) ++
            (BitVec.ofNat 32 ps.length :: packBytes ps))) ∧
    (s.params.maxStrBytes < e.length ∨ s.params.maxStrBytes < n.length ∨
        s.params.maxStrBytes < ps.length →
      exec (.drbgInstantiate i variant e n ps) s =
        .next (s.answered (responseHeader 4 0 (instNibble i) 0x01#8) [])) ∧
    (e.length ≤ s.params.maxStrBytes → n.length ≤ s.params.maxStrBytes →
        ps.length ≤ s.params.maxStrBytes →
      let kv := updatedKeyV (Vector.replicate 32 0x00#8) (Vector.replicate 32 0x01#8) sm
      let new : Drbg := match variant with
        | .hmac => { inst := true, variant := .hmac, v := fill55 kv.2, k := fill55 kv.1, ctr := 1#32,
                     interval := d.interval }
        | .hash => { inst := true, variant := .hash, v := field55 (hashDfBytes sm),
                     k := field55 (hashDfBytes ([0x00#8] ++ hashDfBytes sm)), ctr := 1#32,
                     interval := d.interval }
      exec (.drbgInstantiate i variant e n ps) s =
        .next ({ s with drbg := s.drbg.set i new }.answered
          (responseHeader 4 0 (instNibble i) 0x00#8) []))

/-- R261, the checks of DRBG_GENERATE in their order: NotInstantiated, InvalidParameter,
ReseedRequired, each with nothing changed; when none applies the command answers OK. -/
def Obligations.DrbgGenerateChecks : Prop :=
  ∀ (s : State) (i : Inst) (n : Count) (a : List Byte),
    let d := s.drbg[i]
    (a.length < 2 ^ 32 →
      encode s.params (.drbgGenerate i n a) =
        (0x41000000#32 ||| BitVec.ofNat 32 i.val <<< 20 ||| n.setWidth 32) ::
          BitVec.ofNat 32 a.length :: packBytes a) ∧
    (d.inst = false →
      exec (.drbgGenerate i n a) s = .next (s.answered (responseHeader 4 1 (instNibble i) 0x08#8) [])) ∧
    (d.inst = true → s.params.maxStrBytes < a.length →
      exec (.drbgGenerate i n a) s = .next (s.answered (responseHeader 4 1 (instNibble i) 0x01#8) [])) ∧
    (d.inst = true → a.length ≤ s.params.maxStrBytes → d.interval.toNat < d.ctr.toNat →
      exec (.drbgGenerate i n a) s = .next (s.answered (responseHeader 4 1 (instNibble i) 0x03#8) [])) ∧
    (d.inst = true → a.length ≤ s.params.maxStrBytes → d.ctr.toNat ≤ d.interval.toNat →
      ∃ (out : List Byte) (v k : Vector Byte 55), out.length = n.toNat ∧
        exec (.drbgGenerate i n a) s =
          .next ({ s with drbg := s.drbg.set i { d with v := v, k := k, ctr := d.ctr + 1#32 }
              }.answered (responseHeader 4 1 (instNibble i) 0x00#8) (packBytes out)))

/-- R269 for the HMAC variant: the output is the first n bytes of the chain `V <- HMAC(Key, V)`, and
the update with the additional input follows it, unconditionally; with HMAC_PRE_UPDATE = 1 and
additional input present the update also precedes it. HMAC is any function (log 3), and bytes 32 to 54
of V and K are filled with zeros (R266, log 10). -/
def Obligations.DrbgGenerateHmac : Prop :=
  ∀ (s : State) (i : Inst) (n : Count) (a : List Byte),
    let d := s.drbg[i]
    d.inst = true → d.variant = .hmac → a.length ≤ s.params.maxStrBytes →
    d.ctr.toNat ≤ d.interval.toNat →
    let kv := if s.params.hmacPreUpdate = true ∧ a ≠ [] then updatedKeyV (low32 d.k) (low32 d.v) a
      else (low32 d.k, low32 d.v)
    let blocks := ceilDiv n.toNat 32
    let out := ((List.range blocks).flatMap fun j => (hmacChain kv.1 kv.2 (j + 1)).toList).take n.toNat
    let after := updatedKeyV kv.1 (hmacChain kv.1 kv.2 blocks) a
    let new : Drbg := { d with k := fill55 after.1, v := fill55 after.2, ctr := d.ctr + 1#32 }
    exec (.drbgGenerate i n a) s =
      .next ({ s with drbg := s.drbg.set i new }.answered
        (responseHeader 4 1 (instNibble i) 0x00#8) (packBytes out))

/-- R269 for the Hash variant: additional input is hashed into V first, the output is the first n bytes
of the hashes of V, V+1, … modulo 2^440, and V ends as V + HASH(0x03 ‖ V) + C + CTR modulo 2^440 with
the old CTR. HASH is any function (log 3), and the steps are those R269 writes and marks as general
knowledge (log 11). -/
def Obligations.DrbgGenerateHash : Prop :=
  ∀ (s : State) (i : Inst) (n : Count) (a : List Byte),
    let d := s.drbg[i]
    d.inst = true → d.variant = .hash → a.length ≤ s.params.maxStrBytes →
    d.ctr.toNat ≤ d.interval.toNat →
    let v0 := natOfBytes d.v.toList
    let v1 := if a = [] then v0
      else (v0 + natOfBytes (Config.hash ([0x02#8] ++ d.v.toList ++ a)).toList) % 2 ^ 440
    let out := ((List.range (ceilDiv n.toNat 32)).flatMap fun j =>
      (Config.hash (bytesOfNat 55 ((v1 + j) % 2 ^ 440))).toList).take n.toNat
    let h := natOfBytes (Config.hash ([0x03#8] ++ bytesOfNat 55 v1)).toList
    let new : Drbg := { d with
      v := field55 (bytesOfNat 55 (v1 + h + natOfBytes d.k.toList + d.ctr.toNat)), ctr := d.ctr + 1#32 }
    exec (.drbgGenerate i n a) s =
      .next ({ s with drbg := s.drbg.set i new }.answered
        (responseHeader 4 1 (instNibble i) 0x00#8) (packBytes out))

/-- R262: DRBG_RESEED in both variants, in every state of the instance, also Uninstantiated;
InvalidParameter when a string is longer than MAX_STR_BYTES. HASH and HMAC are any functions (log 3),
bytes 32 to 54 of an HMAC instance are filled with zeros (R266, log 10), and the Hash variant's steps
are those the spec marks as general knowledge (log 11). -/
def Obligations.DrbgReseedResult : Prop :=
  ∀ (s : State) (i : Inst) (e a : List Byte),
    let d := s.drbg[i]
    (e.length < 2 ^ 32 → a.length < 2 ^ 32 →
      encode s.params (.drbgReseed i e a) =
        (0x42000000#32 ||| BitVec.ofNat 32 i.val <<< 20) ::
          ((BitVec.ofNat 32 e.length :: packBytes e) ++ (BitVec.ofNat 32 a.length :: packBytes a))) ∧
    (s.params.maxStrBytes < e.length ∨ s.params.maxStrBytes < a.length →
      exec (.drbgReseed i e a) s =
        .next (s.answered (responseHeader 4 2 (instNibble i) 0x01#8) [])) ∧
    (e.length ≤ s.params.maxStrBytes → a.length ≤ s.params.maxStrBytes →
      let kv := updatedKeyV (low32 d.k) (low32 d.v) (e ++ a)
      let v := hashDfBytes ([0x01#8] ++ d.v.toList ++ e ++ a)
      let new : Drbg := match d.variant with
        | .hmac => { d with v := fill55 kv.2, k := fill55 kv.1, ctr := 1#32, inst := true }
        | .hash => { d with v := field55 v, k := field55 (hashDfBytes ([0x00#8] ++ v)), ctr := 1#32,
                            inst := true }
      exec (.drbgReseed i e a) s =
        .next ({ s with drbg := s.drbg.set i new }.answered
          (responseHeader 4 2 (instNibble i) 0x00#8) []))

/-- R263 and R270: DRBG_GEN_BITS makes its checks in order, and else is one Generate of `ceil(n/8)` bytes
with no additional input, whose first n bits it returns. -/
def Obligations.DrbgGenBitsResult : Prop :=
  ∀ (s : State) (i : Inst) (n : Count),
    let d := s.drbg[i]
    encode s.params (.drbgGenBits i n) =
      [0x43000000#32 ||| BitVec.ofNat 32 i.val <<< 20 ||| n.setWidth 32] ∧
    (d.inst = false →
      exec (.drbgGenBits i n) s = .next (s.answered (responseHeader 4 3 (instNibble i) 0x08#8) [])) ∧
    (d.inst = true → n.toNat = 0 →
      exec (.drbgGenBits i n) s = .next (s.answered (responseHeader 4 3 (instNibble i) 0x01#8) [])) ∧
    (d.inst = true → n.toNat ≠ 0 → d.interval.toNat < d.ctr.toNat →
      exec (.drbgGenBits i n) s = .next (s.answered (responseHeader 4 3 (instNibble i) 0x03#8) [])) ∧
    (d.inst = true → n.toNat ≠ 0 → d.ctr.toNat ≤ d.interval.toNat →
      ∃ (bytes : List Byte) (d' : Drbg), bytes.length = ceilDiv n.toNat 8 ∧ d'.ctr = d.ctr + 1#32 ∧
        exec (.drbgGenerate i (BitVec.ofNat 20 (ceilDiv n.toNat 8)) []) s =
          .next ({ s with drbg := s.drbg.set i d' }.answered
            (responseHeader 4 1 (instNibble i) 0x00#8) (packBytes bytes)) ∧
        exec (.drbgGenBits i n) s =
          .next ({ s with drbg := s.drbg.set i d' }.answered
            (responseHeader 4 3 (instNibble i) 0x00#8) (packBits ((bytesBits bytes).take n.toNat))))

/-- R264 and R276, by recursion on the attempt budget. The checks in order; a = b answers a and draws
nothing; no attempt left is RangeGenerationFailed; else one DRBG_GEN_BITS of `bitlen(b-a)` bits is
drawn, and its value v answers a + v when v ≤ b - a, while a larger one leaves the command where it
would stand after that draw with one attempt less. A draw refused with ReseedRequired ends the command
so, the earlier draws staying made. -/
def Obligations.DrbgRandomIntRecursion : Prop :=
  ∀ (s : State) (i : Inst) (a b : Word64),
    let d := s.drbg[i]
    let r := (b.toInt - a.toInt).toNat
    encode s.params (.drbgRandomInt i a b) =
      (0x44000000#32 ||| BitVec.ofNat 32 i.val <<< 20) :: (wordsOf64 a ++ wordsOf64 b) ∧
    (d.inst = false →
      exec (.drbgRandomInt i a b) s = .next (s.answered (responseHeader 4 4 (instNibble i) 0x08#8) [])) ∧
    (d.inst = true → b.toInt < a.toInt →
      exec (.drbgRandomInt i a b) s = .next (s.answered (responseHeader 4 4 (instNibble i) 0x01#8) [])) ∧
    (d.inst = true → a = b →
      exec (.drbgRandomInt i a b) s =
        .next (s.answered (responseHeader 4 4 (instNibble i) 0x00#8) (wordsOf64 a))) ∧
    (d.inst = true → a.toInt < b.toInt → s.params.rangeMaxAttempts = 0 →
      exec (.drbgRandomInt i a b) s = .next (s.answered (responseHeader 4 4 (instNibble i) 0x04#8) [])) ∧
    (d.inst = true → a.toInt < b.toInt → ∀ m, s.params.rangeMaxAttempts = m + 1 →
      (d.interval.toNat < d.ctr.toNat →
        exec (.drbgRandomInt i a b) s =
          .next (s.answered (responseHeader 4 4 (instNibble i) 0x03#8) [])) ∧
      (d.ctr.toNat ≤ d.interval.toNat →
        ∃ s1, exec (.drbgGenBits i (BitVec.ofNat 20 (bitlen r))) s = .next s1 ∧
          let v := leadingBits (bitlen r) s1.responseData
          (v ≤ r →
            exec (.drbgRandomInt i a b) s =
              .next ({ s with drbg := s1.drbg }.answered (responseHeader 4 4 (instNibble i) 0x00#8)
                (wordsOf64 (BitVec.ofInt 64 (a.toInt + v))))) ∧
          (r < v →
            ∃ t, exec (.drbgRandomInt i a b)
                { s with drbg := s1.drbg, params := { s.params with rangeMaxAttempts := m } } =
                .next t ∧
              exec (.drbgRandomInt i a b) s = .next { t with params := s.params })))

/-- R276: an integer that DRBG_RANDOM_INT or SER_INT answers with OK lies in [a, b]. -/
def Obligations.BoundedIntegersInRange : Prop :=
  ∀ (s t : State) (a b : Word64) (i : Instr) (hdr : Word) (data : List Word),
    (∃ j, i = .drbgRandomInt j a b) ∨ (∃ src, i = .serInt src a b) →
    exec i s = .next t →
    t.phase = .response [] (hdr :: 2#32 :: data) → hdr.extractLsb' 0 8 = 0x00#8 →
    data.length = 2 ∧ a.toInt ≤ (BitVec.ofNat 64 (natOfWords data)).toInt ∧
      (BitVec.ofNat 64 (natOfWords data)).toInt ≤ b.toInt

/-- R265 and R271: DRBG_SET_INTERVAL writes INTERVAL for a value in [1, 2^31] and refuses any other;
DRBG_READ returns the flags with the derived state, CTR, INTERVAL, and the VLEN bytes of V and of K. -/
def Obligations.DrbgIntervalAndRead : Prop :=
  ∀ (s : State) (i : Inst) (v : Word),
    let d := s.drbg[i]
    let vlen := if d.variant = .hmac then 32 else 55
    encode s.params (.drbgSetInterval i v) = [0x45000000#32 ||| BitVec.ofNat 32 i.val <<< 20, v] ∧
    encode s.params (.drbgRead i) = [0x46000000#32 ||| BitVec.ofNat 32 i.val <<< 20] ∧
    (v.toNat = 0 ∨ 2 ^ 31 < v.toNat →
      exec (.drbgSetInterval i v) s =
        .next (s.answered (responseHeader 4 5 (instNibble i) 0x01#8) [])) ∧
    (1 ≤ v.toNat ∧ v.toNat ≤ 2 ^ 31 →
      exec (.drbgSetInterval i v) s =
        .next ({ s with drbg := s.drbg.set i { d with interval := v } }.answered
          (responseHeader 4 5 (instNibble i) 0x00#8) [])) ∧
    exec (.drbgRead i) s = .next (s.answered (responseHeader 4 6 (instNibble i) 0x00#8)
      (BitVec.ofNat 32 ((if d.inst then 1 else 0) + (if d.variant = .hash then 2 else 0) +
          (if d.inst = false then 0 else if d.interval.toNat < d.ctr.toNat then 0x200 else 0x100)) ::
        d.ctr :: d.interval ::
        (packBytes (d.v.toList.take vlen) ++ packBytes (d.k.toList.take vlen))))

/-- R273 and R53: no command makes an instance Uninstantiated; only a successful instantiate or reseed
takes it out of that state, and to Ready; a Generate that answers OK leaves Ready or, exactly when CTR
was INTERVAL, ReseedRequired; DRBG_SET_INTERVAL moves an instance to the side of the bound CTR is on. -/
def Obligations.DrbgStateMachine : Prop :=
  ∀ (s : State) (i : Inst), (∀ j : Inst, s.drbg[j].Legal) →
    (∀ (c : Instr) (t : State), exec c s = .next t → t.drbg[i].state = .uninstantiated →
      s.drbg[i].state = .uninstantiated) ∧
    (∀ (c : Instr) (t : State), exec c s = .next t → s.drbg[i].state = .uninstantiated →
      t.drbg[i].state ≠ .uninstantiated →
      t.drbg[i].state = .ready ∧
        ((∃ v e n ps, c = .drbgInstantiate i v e n ps) ∨ ∃ e a, c = .drbgReseed i e a)) ∧
    (∀ (v : Variant) (e n ps : List Byte), e.length ≤ s.params.maxStrBytes →
      n.length ≤ s.params.maxStrBytes → ps.length ≤ s.params.maxStrBytes →
      ∃ t, exec (.drbgInstantiate i v e n ps) s = .next t ∧ t.drbg[i].state = .ready) ∧
    (∀ e a : List Byte, e.length ≤ s.params.maxStrBytes → a.length ≤ s.params.maxStrBytes →
      ∃ t, exec (.drbgReseed i e a) s = .next t ∧ t.drbg[i].state = .ready) ∧
    (∀ (n : Count) (a : List Byte), a.length ≤ s.params.maxStrBytes →
      ∃ t, exec (.drbgGenerate i n a) s = .next t ∧
        (s.drbg[i].state = .ready →
          t.drbg[i].state = if s.drbg[i].ctr = s.drbg[i].interval then .reseedRequired else .ready) ∧
        (s.drbg[i].state = .reseedRequired →
          t = s.answered (responseHeader 4 1 (instNibble i) 0x03#8) [])) ∧
    (∀ v : Word, 1 ≤ v.toNat → v.toNat ≤ 2 ^ 31 → s.drbg[i].inst = true →
      ∃ t, exec (.drbgSetInterval i v) s = .next t ∧
        t.drbg[i].state = if v.toNat < s.drbg[i].ctr.toNat then .reseedRequired else .ready)

/-- R274 (3) and (4): from CTR = 1, INTERVAL Generates answer with the status OK and the next one with
ReseedRequired; a reseed, itself OK, then makes the next Generate answer OK again. -/
def Obligations.GenerateBudget : Prop :=
  ∀ (s : State) (i : Inst) (len : Count) (e a : List Byte),
    s.drbg[i].inst = true → s.drbg[i].ctr = 1#32 → s.drbg[i].Legal →
    e.length ≤ s.params.maxStrBytes → a.length ≤ s.params.maxStrBytes →
    ∃ t, generateTimes i len s.drbg[i].interval.toNat s = some t ∧
      exec (.drbgGenerate i len []) t =
        .next (t.answered (responseHeader 4 1 (instNibble i) 0x03#8) []) ∧
      ∃ u v, exec (.drbgReseed i e a) t = .next u ∧ u.responseStatus = some 0x00#8 ∧
        u.drbg[i].ctr = 1#32 ∧
        exec (.drbgGenerate i len []) u = .next v ∧ v.responseStatus = some 0x00#8 ∧
        v.drbg[i].ctr = 2#32

/-! ## Serializer -/

/-- R313 and R318 in closed form: an LCG gives the low byte of each of its n next values, an MT bank the
first n bytes of its next `ceil(n/4)` outputs, a BBS instance the 8n bits of its next squarings. -/
def Obligations.SerBytesResult : Prop :=
  ∀ (s : State) (src : Src) (j : Inst) (n : Count),
    encode s.params (.serBytes src n) =
      [0x50000000#32 ||| (srcNibble src).setWidth 32 <<< 20 ||| n.setWidth 32] ∧
    (s.srcValid src = false →
      exec (.serBytes src n) s = .next (s.answered (responseHeader 5 0 (srcNibble src) 0x08#8) [])) ∧
    (s.lcg[j].valid = true → s.lcg[j].Legal →
      exec (.serBytes (.lcg j) n) s =
        .next ({ s with lcg := s.lcg.set j (s.lcg[j].after n.toNat) }.answered
          (responseHeader 5 0 (srcNibble (.lcg j)) 0x00#8)
          (packBytes ((s.lcg[j].outputs n.toNat).map (BitVec.ofNat 8))))) ∧
    (s.mt[j].valid = true → s.mt[j].Legal →
      exec (.serBytes (.mt j) n) s =
        .next ({ s with mt := s.mt.set j (s.mt[j].after (ceilDiv n.toNat 4)) }.answered
          (responseHeader 5 0 (srcNibble (.mt j)) 0x00#8)
          (packBytes (((s.mt[j].outputs (ceilDiv n.toNat 4)).flatMap wordBytes).take n.toNat)))) ∧
    (s.bbs[j].valid = true → s.bbs[j].Legal s.params.bbsW →
      exec (.serBytes (.bbs j) n) s =
        .next ({ s with bbs := s.bbs.set j (s.bbs[j].after (8 * n.toNat)) }.answered
          (responseHeader 5 0 (srcNibble (.bbs j)) 0x00#8)
          (packBits (squaringBits s.bbs[j].x s.bbs[j].n (8 * n.toNat)))))

/-- R314 and R319 in closed form: an LCG or an MT bank gives the first n bits of its byte stream, most
significant first, a BBS instance one bit a squaring; n = 0 is InvalidParameter. -/
def Obligations.SerBitsResult : Prop :=
  ∀ (s : State) (src : Src) (j : Inst) (n : Count),
    let nb := ceilDiv n.toNat 8
    encode s.params (.serBits src n) =
      [0x51000000#32 ||| (srcNibble src).setWidth 32 <<< 20 ||| n.setWidth 32] ∧
    (s.srcValid src = false →
      exec (.serBits src n) s = .next (s.answered (responseHeader 5 1 (srcNibble src) 0x08#8) [])) ∧
    (s.srcValid src = true → n.toNat = 0 →
      exec (.serBits src n) s = .next (s.answered (responseHeader 5 1 (srcNibble src) 0x01#8) [])) ∧
    (n.toNat ≠ 0 → s.lcg[j].valid = true → s.lcg[j].Legal →
      exec (.serBits (.lcg j) n) s =
        .next ({ s with lcg := s.lcg.set j (s.lcg[j].after nb) }.answered
          (responseHeader 5 1 (srcNibble (.lcg j)) 0x00#8)
          (packBits (((s.lcg[j].outputs nb).flatMap fun v : Nat =>
            (List.range 8).map fun t => v.testBit (7 - t)).take n.toNat)))) ∧
    (n.toNat ≠ 0 → s.mt[j].valid = true → s.mt[j].Legal →
      exec (.serBits (.mt j) n) s =
        .next ({ s with mt := s.mt.set j (s.mt[j].after (ceilDiv nb 4)) }.answered
          (responseHeader 5 1 (srcNibble (.mt j)) 0x00#8)
          (packBits (((s.mt[j].outputs (ceilDiv nb 4)).flatMap fun w : Word =>
            (List.range 32).map fun t => w.getLsbD (31 - t)).take n.toNat)))) ∧
    (n.toNat ≠ 0 → s.bbs[j].valid = true → s.bbs[j].Legal s.params.bbsW →
      exec (.serBits (.bbs j) n) s =
        .next ({ s with bbs := s.bbs.set j (s.bbs[j].after n.toNat) }.answered
          (responseHeader 5 1 (srcNibble (.bbs j)) 0x00#8)
          (packBits (squaringBits s.bbs[j].x s.bbs[j].n n.toNat))))

/-- R315: one float from each scalar: an LCG value over `2^bitlen(M-1)`, an MT output over 2^32, a BBS
byte over 2^8, each as the two words of its binary64 pattern. -/
def Obligations.SerFloatResult : Prop :=
  ∀ (s : State) (src : Src) (j : Inst) (n : Count),
    let words (fs : List Word64) : List Word := fs.flatMap wordsOf64
    encode s.params (.serFloat src n) =
      [0x52000000#32 ||| (srcNibble src).setWidth 32 <<< 20 ||| n.setWidth 32] ∧
    (s.srcValid src = false →
      exec (.serFloat src n) s = .next (s.answered (responseHeader 5 2 (srcNibble src) 0x08#8) [])) ∧
    (s.lcg[j].valid = true → s.lcg[j].Legal →
      exec (.serFloat (.lcg j) n) s =
        .next ({ s with lcg := s.lcg.set j (s.lcg[j].after n.toNat) }.answered
          (responseHeader 5 2 (srcNibble (.lcg j)) 0x00#8)
          (words ((s.lcg[j].outputs n.toNat).map fun v : Nat => f64 v (bitlen (s.lcg[j].m.toNat - 1)))))) ∧
    (s.mt[j].valid = true → s.mt[j].Legal →
      exec (.serFloat (.mt j) n) s =
        .next ({ s with mt := s.mt.set j (s.mt[j].after n.toNat) }.answered
          (responseHeader 5 2 (srcNibble (.mt j)) 0x00#8)
          (words ((s.mt[j].outputs n.toNat).map fun w : Word => f64 w.toNat 32)))) ∧
    (s.bbs[j].valid = true → s.bbs[j].Legal s.params.bbsW →
      exec (.serFloat (.bbs j) n) s =
        .next ({ s with bbs := s.bbs.set j (s.bbs[j].after (8 * n.toNat)) }.answered
          (responseHeader 5 2 (srcNibble (.bbs j)) 0x00#8)
          (words ((List.range n.toNat).map fun k =>
            f64 (natOfBits (((squaringBits s.bbs[j].x s.bbs[j].n (8 * n.toNat)).drop (8 * k)).take 8))
              8))))

/-- R320: `F64(v, w)` is the binary64 pattern of `v/2^w` rounded toward zero: 0 for v = 0; else sign 0,
a biased exponent E between 1 and 1022 (so the value is below 1), and
`(2^52 + F)·2^(E-1075) ≤ v/2^w < (2^52 + F + 1)·2^(E-1075)`, with equality on the left for every v of at
most 53 significant bits. -/
def Obligations.FloatRoundsTowardZero : Prop :=
  (∀ w : Nat, w ≤ 64 → f64 0 w = 0x0000000000000000#64) ∧
  ∀ v w : Nat, 0 < v → v < 2 ^ w → w ≤ 64 →
    let f := (f64 v w).toNat
    let e := f / 2 ^ 52
    let fr := f % 2 ^ 52
    1 ≤ e ∧ e ≤ 1022 ∧
    (2 ^ 52 + fr) * 2 ^ e * 2 ^ w ≤ v * 2 ^ 1075 ∧ v * 2 ^ 1075 < (2 ^ 52 + fr + 1) * 2 ^ e * 2 ^ w ∧
    ((∃ m k : Nat, v = m * 2 ^ k ∧ m < 2 ^ 53) → (2 ^ 52 + fr) * 2 ^ e * 2 ^ w = v * 2 ^ 1075)

/-- R316 and R276, by recursion on the attempt budget, as for DRBG_RANDOM_INT, the draw being one
SER_BITS of `bitlen(b-a)` bits from the source. -/
def Obligations.SerIntRecursion : Prop :=
  ∀ (s : State) (src : Src) (a b : Word64),
    let r := (b.toInt - a.toInt).toNat
    encode s.params (.serInt src a b) =
      (0x53000000#32 ||| (srcNibble src).setWidth 32 <<< 20) :: (wordsOf64 a ++ wordsOf64 b) ∧
    (s.srcValid src = false →
      exec (.serInt src a b) s = .next (s.answered (responseHeader 5 3 (srcNibble src) 0x08#8) [])) ∧
    (s.srcValid src = true → b.toInt < a.toInt →
      exec (.serInt src a b) s = .next (s.answered (responseHeader 5 3 (srcNibble src) 0x01#8) [])) ∧
    (s.srcValid src = true → a = b →
      exec (.serInt src a b) s =
        .next (s.answered (responseHeader 5 3 (srcNibble src) 0x00#8) (wordsOf64 a))) ∧
    (s.srcValid src = true → a.toInt < b.toInt → s.params.rangeMaxAttempts = 0 →
      exec (.serInt src a b) s = .next (s.answered (responseHeader 5 3 (srcNibble src) 0x04#8) [])) ∧
    (s.srcValid src = true → a.toInt < b.toInt → ∀ m, s.params.rangeMaxAttempts = m + 1 →
      ∃ s1, exec (.serBits src (BitVec.ofNat 20 (bitlen r))) s = .next s1 ∧
        let v := leadingBits (bitlen r) s1.responseData
        (v ≤ r →
          exec (.serInt src a b) s =
            .next (s1.answered (responseHeader 5 3 (srcNibble src) 0x00#8)
              (wordsOf64 (BitVec.ofInt 64 (a.toInt + v))))) ∧
        (r < v →
          ∃ t, exec (.serInt src a b)
              { s1 with params := { s.params with rangeMaxAttempts := m } } = .next t ∧
            exec (.serInt src a b) s = .next { t with params := s.params }))

/-- R317: SER_XOR's checks in order, and byte p of its result is the XOR of byte p of every string; one
string returns itself and a string with itself gives zeros. No engine is touched. -/
def Obligations.SerXorResult : Prop :=
  ∀ s : State,
    (∀ ss : List (List Byte), ss.length < 2 ^ 20 →
      encode s.params (.serXor ss) = (0x54000000#32 ||| BitVec.ofNat 32 ss.length) ::
        ss.flatMap (fun b => BitVec.ofNat 32 b.length :: packBytes b)) ∧
    exec (.serXor []) s = .next (s.answered 0x54000001#32 []) ∧
    (∀ (b : List Byte) (rest : List (List Byte)),
      ((∃ x ∈ b :: rest, s.params.maxStrBytes < x.length) →
        exec (.serXor (b :: rest)) s = .next (s.answered 0x54000001#32 [])) ∧
      ((∀ x ∈ b :: rest, x.length ≤ s.params.maxStrBytes) → (∃ x ∈ rest, x.length ≠ b.length) →
        exec (.serXor (b :: rest)) s = .next (s.answered 0x54000005#32 [])) ∧
      ((∀ x ∈ b :: rest, x.length ≤ s.params.maxStrBytes) → (∀ x ∈ rest, x.length = b.length) →
        ∃ r : List Byte, r.length = b.length ∧
          (∀ p, r.getD p 0#8 = ((b :: rest).map fun x => x.getD p 0#8).foldr (· ^^^ ·) 0#8) ∧
          exec (.serXor (b :: rest)) s = .next (s.answered 0x54000000#32 (packBytes r)))) ∧
    (∀ b : List Byte, b.length ≤ s.params.maxStrBytes →
      exec (.serXor [b]) s = .next (s.answered 0x54000000#32 (packBytes b)) ∧
      exec (.serXor [b, b]) s =
        .next (s.answered 0x54000000#32 (packBytes (List.replicate b.length 0#8))))

/-! ## Encoding -/

/-- A few words of 30_encoding.md R123 and of the worked examples, under the default parameters. -/
def Obligations.WordsDecodeAsTheTableSays : Prop :=
  decode Params.default [0x00000000#32] = .ok .sysNop [] ∧
  decode Params.default [0x02000002#32, 0xDEADBEEF#32, 0x00000001#32] =
    .ok (.sysEcho [0xDEADBEEF#32, 0x00000001#32]) [] ∧
  decode Params.default [0x10000000#32, 0x00000000#32, 0x0000002A#32, 0x00000000#32, 0x41C64E6D#32,
      0x00000000#32, 0x00003039#32, 0x00000000#32, 0x00000000#32, 0x80000000#32] =
    .ok (.lcgInit 0 42#64 1103515245#64 12345#64 (BitVec.ofNat 96 (2 ^ 31))) [] ∧
  decode Params.default [0x21100002#32] = .ok (.mtExtract 1 2#20) [] ∧
  decode Params.default [0x31000008#32] = .ok (.bbsNextBit 0 8#20) [] ∧
  decode Params.default [0x41000005#32, 0x00000002#32, 0xABCD0000#32] =
    .ok (.drbgGenerate 0 5#20 [0xAB#8, 0xCD#8]) [] ∧
  decode Params.default [0x53400000#32, 0x00000000#32, 0x00000001#32, 0x00000000#32, 0x00000006#32] =
    .ok (.serInt (.mt 0) 1#64 6#64) [] ∧
  decode Params.default [0x54000002#32, 0x00000002#32, 0x01020000#32, 0x00000002#32, 0x03030000#32] =
    .ok (.serXor [[0x01#8, 0x02#8], [0x03#8, 0x03#8]]) [] ∧
  decode Params.default [0x60000000#32] = .reject .engReserved

/-- Decoding and encoding agree: the packet of every well-formed instruction, whatever words follow it,
decodes to that instruction and leaves those words. -/
def Obligations.DecodeInvertsEncode : Prop :=
  ∀ (p : Params) (i : Instr) (rest : List Word), p.Legal → i.wellFormed p = true →
    decode p (encode p i ++ rest) = .ok i rest

/-- What decodes is well formed, has the header word it was decoded from, and takes exactly the words of
its packet (R118). -/
def Obligations.DecodedIsWellFormed : Prop :=
  ∀ (p : Params) (h : Word) (ws : List Word) (i : Instr) (rest : List Word), p.Legal →
    decode p (h :: ws) = .ok i rest →
    i.wellFormed p = true ∧ headerOf i = h ∧
      ∃ operands, ws = operands ++ rest ∧ operands.length = (operandsOf p i).length

/-- R122: the conditions that make a header illegal, in terms of its fields; and what an illegal header
does to an idle processor with room in RSP: one step pops it and raises the fault, two write the
response `{h[31:20], 12'b0, 0x07}` with LEN 0, and FAULT is in force, with no operand word read. That
FAULT is in force after exactly these three steps, being part of the last one, is the model's reading
(log 6), and that the sub-state then is empty its choice (log 8); quiet ports are an empty `bus`
(log 1). -/
def Obligations.IllegalHeaderFaults : Prop :=
  ∀ (s : State) (h : Word) (rest : List Word),
    let eng := h.toNat / 2 ^ 28
    let op := h.toNat / 2 ^ 24 % 2 ^ 4
    let inst := h.toNat / 2 ^ 20 % 2 ^ 4
    let arg := h.toNat % 2 ^ 20
    let ninst := [0, s.params.lcgNinst, s.params.mtNinst, s.params.bbsNinst, s.params.drbgNinst]
    let illegal : Prop :=
      6 ≤ eng ∨
      [3, 4, 8, 3, 7, 5].getD eng 0 ≤ op ∨
      ((eng, op) ∈ [(0, 0), (0, 1), (1, 0), (1, 3), (2, 0), (2, 2), (2, 6), (2, 7), (3, 2), (4, 2),
          (4, 4), (4, 5), (4, 6), (5, 3)] ∧ arg ≠ 0) ∨
      ((eng, op) = (1, 1) ∧ arg / 2 ^ 4 ≠ 0) ∨
      ((eng, op) ∈ [(3, 0), (4, 0)] ∧ arg / 2 ≠ 0) ∨
      (eng = 0 ∧ inst ≠ 0) ∨
      (1 ≤ eng ∧ eng ≤ 4 ∧ ninst.getD eng 0 ≤ inst) ∨
      (eng = 5 ∧ op ≠ 4 ∧ (inst / 4 = 3 ∨
        [s.params.lcgNinst, s.params.mtNinst, s.params.bbsNinst].getD (inst / 4) 0 ≤ inst % 4)) ∨
      (eng = 5 ∧ op = 4 ∧ inst ≠ 0)
    (headerReject s.params h ≠ none ↔ illegal) ∧
    (illegal → s.bus = [] → s.mode = .idle → s.fpend = false → s.cmd = h :: rest →
      s.rsp.length + 2 ≤ s.params.rspDepth →
      Host.Core.run Sys2Proof.core 3 s =
        .next { s with
          mode := .fault, hdr := 0#32, ops := [], phase := .operands, pc := s.pc + 1, cmd := []
          rsp := s.rsp ++ [(h &&& 0xFFF00000#32) ||| 0x00000007#32, 0x00000000#32]
          err := { s.err with illegal := true }, faultInfo := h, fpend := false })

/-! ## The processor -/

/-- A step runs the decoded instruction: with a complete packet in EXEC, the step at quiet ports is the
Compute step of the instruction the packet decodes to (R117, R118, R366; the ports: log 1); so it is for
what `withFetchWord` places (log 5). -/
def Obligations.StepRunsDecoded : Prop :=
  ∀ (s : State) (i : Instr) (rest : List Word),
    (s.mode = .exec → s.phase = .operands → decode s.params (s.hdr :: s.ops) = .ok i rest →
      (s.bus = [] → step s = exec i s) ∧
      (∀ later, s.bus = .quiet :: later → step s = exec i { s with bus := later })) ∧
    (∀ nbits w, decode s.params (packetOfBits s.params nbits w) = .ok i rest →
      step (s.withFetchWord nbits w) = exec i (s.withFetchWord nbits w))

/-- R117, R118, R366 and R39 over single steps and over whole runs. The single steps, whatever is still
to happen at the ports, so also for a packet fed to CMD while it is read: from IDLE a legal header is
read and opens its packet; inside EXEC, while the words read so far are not a whole packet, the head
word of CMD is read as the next operand word; each counts in `pc`. The words of a well-formed
instruction's packet are no whole packet until the last is read. The runs: from IDLE at quiet ports,
with the whole packet at the head of CMD, the processor reads exactly the packet's words, one a step,
and the step after the last one is the instruction's Compute step. In the runs the sub-state is
empty in IDLE (log 8) and quiet ports are an empty `bus`, in the single steps also a quiet event
(log 1). While CMD is empty the processor waits: `ProcessorHolds`. -/
def Obligations.PacketIsFetchedWhole : Prop :=
  (∀ (s : State) (later : List BusEvent) (w : Word) (rest : List Word),
    s.quietThen later → s.cmd = w :: rest →
    (s.mode = .idle → s.fpend = false → headerReject s.params w = none →
      step s = .next { s with
        bus := later, mode := .exec, hdr := w, ops := [], phase := .operands, cmd := rest
        pc := s.pc + 1 }) ∧
    (s.mode = .exec → s.phase = .operands →
      decode s.params (s.hdr :: s.ops) = .reject .truncated →
      step s = .next { s with bus := later, ops := s.ops ++ [w], cmd := rest, pc := s.pc + 1 })) ∧
  (∀ (p : Params) (i : Instr) (read todo : List Word),
    p.Legal → i.wellFormed p = true → encode p i = read ++ todo → read ≠ [] → todo ≠ [] →
    headerReject p (headerOf i) = none ∧ decode p read = .reject .truncated) ∧
  ∀ (s : State) (i : Instr) (rest : List Word),
    s.params.Legal → i.wellFormed s.params = true →
    s.bus = [] → s.mode = .idle → s.fpend = false → s.phase = .operands → s.ops = [] →
    s.cmd = encode s.params i ++ rest →
    let fetched : State := { s with
      mode := .exec, hdr := headerOf i, ops := operandsOf s.params i, cmd := rest
      pc := s.pc + (encode s.params i).length }
    Host.Core.run Sys2Proof.core (encode s.params i).length s = .next fetched ∧
    step fetched = exec i fetched

/-- R85, R98, R352 and R366: a response that stands ready is written whole and contiguous, one word a
step, while RSP has room. The single steps, whatever is still to happen at the ports, so also for a
response longer than the room in RSP: with RSP full the response waits; with room for one word, one is
written, and the rest of the response still stands to be written, or the packet ends with its last
word: IDLE, or FAULT with the CMD FIFO emptied if a fault is pending (log 6; the sub-state is then
empty, log 8). The run: with room for all of it at quiet ports, all of it is written. In the run quiet
ports are an empty `bus`, in the single steps also a quiet event (log 1). -/
def Obligations.ResponseIsWrittenWhole : Prop :=
  ∀ (s : State) (written todo : List Word),
    s.mode = .exec → s.phase = .response written todo → todo ≠ [] →
    let ended (s : State) : State :=
      if s.fpend then
        { s with mode := .fault, hdr := 0#32, ops := [], phase := .operands, fpend := false, cmd := [] }
      else { s with mode := .idle, hdr := 0#32, ops := [], phase := .operands }
    (∀ later, s.quietThen later →
      (s.params.rspDepth ≤ s.rsp.length → step s = .next { s with bus := later }) ∧
      (∀ w rest, s.rsp.length < s.params.rspDepth → todo = w :: rest →
        (rest ≠ [] →
          step s = .next { s with
            bus := later, rsp := s.rsp ++ [w], phase := .response (written ++ [w]) rest }) ∧
        (rest = [] → step s = .next (ended { s with bus := later, rsp := s.rsp ++ [w] })))) ∧
    (s.bus = [] → s.rsp.length + todo.length ≤ s.params.rspDepth →
      Host.Core.run Sys2Proof.core todo.length s = .next (ended { s with rsp := s.rsp ++ todo }))

/-- R40, R85, R352 and R353: at quiet ports the processor holds in IDLE and inside an incomplete packet
while CMD is empty, in a draw while ENT is empty, and in FAULT; and from IDLE with a fault pending it
enters FAULT instead of reading a header, as a step of its own (log 6). That the sub-state (header,
operand words, phase) is then empty in FAULT is the model's choice (log 8), R352 naming the mode, FPEND
and CMD only. Quiet ports are an empty `bus` or a quiet event (log 1). -/
def Obligations.ProcessorHolds : Prop :=
  ∀ (s : State) (later : List BusEvent), s.quietThen later →
    let held : Prop := step s = .next { s with bus := later }
    (s.mode = .idle → s.fpend = false → s.cmd = [] → held) ∧
    (s.mode = .exec → s.phase = .operands → s.cmd = [] →
      decode s.params (s.hdr :: s.ops) = .reject .truncated → held) ∧
    (∀ i p q acc, s.mode = .exec → s.phase = .draw i p q acc → s.ent = [] →
      acc.length < ceilDiv (bitlen (p * q)) 32 → held ∧ s.statusWord.getLsbD 3 = true) ∧
    (s.mode = .fault → held) ∧
    (s.mode = .idle → s.fpend = true →
      step s = .next { s with bus := later, mode := .fault, fpend := false, cmd := [], hdr := 0#32
                              ops := [], phase := .operands })

/-- R39 and R370: `pc` counts exactly the words taken from CMD. A reset sets it to 0 and empties CMD
(R390, R391). Any other step takes the head word of CMD and adds one, or takes none and leaves `pc`:
CMD is then as it was, or has grown by the word a host wrote to it (R83), or is emptied because a
pending fault enters FAULT (R352; which steps do so: log 6). A step is a port event or a processor step
(log 1). -/
def Obligations.PcCountsWords : Prop :=
  ∀ s t : State, step s = .next t →
    (s.resetNext → t.pc = 0 ∧ t.cmd = []) ∧
    (¬ s.resetNext →
      (t.pc = s.pc + 1 ∧ s.mode ≠ .fault ∧ ∃ w, s.cmd = w :: t.cmd) ∨
      (t.pc = s.pc ∧
        (t.cmd = s.cmd ∨
          (∃ v rest, s.bus = .access (.write 32 (s.params.blockBase + 0x0C) v) :: rest ∧
            t.cmd = s.cmd ++ [v]) ∨
          (t.cmd = [] ∧ s.fpend = true ∧ s.mode ≠ .fault ∧ t.mode = .fault))))

/-- 30_encoding.md R119 to R123 and the table of 60_exceptions.md R351: every command ends in a complete
response with the copied header fields, its number of data words and OK, or one of its statuses with
LEN 0 and no data; or it is a seedless BBS_INIT whose draw begins (log 7). -/
def Obligations.CommandsAnswerByTheTable : Prop :=
  ∀ (i : Instr) (s : State), ∃ t, exec i s = .next t ∧ t.mode = .exec ∧
    ((∃ data, data.length = okDataLength s i ∧
        t.phase = .response [] (responseWords (headerOf i) .ok data)) ∨
      (∃ st ∈ failures i, t.phase = .response [] (responseWords (headerOf i) st [])) ∨
      ∃ j p q, i = .bbsInit j p q none ∧ t.phase = .draw j p q [])

/-- R356: a command that fails writes no engine state, but for DRBG_RANDOM_INT and SER_INT, and these
too write none when they fail with NotInstantiated or InvalidParameter. -/
def Obligations.FailedCommandsWriteNothing : Prop :=
  ∀ (i : Instr) (s t : State) (st : Status) (data : List Word),
    exec i s = .next t → t.phase = .response [] (responseWords (headerOf i) st data) → st ≠ .ok →
    data = [] ∧
    (keepsFailedDraws i = false ∨ st = .notInstantiated ∨ st = .invalidParameter →
      State.sameEngines s t)

/-- The frame of every command, for all constructors: it writes only the engine instance that `writes`
names, and leaves every other instance, the parameters, the FIFOs, CTRL, ERR, FAULT_INFO, FPEND, `pc`,
the packet and the ports as they are. -/
def Obligations.CommandsWriteOnlyTheirInstance : Prop :=
  ∀ (c : Instr) (s t : State), exec c s = .next t →
    State.sameHostSide s t ∧ t.pc = s.pc ∧ t.hdr = s.hdr ∧ t.ops = s.ops ∧
    ∀ i : Inst,
      (writes c ≠ some (.lcg i) → t.lcg[i] = s.lcg[i]) ∧
      (writes c ≠ some (.mt i) → t.mt[i] = s.mt[i]) ∧
      (writes c ≠ some (.bbs i) → t.bbs[i] = s.bbs[i]) ∧
      (writes c ≠ some (.drbg i) → t.drbg[i] = s.drbg[i])

/-! ## The host's side, faults and reset -/

/-- R390: what the reset input leaves, for every value of the parameters, and what the registers then
read. The parameters stay, MT_RAM_INIT among them (log 2, log 9). That the empty sub-state holds the
header 0, and that a slot at or above an instance count holds the reset values too, is the model's
choice (log 8). The reset input is a port event (log 1). -/
def Obligations.HardResetLeaves : Prop :=
  ∀ (s : State) (later : List BusEvent), s.bus = .hardReset :: later →
    ∃ t, step s = .next t ∧
      t.mode = .idle ∧ t.hdr = 0#32 ∧ t.ops = [] ∧ t.phase = .operands ∧ t.fpend = false ∧ t.pc = 0 ∧
      t.cmd = [] ∧ t.rsp = [] ∧ t.ent = [] ∧ t.ie = false ∧ t.faultInfo = 0#32 ∧
      t.params = s.params ∧
      (t.readReg 0x00).1 = 0x54585207#32 ∧ (t.readReg 0x04).1 = 0#32 ∧
      (s.params.Legal →
        (t.readReg 0x08).1 = BitVec.ofNat 32 (min 255 s.params.cmdDepth * 2 ^ 16)) ∧
      (t.readReg 0x18).1 = 0#32 ∧ t.irq = false ∧
      ∀ i : Inst,
        t.lcg[i] = { valid := false, value := 0, a := 0, c := 0, m := 0 } ∧
        t.mt[i] = { valid := false, w := s.params.mtRamInit[i], cur := 624#10 } ∧
        t.bbs[i] = { valid := false, x := 0, n := 0, p := 0, q := 0 } ∧
        t.drbg[i] = { inst := false, variant := .hmac, v := Vector.replicate 55 0#8
                      k := Vector.replicate 55 0#8, ctr := 0#32, interval := 10000#32 } ∧
        t.drbg[i].state = .uninstantiated

/-- R391: a write of v to CTRL with bit 0 set resets the block in one step, from any state and whatever
packet is in execution, except that the MT words stay and IE is v[1]. That the words stay, as the
rule's text has it, where 93_implementation_defined.md item 3 leaves them unchanged or not, is the
model's reading (log 9); the header 0 of the empty sub-state, and the slots at or above an instance
count, are its choice (log 8). The write is the next port event and its reply goes to `busOut` (log 1). -/
def Obligations.SoftResetLeaves : Prop :=
  ∀ (s : State) (v : Word) (later : List BusEvent),
    s.bus = .access (.write 32 (s.params.blockBase + 0x04) v) :: later → v.getLsbD 0 = true →
    step s = .next
      { State.resetOf s.params with
        ie := v.getLsbD 1
        mt := Vector.ofFn fun i : Fin 4 => { valid := false, w := s.mt[i].w, cur := 624#10 }
        bus := later, busOut := s.busOut ++ [.done] }

/-- R80, R81 and R359: which host accesses are performed and what each does. A read of RSP is the only
read that changes the block; writes to ID, STATUS, RSP and FAULT_INFO are ignored; any other width or
alignment gets the bus's error response and changes nothing. That the response names the host's byte
address, and not the offset, is the model's choice (log 13). Replies go to `busOut` (log 1). -/
def Obligations.RegisterAccesses : Prop :=
  ∀ (s : State) (off bits : Nat) (v : Word), off < 0x20 →
    let at_ := s.params.blockBase + off
    let after (a : Access) := busAccess a s
    (∀ a later, s.bus = .access a :: later → step s = busAccess a { s with bus := later }) ∧
    (bits ≠ 32 ∨ off % 4 ≠ 0 →
      after (.read bits at_) = .next { s with busOut := s.busOut ++ [.error at_] } ∧
      after (.write bits at_ v) = .next { s with busOut := s.busOut ++ [.error at_] }) ∧
    (off % 4 = 0 → off ≠ 0x10 →
      after (.read 32 at_) = .next { s with busOut := s.busOut ++ [.data (
        if off = 0x00 then 0x54585207#32
        else if off = 0x04 then (if s.ie then 2#32 else 0#32)
        else if off = 0x08 then s.statusWord
        else if off = 0x18 then
          BitVec.ofNat 32 (s.err.cmdOvf.toNat + 2 * s.err.rspUdf.toNat + 4 * s.err.entOvf.toNat +
            8 * s.err.illegal.toNat)
        else if off = 0x1C then s.faultInfo
        else 0#32)] }) ∧
    (off ∈ [0x00, 0x08, 0x10, 0x1C] →
      after (.write 32 at_ v) = .next { s with busOut := s.busOut ++ [.done] }) ∧
    (off = 0x04 → v.getLsbD 0 = false →
      after (.write 32 at_ v) = .next { s with ie := v.getLsbD 1, busOut := s.busOut ++ [.done] }) ∧
    (off = 0x18 →
      after (.write 32 at_ v) = .next { s with
        err := { s.err with rspUdf := s.err.rspUdf && !v.getLsbD 1
                            entOvf := s.err.entOvf && !v.getLsbD 2 }
        busOut := s.busOut ++ [.done] })

/-- R83, R84 and R86, the accesses to the three FIFOs. A write to CMD is discarded in FAULT or with a
fault pending; else, with the FIFO full, it is dropped and raises the CMD overflow; else it is
appended. A write to ENT is appended, or dropped with ENT_OVF set when the FIFO is full. A read of RSP
takes the head word, or returns 0 with RSP_UDF set when the FIFO is empty. Nothing else changes, and
the last two do the same in every mode. Replies go to `busOut` (log 1). -/
def Obligations.FifoAccesses : Prop :=
  ∀ (s : State) (v : Word),
    let cmdWrite := busAccess (.write 32 (s.params.blockBase + 0x0C) v) s
    let entWrite := busAccess (.write 32 (s.params.blockBase + 0x14) v) s
    let rspRead := busAccess (.read 32 (s.params.blockBase + 0x10)) s
    (s.mode = .fault ∨ s.fpend = true →
      cmdWrite = .next { s with busOut := s.busOut ++ [.done] }) ∧
    (s.mode ≠ .fault → s.fpend = false → s.params.cmdDepth ≤ s.cmd.length →
      cmdWrite = .next { s with err := { s.err with cmdOvf := true }, faultInfo := v, fpend := true
                                busOut := s.busOut ++ [.done] }) ∧
    (s.mode ≠ .fault → s.fpend = false → s.cmd.length < s.params.cmdDepth →
      cmdWrite = .next { s with cmd := s.cmd ++ [v], busOut := s.busOut ++ [.done] }) ∧
    (s.params.entDepth ≤ s.ent.length →
      entWrite =
        .next { s with err := { s.err with entOvf := true }, busOut := s.busOut ++ [.done] }) ∧
    (s.ent.length < s.params.entDepth →
      entWrite = .next { s with ent := s.ent ++ [v], busOut := s.busOut ++ [.done] }) ∧
    (s.rsp = [] →
      rspRead = .next { s with err := { s.err with rspUdf := true }
                               busOut := s.busOut ++ [.data 0x00000000#32] }) ∧
    (∀ w rest, s.rsp = w :: rest →
      rspRead = .next { s with rsp := rest, busOut := s.busOut ++ [.data w] })

/-- R33 and R360: every field of STATUS, its reserved bits, and the interrupt line, in terms of the
state. The processor is in `EntRead()`, for ENT_WAIT, when a draw lacks words of its candidate (R232),
and nowhere else. -/
def Obligations.StatusFields : Prop :=
  ∀ s : State,
    let w := s.statusWord
    w.getLsbD 0 = decide (s.cmd ≠ [] ∨ (s.mode ≠ .idle ∧ s.mode ≠ .fault)) ∧
    w.getLsbD 1 = decide (s.params.cmdDepth ≤ s.cmd.length) ∧
    w.getLsbD 2 = decide (s.rsp ≠ []) ∧
    (w.getLsbD 3 = true ↔ s.mode = .exec ∧ s.ent = [] ∧
      ∃ i p q acc, s.phase = .draw i p q acc ∧ acc.length < ceilDiv (bitlen (p * q)) 32) ∧
    w.getLsbD 4 = decide (s.mode = .fault ∨ s.fpend = true) ∧
    w.getLsbD 5 = decide (s.params.entDepth ≤ s.ent.length) ∧
    w.extractLsb' 6 2 = 0#2 ∧
    w.extractLsb' 8 2 = (if s.drbg[0].inst = false then 0#2
      else if s.drbg[0].interval.toNat < s.drbg[0].ctr.toNat then 2#2 else 1#2) ∧
    w.extractLsb' 10 6 = 0#6 ∧
    (w.extractLsb' 16 8).toNat = min 255 (s.params.cmdDepth - s.cmd.length) ∧
    (w.extractLsb' 24 8).toNat = min 255 s.rsp.length ∧
    s.irq = (s.ie && (w.getLsbD 2 || w.getLsbD 4))

/-- R353, R355 and R392: in FAULT only a reset changes the mode, the engines, `pc`, CMD, FAULT_INFO or
the bits of ERR that name a fault; at quiet ports (log 1) nothing changes. -/
def Obligations.OnlyResetLeavesFault : Prop :=
  ∀ s t : State, s.mode = .fault → step s = .next t → ¬ s.resetNext →
    t.mode = .fault ∧ State.sameEngines s t ∧ t.pc = s.pc ∧ t.cmd = s.cmd ∧
    t.faultInfo = s.faultInfo ∧ t.err.illegal = s.err.illegal ∧ t.err.cmdOvf = s.err.cmdOvf ∧
    (∀ rest, s.bus = [] ∨ s.bus = .quiet :: rest → t = { s with bus := t.bus })

/-- R82, the host keeping to the window: then every step goes on. (Outside the window the model stops
with `outsideWindow`, log 4; the ports: log 1.) -/
def Obligations.StepsGoOn : Prop :=
  ∀ s : State, (∀ e rest, s.bus = e :: rest → keepsToWindow s.params e) → goesOn (step s)

/-! ## Invariants and what cannot be seen -/

/-- The state after reset meets the invariant, its clauses on the empty sub-state and on the slots at or
above an instance count being the model's choice (log 8). `State.reset` has the default parameters,
with the model's values for the two that R10 leaves without one (log 2). -/
def Obligations.ResetMeetsInvariant : Prop := Inv State.reset

/-- Every step keeps the invariant: legal parameters, FIFO bounds, the legal values of every engine
register, an empty sub-state outside a packet, and what holds of a fault. What the sub-state holds
outside a packet and what the slots at or above an instance count hold is the model's choice (log 8);
the zero bytes 32 to 54 of an HMAC instance are R266's (log 10). -/
def Obligations.StepKeepsInvariant : Prop :=
  ∀ s t : State, Inv s → step s = .next t → Inv t

/-- R46, R47 and R391: reset leaves VALID 0, CUR 624 and the words of MT_RAM_INIT; and no step shows
the words of a bank that is not valid, nor what a hard reset puts there: two states that differ only in
them step to two such states, with the same replies at the bus (the ports: log 1; that a hard reset
reloads MT_RAM_INIT: log 9). -/
def Obligations.UnseenWordsStayUnseen : Prop :=
  (∀ (p : Params) (i : Inst),
    (State.resetOf p).mt[i] = { valid := false, w := p.mtRamInit[i], cur := 624#10 }) ∧
  ∀ s t s' : State, State.sameButUnseenWords s t → step s = .next s' →
    ∃ t', step t = .next t' ∧ State.sameButUnseenWords s' t' ∧ t'.busOut = s'.busOut ∧
      t'.rsp = s'.rsp ∧ t'.irq = s'.irq
end

