-- ==== Sys2Proof/Laws/Packing.lean ====
section
/-! SUPPORT. What the packings of 20_memory.md R89 to R93 and the operand readers of 30_encoding.md R114
do, once each: lengths, and that reading what was written gives it back. -/

namespace Sys2Proof.Machine

theorem ceilDiv_zero (b : Nat) (h : 0 < b) : ceilDiv 0 b = 0 := by
  simp only [ceilDiv, Nat.zero_add]
  exact Nat.div_eq_of_lt (by omega)

/-! ### Drawing -/

@[simp] theorem drawN_length {σ α : Type} (f : σ → α × σ) (n : Nat) (s : σ) :
    (drawN f n s).1.length = n := by
  induction n generalizing s with
  | zero => rfl
  | succ n ih => simp [drawN, ih]

/-- Drawing `m + n` is drawing `m` and then `n`. -/
theorem drawN_add {σ α : Type} (f : σ → α × σ) (m n : Nat) (s : σ) :
    drawN f (m + n) s =
      ((drawN f m s).1 ++ (drawN f n (drawN f m s).2).1, (drawN f n (drawN f m s).2).2) := by
  induction m generalizing s with
  | zero => simp [drawN]
  | succ m ih => simp [Nat.succ_add, drawN, ih]

/-- What every draw keeps, `n` draws keep. -/
theorem drawN_keeps {σ α : Type} (f : σ → α × σ) (P : σ → Prop) (h : ∀ s, P s → P (f s).2)
    (n : Nat) (s : σ) (hs : P s) : P (drawN f n s).2 := by
  induction n generalizing s with
  | zero => exact hs
  | succ n ih => exact ih _ (h s hs)

/-! ### Integers in words -/

@[simp] theorem wordsOfNat_length (k x : Nat) : (wordsOfNat k x).length = k := by
  induction k with
  | zero => rfl
  | succ k ih => simp [wordsOfNat, ih]

theorem natOfWords_foldl (ws : List Word) (acc : Nat) :
    ws.foldl (fun acc w => acc * 2 ^ 32 + w.toNat) acc =
      acc * 2 ^ (32 * ws.length) + natOfWords ws := by
  induction ws generalizing acc with
  | nil => simp [natOfWords]
  | cons w ws ih =>
    rw [List.foldl_cons, ih]
    conv_rhs => rw [natOfWords, List.foldl_cons, ih]
    simp only [List.length_cons, Nat.zero_mul, Nat.zero_add]
    have e : 32 * (ws.length + 1) = 32 + 32 * ws.length := by omega
    rw [e, Nat.pow_add]
    ring

theorem natOfWords_cons (w : Word) (ws : List Word) :
    natOfWords (w :: ws) = w.toNat * 2 ^ (32 * ws.length) + natOfWords ws := by
  rw [natOfWords, List.foldl_cons, natOfWords_foldl]
  simp

/-- Reading back `k` words gives the number modulo `2^(32 k)` (R91). -/
theorem natOfWords_wordsOfNat (k x : Nat) : natOfWords (wordsOfNat k x) = x % 2 ^ (32 * k) := by
  induction k with
  | zero => simp [wordsOfNat, natOfWords, Nat.mod_one]
  | succ k ih =>
    rw [wordsOfNat, natOfWords_cons, ih, wordsOfNat_length, BitVec.toNat_ofNat,
      Nat.shiftRight_eq_div_pow]
    have e : 32 * (k + 1) = 32 * k + 32 := by omega
    rw [e, Nat.pow_add, Nat.mod_mul (x := x) (a := 2 ^ (32 * k)) (b := 2 ^ 32)]
    ring

/-! ### Operand readers -/

theorem readWords_append (ws rest : List Word) :
    readWords ws.length (ws ++ rest) = some (ws, rest) := by
  simp [readWords]

theorem readNat_append (k x : Nat) (rest : List Word) (h : x < 2 ^ (32 * k)) :
    readNat k (wordsOfNat k x ++ rest) = some (x, rest) := by
  have e := readWords_append (wordsOfNat k x) rest
  rw [wordsOfNat_length] at e
  simp [readNat, e, natOfWords_wordsOfNat, Nat.mod_eq_of_lt h]

theorem read64_append (v : Word64) (rest : List Word) :
    read64 (write64 v ++ rest) = some (v, rest) := by
  have h := readNat_append 2 v.toNat rest (by have := v.isLt; omega)
  simp [read64, write64, h]

theorem readM65_append (m : BitVec 96) (rest : List Word) :
    readM65 (writeM65 m ++ rest) = some (m, rest) := by
  have h := readNat_append 3 m.toNat rest (by have := m.isLt; omega)
  simp [readM65, writeM65, h]

theorem readBigH_append (p : Params) (x : Nat) (rest : List Word) (hw : p.bbsW % 64 = 0)
    (h : x < 2 ^ (p.bbsW / 2)) : readBigH p (writeBigH p x ++ rest) = some (x, rest) :=
  readNat_append _ _ _ (by
    have e : 32 * (p.bbsW / 64) = p.bbsW / 2 := by omega
    rw [e]; exact h)

theorem readBigN_append (p : Params) (x : Nat) (rest : List Word) (hw : p.bbsW % 64 = 0)
    (h : x < 2 ^ p.bbsW) : readBigN p (writeBigN p x ++ rest) = some (x, rest) :=
  readNat_append _ _ _ (by
    have e : 32 * (p.bbsW / 32) = p.bbsW := by omega
    rw [e]; exact h)

/-! ### Byte strings -/

/-- The number of words of a packed string (R90). -/
@[simp] theorem packBytes_length (b : List Byte) : (packBytes b).length = ceilDiv b.length 4 := by
  induction b using packBytes.induct with
  | case1 => simp [packBytes, ceilDiv]
  | case2 a => simp [packBytes, ceilDiv]
  | case3 a b => simp [packBytes, ceilDiv]
  | case4 a b c => simp [packBytes, ceilDiv]
  | case5 a b c d rest ih => simp only [packBytes, List.length_cons, ih, ceilDiv]; omega

theorem wordBytes_word4 (a b c d : Byte) : wordBytes (word4 a b c d) = [a, b, c, d] := by
  simp only [wordBytes, word4, List.cons.injEq, and_true]
  refine ⟨?_, ?_, ?_, ?_⟩ <;> ext i hi <;> interval_cases i <;> simp

/-- The bytes of a packed string are the string, then padding (R90, R93). -/
theorem unpackBytes_packBytes (b : List Byte) : unpackBytes b.length (packBytes b) = b := by
  induction b using packBytes.induct with
  | case1 => rfl
  | case2 a => simp [unpackBytes, packBytes, wordBytes_word4]
  | case3 a b => simp [unpackBytes, packBytes, wordBytes_word4]
  | case4 a b c => simp [unpackBytes, packBytes, wordBytes_word4]
  | case5 a b c d rest ih =>
    simp only [unpackBytes, packBytes, List.flatMap_cons, wordBytes_word4, List.length_cons] at ih ⊢
    simp [ih]

/-- A string that fits its length word reads back (R114, R116). -/
theorem readStr_append (b : List Byte) (rest : List Word) (h : b.length < 2 ^ 32) :
    readStr (writeStr b ++ rest) = some (b, rest) := by
  have e : (BitVec.ofNat 32 b.length).toNat = b.length := by
    rw [BitVec.toNat_ofNat]; exact Nat.mod_eq_of_lt h
  have r := readWords_append (packBytes b) rest
  rw [packBytes_length] at r
  simp [readStr, writeStr, e, r, unpackBytes_packBytes]

theorem readStrs_append (ss : List (List Byte)) (rest : List Word)
    (h : ∀ b ∈ ss, b.length < 2 ^ 32) :
    readStrs ss.length (ss.flatMap writeStr ++ rest) = some (ss, rest) := by
  induction ss with
  | nil => rfl
  | cons b ss ih =>
    have hb := readStr_append b (ss.flatMap writeStr ++ rest) (h b (by simp))
    have hs := ih fun x hx => h x (by simp [hx])
    simp [readStrs, List.append_assoc, hb, hs]

/-! ### Bit strings -/

@[simp] theorem packBitsIn_length (k : Nat) (bs : List Bool) : (packBitsIn k bs).length = k := by
  induction k generalizing bs with
  | zero => rfl
  | succ k ih => simp [packBitsIn, ih]

/-- The number of words of a packed bit string (R92). -/
@[simp] theorem packBits_length (bs : List Bool) :
    (packBits bs).length = ceilDiv bs.length 32 := by
  simp [packBits]

@[simp] theorem byteBits_length (b : Byte) : (byteBits b).length = 8 := by
  simp [byteBits]

@[simp] theorem bytesBits_length (b : List Byte) : (bytesBits b).length = 8 * b.length := by
  induction b with
  | nil => rfl
  | cons x b ih =>
    have e : bytesBits (x :: b) = byteBits x ++ bytesBits b := rfl
    rw [e, List.length_append, byteBits_length, ih, List.length_cons]
    omega

@[simp] theorem bytesOfNat_length (k x : Nat) : (bytesOfNat k x).length = k := by
  induction k with
  | zero => rfl
  | succ k ih => simp [bytesOfNat, ih]

end Sys2Proof.Machine

namespace Sys2Proof

/-! ### The header's fields -/

@[simp] theorem engOf_header (e o i : BitVec 4) (a : BitVec 20) : engOf (header e o i a) = e := by
  ext k hk
  interval_cases k <;> simp [engOf, header]

@[simp] theorem opOf_header (e o i : BitVec 4) (a : BitVec 20) : opOf (header e o i a) = o := by
  ext k hk
  interval_cases k <;> simp [opOf, header]

@[simp] theorem instOf_header (e o i : BitVec 4) (a : BitVec 20) : instOf (header e o i a) = i := by
  ext k hk
  interval_cases k <;> simp [instOf, header]

@[simp] theorem argOf_header (e o i : BitVec 4) (a : BitVec 20) : argOf (header e o i a) = a := by
  ext k hk
  interval_cases k <;> simp [argOf, header]

/-- A header word is its four fields. -/
theorem header_of_fields (h : Word) : header (engOf h) (opOf h) (instOf h) (argOf h) = h := by
  ext k hk
  interval_cases k <;> simp [header, engOf, opOf, instOf, argOf]

@[simp] theorem instIndex_header (e o : BitVec 4) (i : Inst) (a : BitVec 20) :
    instIndex (header e o (instNibble i) a) = i := by
  simp only [instIndex, instOf_header, instNibble]
  revert i; decide

@[simp] theorem srcOf_header (e o : BitVec 4) (src : Src) (a : BitVec 20) :
    srcOf (header e o (srcNibble src) a) = src := by
  simp only [srcOf, instIndex, instOf_header]
  cases src with
  | lcg j => revert j; decide
  | mt j => revert j; decide
  | bbs j => revert j; decide

end Sys2Proof
end

