-- ==== Sys2Proof/Laws/Bits.lean ====
section
/-! SUPPORT. Bit strings and byte strings as numbers: what the packing functions of
Machine/Packing.lean (20_memory.md R90 to R92) do to the number a string stands for. -/

namespace Sys2Proof.Machine

/-! ### Bit strings -/

theorem natOfBits_foldl (bs : List Bool) (acc : Nat) :
    bs.foldl (fun a b => 2 * a + b.toNat) acc = acc * 2 ^ bs.length + natOfBits bs := by
  induction bs generalizing acc with
  | nil => simp [natOfBits]
  | cons b bs ih =>
    rw [List.foldl_cons, ih]
    conv_rhs => rw [natOfBits, List.foldl_cons, ih]
    simp only [List.length_cons, Nat.pow_succ]; ring

/-- The first bit is the most significant. -/
theorem natOfBits_cons (b : Bool) (bs : List Bool) :
    natOfBits (b :: bs) = b.toNat * 2 ^ bs.length + natOfBits bs := by
  rw [natOfBits, List.foldl_cons, natOfBits_foldl]; simp

theorem natOfBits_lt (bs : List Bool) : natOfBits bs < 2 ^ bs.length := by
  induction bs with
  | nil => simp [natOfBits]
  | cons b bs ih =>
    rw [natOfBits_cons, List.length_cons, Nat.pow_succ]
    cases b <;> simp <;> omega

theorem natOfBits_append (a b : List Bool) :
    natOfBits (a ++ b) = natOfBits a * 2 ^ b.length + natOfBits b := by
  rw [natOfBits, List.foldl_append, natOfBits_foldl]; rfl

/-- Bit t of a string, counted from the front, is bit `length - 1 - t` of its number. -/
theorem natOfBits_testBit (bs : List Bool) (t : Nat) (h : t < bs.length) :
    (natOfBits bs).testBit (bs.length - 1 - t) = bs[t] := by
  induction bs generalizing t with
  | nil => simp at h
  | cons b bs ih =>
    rw [natOfBits_cons, Nat.mul_comm]
    rw [Nat.testBit_two_pow_mul_add _ (natOfBits_lt bs)]
    cases t with
    | zero => cases b <;> simp
    | succ t =>
      have h' : t < bs.length := by simpa using h
      rw [if_pos (by simp; omega)]
      simp only [List.length_cons, List.getElem_cons_succ]
      rw [← ih t h']; congr 1; omega

/-- Bit t of up to 32 bits stands in bit `31 - t` of their word (R92). -/
theorem wordOfBits_bit (bs : List Bool) (h : bs.length ≤ 32) (t : Nat) (ht : t < 32) :
    (wordOfBits bs).getLsbD (31 - t) = bs.getD t false := by
  simp only [wordOfBits, BitVec.getLsbD_ofNat]
  rw [Nat.testBit_shiftLeft]
  simp only [show 31 - t < 32 by omega, decide_true, Bool.true_and]
  by_cases c : t < bs.length
  · simp only [show 31 - t ≥ 32 - bs.length by omega, decide_true, Bool.true_and]
    rw [show 31 - t - (32 - bs.length) = bs.length - 1 - t by omega, natOfBits_testBit bs t c]
    simp [c]
  · simp only [show ¬ (31 - t ≥ 32 - bs.length) by omega, decide_false, Bool.false_and]
    simp [List.getD, c]

theorem natOfWords_lt (ws : List Word) : natOfWords ws < 2 ^ (32 * ws.length) := by
  induction ws with
  | nil => simp [natOfWords]
  | cons b bs ih =>
    rw [natOfWords_cons, List.length_cons, show 32 * (bs.length+1) = 32 * bs.length + 32 by omega,
        Nat.pow_add]
    have := b.isLt
    nlinarith

/-- The number of a packed bit string is its own, shifted past the padding (R92). -/
theorem natOfWords_packIn (k : Nat) (bs : List Bool) (h : bs.length ≤ 32 * k) :
    natOfWords (packBitsIn k bs) = natOfBits bs * 2 ^ (32 * k - bs.length) := by
  induction k generalizing bs with
  | zero =>
    have : bs = [] := List.length_eq_zero_iff.1 (by omega)
    subst this; rfl
  | succ k ih =>
    rw [packBitsIn, natOfWords_cons, packBitsIn_length, ih _ (by simp; omega)]
    have w : (wordOfBits (bs.take 32)).toNat =
        natOfBits (bs.take 32) * 2 ^ (32 - (bs.take 32).length) := by
      simp only [wordOfBits, BitVec.toNat_ofNat, Nat.shiftLeft_eq]
      apply Nat.mod_eq_of_lt
      have a := natOfBits_lt (bs.take 32)
      have b : (bs.take 32).length ≤ 32 := by simp
      calc _ < 2 ^ (bs.take 32).length * 2 ^ (32 - (bs.take 32).length) :=
          Nat.mul_lt_mul_of_pos_right a (Nat.two_pow_pos _)
        _ = 2 ^ 32 := by rw [← Nat.pow_add]; congr 1; omega
    rw [w]
    conv_rhs => rw [← List.take_append_drop 32 bs, natOfBits_append]
    simp only [List.length_append, List.length_take, List.length_drop]
    by_cases c : 32 ≤ bs.length
    · rw [show 32 - min 32 bs.length = 0 by omega]
      rw [show 32 * (k+1) - (min 32 bs.length + (bs.length - 32)) = 32 * k - (bs.length - 32) by omega]
      rw [Nat.add_mul, Nat.mul_assoc, Nat.mul_assoc, ← Nat.pow_add, ← Nat.pow_add]
      congr 3; omega
    · rw [List.drop_eq_nil_of_le (by omega)]
      simp only [natOfBits, List.foldl_nil, Nat.zero_mul, Nat.add_zero]
      rw [Nat.mul_assoc, Nat.mul_assoc, ← Nat.pow_add, ← Nat.pow_add]
      congr 2; omega

theorem leadingBits_pack (bs : List Bool) : leadingBits bs.length (packBits bs) = natOfBits bs := by
  have h : bs.length ≤ 32 * ceilDiv bs.length 32 := by simp only [ceilDiv]; omega
  simp only [leadingBits, packBits]
  rw [natOfWords_packIn _ _ h, packBitsIn_length, Nat.shiftRight_eq_div_pow,
      Nat.mul_div_cancel _ (Nat.two_pow_pos _)]

theorem bitlen_le (r k : Nat) (h : r < 2 ^ k) : bitlen r ≤ k := by
  simp only [bitlen]; split
  · omega
  · next c => have := (Nat.log2_lt c).2 h; omega

theorem bitlen_pos (r : Nat) (h : 0 < r) : 0 < bitlen r := by
  simp only [bitlen]; split <;> omega

/-! ### Byte strings -/

theorem flatMap_wordBytes_length (ws : List Word) : (ws.flatMap wordBytes).length = 4 * ws.length := by
  induction ws with
  | nil => rfl
  | cons w ws ih => simp only [List.flatMap_cons, List.length_append, ih,
      List.length_cons]; simp [wordBytes]; omega

/-- Byte p of a list of words (R90). -/
theorem wordsBytes_get (ws : List Word) (p : Nat) (h : p < 4 * ws.length) :
    (ws.flatMap wordBytes).getD p 0#8 = (ws.getD (p / 4) 0#32).extractLsb' (24 - 8 * (p % 4)) 8 := by
  induction ws generalizing p with
  | nil => simp at h
  | cons w ws ih =>
    rw [List.flatMap_cons]
    by_cases c : p < 4
    · interval_cases p <;> simp [wordBytes]
    · have := ih (p-4) (by simp at h; omega)
      rw [show p / 4 = (p-4)/4 + 1 by omega, show p % 4 = (p-4) % 4 by omega, List.getD_cons_succ,
          ← this]
      rw [List.getD_append_right _ _ _ _ (by simp [wordBytes]; omega)]
      simp [wordBytes]

theorem natOfBytes_foldl (bs : List Byte) (acc : Nat) :
    bs.foldl (fun acc w => acc * 2 ^ 8 + w.toNat) acc = acc * 2 ^ (8 * bs.length) + natOfBytes bs := by
  induction bs generalizing acc with
  | nil => simp [natOfBytes]
  | cons w ws ih =>
    rw [List.foldl_cons, ih]
    conv_rhs => rw [natOfBytes, List.foldl_cons, ih]
    simp only [List.length_cons, Nat.zero_mul, Nat.zero_add]
    have e : 8 * (ws.length + 1) = 8 + 8 * ws.length := by omega
    rw [e, Nat.pow_add]; ring

/-- The first byte is the most significant (00_scope.md R15). -/
theorem natOfBytes_cons (w : Byte) (ws : List Byte) :
    natOfBytes (w :: ws) = w.toNat * 2 ^ (8 * ws.length) + natOfBytes ws := by
  rw [natOfBytes, List.foldl_cons, natOfBytes_foldl]; simp

theorem natOfBytes_lt (bs : List Byte) : natOfBytes bs < 2 ^ (8 * bs.length) := by
  induction bs with
  | nil => simp [natOfBytes]
  | cons b bs ih =>
    rw [natOfBytes_cons, List.length_cons, show 8 * (bs.length+1) = 8 * bs.length + 8 by omega,
        Nat.pow_add]
    have := b.isLt
    nlinarith

/-- `BE(BE_k(x)) = x mod 2^(8k)` (R15). -/
theorem natOfBytes_bytesOfNat (k x : Nat) : natOfBytes (bytesOfNat k x) = x % 2 ^ (8 * k) := by
  induction k with
  | zero => simp [bytesOfNat, natOfBytes, Nat.mod_one]
  | succ k ih =>
    rw [bytesOfNat, natOfBytes_cons, ih, bytesOfNat_length, BitVec.toNat_ofNat,
      Nat.shiftRight_eq_div_pow]
    have e : 8 * (k + 1) = 8 * k + 8 := by omega
    rw [e, Nat.pow_add, Nat.mod_mul (x := x) (a := 2 ^ (8 * k)) (b := 2 ^ 8)]
    ring

theorem bytesOfNat_natOfBytes (bs : List Byte) : bytesOfNat bs.length (natOfBytes bs) = bs := by
  have aux : ∀ (k x y : Nat), x % 2 ^ (8*k) = y % 2 ^ (8*k) → bytesOfNat k x = bytesOfNat k y := by
    intro k
    induction k with
    | zero => intros; rfl
    | succ k ih =>
      intro x y h
      have e : 8 * (k + 1) = 8 * k + 8 := by omega
      rw [e, Nat.pow_add, Nat.mod_mul, Nat.mod_mul] at h
      have l1 := Nat.mod_lt x (Nat.two_pow_pos (8*k))
      have l2 := Nat.mod_lt y (Nat.two_pow_pos (8*k))
      have h1 : x % 2 ^ (8*k) = y % 2 ^ (8*k) := by
        have := congrArg (· % 2 ^ (8*k)) h
        simpa [Nat.add_mul_mod_self_left, Nat.mod_mod] using this
      have h2 : x / 2 ^ (8*k) % 2 ^ 8 = y / 2 ^ (8*k) % 2 ^ 8 := by
        rw [h1] at h
        exact Nat.eq_of_mul_eq_mul_left (Nat.two_pow_pos (8*k)) (Nat.add_left_cancel h)
      simp only [bytesOfNat, ih x y h1, List.cons.injEq, and_true]
      apply BitVec.eq_of_toNat_eq
      simpa [Nat.shiftRight_eq_div_pow] using h2
  induction bs with
  | nil => rfl
  | cons b bs ih =>
    rw [natOfBytes_cons, List.length_cons, bytesOfNat]
    congr 1
    · apply BitVec.eq_of_toNat_eq
      rw [BitVec.toNat_ofNat, Nat.shiftRight_eq_div_pow, Nat.add_comm,
          Nat.add_mul_div_right _ _ (Nat.two_pow_pos _),
        Nat.div_eq_of_lt (natOfBytes_lt bs)]
      have := b.isLt
      omega
    · conv_rhs => rw [← ih]
      apply aux
      simp [Nat.add_mod]

end Sys2Proof.Machine
end

