-- ==== Sys2Proof/Laws/State.lean ====
section
/-! SUPPORT. What each state update leaves in each field, one lemma per field per update, all true by
definition; no later proof unfolds an update. -/

namespace Sys2Proof.Machine

variable (s : State)

/-! ### `State.setLcg` -/

@[simp] theorem State.setLcg_params (i : Inst) (x : Lcg) : (s.setLcg i x).params = s.params := rfl
@[simp] theorem State.setLcg_mode (i : Inst) (x : Lcg) : (s.setLcg i x).mode = s.mode := rfl
@[simp] theorem State.setLcg_hdr (i : Inst) (x : Lcg) : (s.setLcg i x).hdr = s.hdr := rfl
@[simp] theorem State.setLcg_ops (i : Inst) (x : Lcg) : (s.setLcg i x).ops = s.ops := rfl
@[simp] theorem State.setLcg_phase (i : Inst) (x : Lcg) : (s.setLcg i x).phase = s.phase := rfl
@[simp] theorem State.setLcg_fpend (i : Inst) (x : Lcg) : (s.setLcg i x).fpend = s.fpend := rfl
@[simp] theorem State.setLcg_pc (i : Inst) (x : Lcg) : (s.setLcg i x).pc = s.pc := rfl
@[simp] theorem State.setLcg_cmd (i : Inst) (x : Lcg) : (s.setLcg i x).cmd = s.cmd := rfl
@[simp] theorem State.setLcg_rsp (i : Inst) (x : Lcg) : (s.setLcg i x).rsp = s.rsp := rfl
@[simp] theorem State.setLcg_ent (i : Inst) (x : Lcg) : (s.setLcg i x).ent = s.ent := rfl
@[simp] theorem State.setLcg_ie (i : Inst) (x : Lcg) : (s.setLcg i x).ie = s.ie := rfl
@[simp] theorem State.setLcg_err (i : Inst) (x : Lcg) : (s.setLcg i x).err = s.err := rfl
@[simp] theorem State.setLcg_faultInfo (i : Inst) (x : Lcg) :
    (s.setLcg i x).faultInfo = s.faultInfo := rfl
@[simp] theorem State.setLcg_lcg (i : Inst) (x : Lcg) : (s.setLcg i x).lcg = s.lcg.set i x := rfl
@[simp] theorem State.setLcg_mt (i : Inst) (x : Lcg) : (s.setLcg i x).mt = s.mt := rfl
@[simp] theorem State.setLcg_bbs (i : Inst) (x : Lcg) : (s.setLcg i x).bbs = s.bbs := rfl
@[simp] theorem State.setLcg_drbg (i : Inst) (x : Lcg) : (s.setLcg i x).drbg = s.drbg := rfl
@[simp] theorem State.setLcg_bus (i : Inst) (x : Lcg) : (s.setLcg i x).bus = s.bus := rfl
@[simp] theorem State.setLcg_busOut (i : Inst) (x : Lcg) : (s.setLcg i x).busOut = s.busOut := rfl

/-! ### `State.setMt` -/

@[simp] theorem State.setMt_params (i : Inst) (x : Mt) : (s.setMt i x).params = s.params := rfl
@[simp] theorem State.setMt_mode (i : Inst) (x : Mt) : (s.setMt i x).mode = s.mode := rfl
@[simp] theorem State.setMt_hdr (i : Inst) (x : Mt) : (s.setMt i x).hdr = s.hdr := rfl
@[simp] theorem State.setMt_ops (i : Inst) (x : Mt) : (s.setMt i x).ops = s.ops := rfl
@[simp] theorem State.setMt_phase (i : Inst) (x : Mt) : (s.setMt i x).phase = s.phase := rfl
@[simp] theorem State.setMt_fpend (i : Inst) (x : Mt) : (s.setMt i x).fpend = s.fpend := rfl
@[simp] theorem State.setMt_pc (i : Inst) (x : Mt) : (s.setMt i x).pc = s.pc := rfl
@[simp] theorem State.setMt_cmd (i : Inst) (x : Mt) : (s.setMt i x).cmd = s.cmd := rfl
@[simp] theorem State.setMt_rsp (i : Inst) (x : Mt) : (s.setMt i x).rsp = s.rsp := rfl
@[simp] theorem State.setMt_ent (i : Inst) (x : Mt) : (s.setMt i x).ent = s.ent := rfl
@[simp] theorem State.setMt_ie (i : Inst) (x : Mt) : (s.setMt i x).ie = s.ie := rfl
@[simp] theorem State.setMt_err (i : Inst) (x : Mt) : (s.setMt i x).err = s.err := rfl
@[simp] theorem State.setMt_faultInfo (i : Inst) (x : Mt) :
    (s.setMt i x).faultInfo = s.faultInfo := rfl
@[simp] theorem State.setMt_lcg (i : Inst) (x : Mt) : (s.setMt i x).lcg = s.lcg := rfl
@[simp] theorem State.setMt_mt (i : Inst) (x : Mt) : (s.setMt i x).mt = s.mt.set i x := rfl
@[simp] theorem State.setMt_bbs (i : Inst) (x : Mt) : (s.setMt i x).bbs = s.bbs := rfl
@[simp] theorem State.setMt_drbg (i : Inst) (x : Mt) : (s.setMt i x).drbg = s.drbg := rfl
@[simp] theorem State.setMt_bus (i : Inst) (x : Mt) : (s.setMt i x).bus = s.bus := rfl
@[simp] theorem State.setMt_busOut (i : Inst) (x : Mt) : (s.setMt i x).busOut = s.busOut := rfl

/-! ### `State.setBbs` -/

@[simp] theorem State.setBbs_params (i : Inst) (x : Bbs) : (s.setBbs i x).params = s.params := rfl
@[simp] theorem State.setBbs_mode (i : Inst) (x : Bbs) : (s.setBbs i x).mode = s.mode := rfl
@[simp] theorem State.setBbs_hdr (i : Inst) (x : Bbs) : (s.setBbs i x).hdr = s.hdr := rfl
@[simp] theorem State.setBbs_ops (i : Inst) (x : Bbs) : (s.setBbs i x).ops = s.ops := rfl
@[simp] theorem State.setBbs_phase (i : Inst) (x : Bbs) : (s.setBbs i x).phase = s.phase := rfl
@[simp] theorem State.setBbs_fpend (i : Inst) (x : Bbs) : (s.setBbs i x).fpend = s.fpend := rfl
@[simp] theorem State.setBbs_pc (i : Inst) (x : Bbs) : (s.setBbs i x).pc = s.pc := rfl
@[simp] theorem State.setBbs_cmd (i : Inst) (x : Bbs) : (s.setBbs i x).cmd = s.cmd := rfl
@[simp] theorem State.setBbs_rsp (i : Inst) (x : Bbs) : (s.setBbs i x).rsp = s.rsp := rfl
@[simp] theorem State.setBbs_ent (i : Inst) (x : Bbs) : (s.setBbs i x).ent = s.ent := rfl
@[simp] theorem State.setBbs_ie (i : Inst) (x : Bbs) : (s.setBbs i x).ie = s.ie := rfl
@[simp] theorem State.setBbs_err (i : Inst) (x : Bbs) : (s.setBbs i x).err = s.err := rfl
@[simp] theorem State.setBbs_faultInfo (i : Inst) (x : Bbs) :
    (s.setBbs i x).faultInfo = s.faultInfo := rfl
@[simp] theorem State.setBbs_lcg (i : Inst) (x : Bbs) : (s.setBbs i x).lcg = s.lcg := rfl
@[simp] theorem State.setBbs_mt (i : Inst) (x : Bbs) : (s.setBbs i x).mt = s.mt := rfl
@[simp] theorem State.setBbs_bbs (i : Inst) (x : Bbs) : (s.setBbs i x).bbs = s.bbs.set i x := rfl
@[simp] theorem State.setBbs_drbg (i : Inst) (x : Bbs) : (s.setBbs i x).drbg = s.drbg := rfl
@[simp] theorem State.setBbs_bus (i : Inst) (x : Bbs) : (s.setBbs i x).bus = s.bus := rfl
@[simp] theorem State.setBbs_busOut (i : Inst) (x : Bbs) : (s.setBbs i x).busOut = s.busOut := rfl

/-! ### `State.setDrbg` -/

@[simp] theorem State.setDrbg_params (i : Inst) (x : Drbg) :
    (s.setDrbg i x).params = s.params := rfl
@[simp] theorem State.setDrbg_mode (i : Inst) (x : Drbg) : (s.setDrbg i x).mode = s.mode := rfl
@[simp] theorem State.setDrbg_hdr (i : Inst) (x : Drbg) : (s.setDrbg i x).hdr = s.hdr := rfl
@[simp] theorem State.setDrbg_ops (i : Inst) (x : Drbg) : (s.setDrbg i x).ops = s.ops := rfl
@[simp] theorem State.setDrbg_phase (i : Inst) (x : Drbg) : (s.setDrbg i x).phase = s.phase := rfl
@[simp] theorem State.setDrbg_fpend (i : Inst) (x : Drbg) : (s.setDrbg i x).fpend = s.fpend := rfl
@[simp] theorem State.setDrbg_pc (i : Inst) (x : Drbg) : (s.setDrbg i x).pc = s.pc := rfl
@[simp] theorem State.setDrbg_cmd (i : Inst) (x : Drbg) : (s.setDrbg i x).cmd = s.cmd := rfl
@[simp] theorem State.setDrbg_rsp (i : Inst) (x : Drbg) : (s.setDrbg i x).rsp = s.rsp := rfl
@[simp] theorem State.setDrbg_ent (i : Inst) (x : Drbg) : (s.setDrbg i x).ent = s.ent := rfl
@[simp] theorem State.setDrbg_ie (i : Inst) (x : Drbg) : (s.setDrbg i x).ie = s.ie := rfl
@[simp] theorem State.setDrbg_err (i : Inst) (x : Drbg) : (s.setDrbg i x).err = s.err := rfl
@[simp] theorem State.setDrbg_faultInfo (i : Inst) (x : Drbg) :
    (s.setDrbg i x).faultInfo = s.faultInfo := rfl
@[simp] theorem State.setDrbg_lcg (i : Inst) (x : Drbg) : (s.setDrbg i x).lcg = s.lcg := rfl
@[simp] theorem State.setDrbg_mt (i : Inst) (x : Drbg) : (s.setDrbg i x).mt = s.mt := rfl
@[simp] theorem State.setDrbg_bbs (i : Inst) (x : Drbg) : (s.setDrbg i x).bbs = s.bbs := rfl
@[simp] theorem State.setDrbg_drbg (i : Inst) (x : Drbg) :
    (s.setDrbg i x).drbg = s.drbg.set i x := rfl
@[simp] theorem State.setDrbg_bus (i : Inst) (x : Drbg) : (s.setDrbg i x).bus = s.bus := rfl
@[simp] theorem State.setDrbg_busOut (i : Inst) (x : Drbg) :
    (s.setDrbg i x).busOut = s.busOut := rfl

/-! ### `State.respond` -/

@[simp] theorem State.respond_params (h : Word) (st : Status) (d : List Word) :
    (s.respond h st d).params = s.params := rfl
@[simp] theorem State.respond_mode (h : Word) (st : Status) (d : List Word) :
    (s.respond h st d).mode = .exec := rfl
@[simp] theorem State.respond_hdr (h : Word) (st : Status) (d : List Word) :
    (s.respond h st d).hdr = s.hdr := rfl
@[simp] theorem State.respond_ops (h : Word) (st : Status) (d : List Word) :
    (s.respond h st d).ops = s.ops := rfl
@[simp] theorem State.respond_phase (h : Word) (st : Status) (d : List Word) :
    (s.respond h st d).phase = .response [] (responseWords h st d) := rfl
@[simp] theorem State.respond_fpend (h : Word) (st : Status) (d : List Word) :
    (s.respond h st d).fpend = s.fpend := rfl
@[simp] theorem State.respond_pc (h : Word) (st : Status) (d : List Word) :
    (s.respond h st d).pc = s.pc := rfl
@[simp] theorem State.respond_cmd (h : Word) (st : Status) (d : List Word) :
    (s.respond h st d).cmd = s.cmd := rfl
@[simp] theorem State.respond_rsp (h : Word) (st : Status) (d : List Word) :
    (s.respond h st d).rsp = s.rsp := rfl
@[simp] theorem State.respond_ent (h : Word) (st : Status) (d : List Word) :
    (s.respond h st d).ent = s.ent := rfl
@[simp] theorem State.respond_ie (h : Word) (st : Status) (d : List Word) :
    (s.respond h st d).ie = s.ie := rfl
@[simp] theorem State.respond_err (h : Word) (st : Status) (d : List Word) :
    (s.respond h st d).err = s.err := rfl
@[simp] theorem State.respond_faultInfo (h : Word) (st : Status) (d : List Word) :
    (s.respond h st d).faultInfo = s.faultInfo := rfl
@[simp] theorem State.respond_lcg (h : Word) (st : Status) (d : List Word) :
    (s.respond h st d).lcg = s.lcg := rfl
@[simp] theorem State.respond_mt (h : Word) (st : Status) (d : List Word) :
    (s.respond h st d).mt = s.mt := rfl
@[simp] theorem State.respond_bbs (h : Word) (st : Status) (d : List Word) :
    (s.respond h st d).bbs = s.bbs := rfl
@[simp] theorem State.respond_drbg (h : Word) (st : Status) (d : List Word) :
    (s.respond h st d).drbg = s.drbg := rfl
@[simp] theorem State.respond_bus (h : Word) (st : Status) (d : List Word) :
    (s.respond h st d).bus = s.bus := rfl
@[simp] theorem State.respond_busOut (h : Word) (st : Status) (d : List Word) :
    (s.respond h st d).busOut = s.busOut := rfl

/-! ### `State.raiseFault` -/

@[simp] theorem State.raiseFault_params (c : FaultCause) (w : Word) :
    (s.raiseFault c w).params = s.params := rfl
@[simp] theorem State.raiseFault_mode (c : FaultCause) (w : Word) :
    (s.raiseFault c w).mode = s.mode := rfl
@[simp] theorem State.raiseFault_hdr (c : FaultCause) (w : Word) :
    (s.raiseFault c w).hdr = s.hdr := rfl
@[simp] theorem State.raiseFault_ops (c : FaultCause) (w : Word) :
    (s.raiseFault c w).ops = s.ops := rfl
@[simp] theorem State.raiseFault_phase (c : FaultCause) (w : Word) :
    (s.raiseFault c w).phase = s.phase := rfl
@[simp] theorem State.raiseFault_fpend (c : FaultCause) (w : Word) :
    (s.raiseFault c w).fpend = true := rfl
@[simp] theorem State.raiseFault_pc (c : FaultCause) (w : Word) :
    (s.raiseFault c w).pc = s.pc := rfl
@[simp] theorem State.raiseFault_cmd (c : FaultCause) (w : Word) :
    (s.raiseFault c w).cmd = s.cmd := rfl
@[simp] theorem State.raiseFault_rsp (c : FaultCause) (w : Word) :
    (s.raiseFault c w).rsp = s.rsp := rfl
@[simp] theorem State.raiseFault_ent (c : FaultCause) (w : Word) :
    (s.raiseFault c w).ent = s.ent := rfl
@[simp] theorem State.raiseFault_ie (c : FaultCause) (w : Word) :
    (s.raiseFault c w).ie = s.ie := rfl
@[simp] theorem State.raiseFault_err (c : FaultCause) (w : Word) :
    (s.raiseFault c w).err = s.err.record c := rfl
@[simp] theorem State.raiseFault_faultInfo (c : FaultCause) (w : Word) :
    (s.raiseFault c w).faultInfo = w := rfl
@[simp] theorem State.raiseFault_lcg (c : FaultCause) (w : Word) :
    (s.raiseFault c w).lcg = s.lcg := rfl
@[simp] theorem State.raiseFault_mt (c : FaultCause) (w : Word) :
    (s.raiseFault c w).mt = s.mt := rfl
@[simp] theorem State.raiseFault_bbs (c : FaultCause) (w : Word) :
    (s.raiseFault c w).bbs = s.bbs := rfl
@[simp] theorem State.raiseFault_drbg (c : FaultCause) (w : Word) :
    (s.raiseFault c w).drbg = s.drbg := rfl
@[simp] theorem State.raiseFault_bus (c : FaultCause) (w : Word) :
    (s.raiseFault c w).bus = s.bus := rfl
@[simp] theorem State.raiseFault_busOut (c : FaultCause) (w : Word) :
    (s.raiseFault c w).busOut = s.busOut := rfl

/-! ### `State.enterFault` -/

@[simp] theorem State.enterFault_params : (s.enterFault).params = s.params := rfl
@[simp] theorem State.enterFault_mode : (s.enterFault).mode = .fault := rfl
@[simp] theorem State.enterFault_hdr : (s.enterFault).hdr = 0 := rfl
@[simp] theorem State.enterFault_ops : (s.enterFault).ops = [] := rfl
@[simp] theorem State.enterFault_phase : (s.enterFault).phase = .operands := rfl
@[simp] theorem State.enterFault_fpend : (s.enterFault).fpend = false := rfl
@[simp] theorem State.enterFault_pc : (s.enterFault).pc = s.pc := rfl
@[simp] theorem State.enterFault_cmd : (s.enterFault).cmd = [] := rfl
@[simp] theorem State.enterFault_rsp : (s.enterFault).rsp = s.rsp := rfl
@[simp] theorem State.enterFault_ent : (s.enterFault).ent = s.ent := rfl
@[simp] theorem State.enterFault_ie : (s.enterFault).ie = s.ie := rfl
@[simp] theorem State.enterFault_err : (s.enterFault).err = s.err := rfl
@[simp] theorem State.enterFault_faultInfo : (s.enterFault).faultInfo = s.faultInfo := rfl
@[simp] theorem State.enterFault_lcg : (s.enterFault).lcg = s.lcg := rfl
@[simp] theorem State.enterFault_mt : (s.enterFault).mt = s.mt := rfl
@[simp] theorem State.enterFault_bbs : (s.enterFault).bbs = s.bbs := rfl
@[simp] theorem State.enterFault_drbg : (s.enterFault).drbg = s.drbg := rfl
@[simp] theorem State.enterFault_bus : (s.enterFault).bus = s.bus := rfl
@[simp] theorem State.enterFault_busOut : (s.enterFault).busOut = s.busOut := rfl

/-! ### `State.raiseIllegal` -/

@[simp] theorem State.raiseIllegal_params (h : Word) : (s.raiseIllegal h).params = s.params := rfl
@[simp] theorem State.raiseIllegal_mode (h : Word) : (s.raiseIllegal h).mode = .exec := rfl
@[simp] theorem State.raiseIllegal_hdr (h : Word) : (s.raiseIllegal h).hdr = h := rfl
@[simp] theorem State.raiseIllegal_ops (h : Word) : (s.raiseIllegal h).ops = [] := rfl
@[simp] theorem State.raiseIllegal_phase (h : Word) :
    (s.raiseIllegal h).phase = .response [] (responseWords h .illegalCommand []) := rfl
@[simp] theorem State.raiseIllegal_fpend (h : Word) : (s.raiseIllegal h).fpend = true := rfl
@[simp] theorem State.raiseIllegal_pc (h : Word) : (s.raiseIllegal h).pc = s.pc := rfl
@[simp] theorem State.raiseIllegal_cmd (h : Word) : (s.raiseIllegal h).cmd = s.cmd := rfl
@[simp] theorem State.raiseIllegal_rsp (h : Word) : (s.raiseIllegal h).rsp = s.rsp := rfl
@[simp] theorem State.raiseIllegal_ent (h : Word) : (s.raiseIllegal h).ent = s.ent := rfl
@[simp] theorem State.raiseIllegal_ie (h : Word) : (s.raiseIllegal h).ie = s.ie := rfl
@[simp] theorem State.raiseIllegal_err (h : Word) :
    (s.raiseIllegal h).err = s.err.record .illegal := rfl
@[simp] theorem State.raiseIllegal_faultInfo (h : Word) : (s.raiseIllegal h).faultInfo = h := rfl
@[simp] theorem State.raiseIllegal_lcg (h : Word) : (s.raiseIllegal h).lcg = s.lcg := rfl
@[simp] theorem State.raiseIllegal_mt (h : Word) : (s.raiseIllegal h).mt = s.mt := rfl
@[simp] theorem State.raiseIllegal_bbs (h : Word) : (s.raiseIllegal h).bbs = s.bbs := rfl
@[simp] theorem State.raiseIllegal_drbg (h : Word) : (s.raiseIllegal h).drbg = s.drbg := rfl
@[simp] theorem State.raiseIllegal_bus (h : Word) : (s.raiseIllegal h).bus = s.bus := rfl
@[simp] theorem State.raiseIllegal_busOut (h : Word) : (s.raiseIllegal h).busOut = s.busOut := rfl

/-! ### `State.hardReset` -/

@[simp] theorem State.hardReset_params : (s.hardReset).params = s.params := rfl
@[simp] theorem State.hardReset_mode : (s.hardReset).mode = (State.resetOf s.params).mode := rfl
@[simp] theorem State.hardReset_hdr : (s.hardReset).hdr = (State.resetOf s.params).hdr := rfl
@[simp] theorem State.hardReset_ops : (s.hardReset).ops = (State.resetOf s.params).ops := rfl
@[simp] theorem State.hardReset_phase : (s.hardReset).phase = (State.resetOf s.params).phase := rfl
@[simp] theorem State.hardReset_fpend : (s.hardReset).fpend = (State.resetOf s.params).fpend := rfl
@[simp] theorem State.hardReset_pc : (s.hardReset).pc = (State.resetOf s.params).pc := rfl
@[simp] theorem State.hardReset_cmd : (s.hardReset).cmd = (State.resetOf s.params).cmd := rfl
@[simp] theorem State.hardReset_rsp : (s.hardReset).rsp = (State.resetOf s.params).rsp := rfl
@[simp] theorem State.hardReset_ent : (s.hardReset).ent = (State.resetOf s.params).ent := rfl
@[simp] theorem State.hardReset_ie : (s.hardReset).ie = (State.resetOf s.params).ie := rfl
@[simp] theorem State.hardReset_err : (s.hardReset).err = (State.resetOf s.params).err := rfl
@[simp] theorem State.hardReset_faultInfo :
    (s.hardReset).faultInfo = (State.resetOf s.params).faultInfo := rfl
@[simp] theorem State.hardReset_lcg : (s.hardReset).lcg = (State.resetOf s.params).lcg := rfl
@[simp] theorem State.hardReset_mt : (s.hardReset).mt = (State.resetOf s.params).mt := rfl
@[simp] theorem State.hardReset_bbs : (s.hardReset).bbs = (State.resetOf s.params).bbs := rfl
@[simp] theorem State.hardReset_drbg : (s.hardReset).drbg = (State.resetOf s.params).drbg := rfl
@[simp] theorem State.hardReset_bus : (s.hardReset).bus = s.bus := rfl
@[simp] theorem State.hardReset_busOut : (s.hardReset).busOut = s.busOut := rfl

/-! ### `State.reply` -/

@[simp] theorem State.reply_params (r : BusReply) : (s.reply r).params = s.params := rfl
@[simp] theorem State.reply_mode (r : BusReply) : (s.reply r).mode = s.mode := rfl
@[simp] theorem State.reply_hdr (r : BusReply) : (s.reply r).hdr = s.hdr := rfl
@[simp] theorem State.reply_ops (r : BusReply) : (s.reply r).ops = s.ops := rfl
@[simp] theorem State.reply_phase (r : BusReply) : (s.reply r).phase = s.phase := rfl
@[simp] theorem State.reply_fpend (r : BusReply) : (s.reply r).fpend = s.fpend := rfl
@[simp] theorem State.reply_pc (r : BusReply) : (s.reply r).pc = s.pc := rfl
@[simp] theorem State.reply_cmd (r : BusReply) : (s.reply r).cmd = s.cmd := rfl
@[simp] theorem State.reply_rsp (r : BusReply) : (s.reply r).rsp = s.rsp := rfl
@[simp] theorem State.reply_ent (r : BusReply) : (s.reply r).ent = s.ent := rfl
@[simp] theorem State.reply_ie (r : BusReply) : (s.reply r).ie = s.ie := rfl
@[simp] theorem State.reply_err (r : BusReply) : (s.reply r).err = s.err := rfl
@[simp] theorem State.reply_faultInfo (r : BusReply) : (s.reply r).faultInfo = s.faultInfo := rfl
@[simp] theorem State.reply_lcg (r : BusReply) : (s.reply r).lcg = s.lcg := rfl
@[simp] theorem State.reply_mt (r : BusReply) : (s.reply r).mt = s.mt := rfl
@[simp] theorem State.reply_bbs (r : BusReply) : (s.reply r).bbs = s.bbs := rfl
@[simp] theorem State.reply_drbg (r : BusReply) : (s.reply r).drbg = s.drbg := rfl
@[simp] theorem State.reply_bus (r : BusReply) : (s.reply r).bus = s.bus := rfl
@[simp] theorem State.reply_busOut (r : BusReply) : (s.reply r).busOut = s.busOut ++ [r] := rfl

/-! ### `State.softReset` -/

@[simp] theorem State.softReset_params (v : Word) : (s.softReset v).params = s.params := rfl
@[simp] theorem State.softReset_mode (v : Word) :
    (s.softReset v).mode = (State.resetOf s.params).mode := rfl
@[simp] theorem State.softReset_hdr (v : Word) :
    (s.softReset v).hdr = (State.resetOf s.params).hdr := rfl
@[simp] theorem State.softReset_ops (v : Word) :
    (s.softReset v).ops = (State.resetOf s.params).ops := rfl
@[simp] theorem State.softReset_phase (v : Word) :
    (s.softReset v).phase = (State.resetOf s.params).phase := rfl
@[simp] theorem State.softReset_fpend (v : Word) :
    (s.softReset v).fpend = (State.resetOf s.params).fpend := rfl
@[simp] theorem State.softReset_pc (v : Word) :
    (s.softReset v).pc = (State.resetOf s.params).pc := rfl
@[simp] theorem State.softReset_cmd (v : Word) :
    (s.softReset v).cmd = (State.resetOf s.params).cmd := rfl
@[simp] theorem State.softReset_rsp (v : Word) :
    (s.softReset v).rsp = (State.resetOf s.params).rsp := rfl
@[simp] theorem State.softReset_ent (v : Word) :
    (s.softReset v).ent = (State.resetOf s.params).ent := rfl
@[simp] theorem State.softReset_ie (v : Word) : (s.softReset v).ie = v.getLsbD 1 := rfl
@[simp] theorem State.softReset_err (v : Word) :
    (s.softReset v).err = (State.resetOf s.params).err := rfl
@[simp] theorem State.softReset_faultInfo (v : Word) :
    (s.softReset v).faultInfo = (State.resetOf s.params).faultInfo := rfl
@[simp] theorem State.softReset_lcg (v : Word) :
    (s.softReset v).lcg = (State.resetOf s.params).lcg := rfl
@[simp] theorem State.softReset_mt (v : Word) :
    (s.softReset v).mt = s.mt.map fun b => Mt.reset b.w := rfl
@[simp] theorem State.softReset_bbs (v : Word) :
    (s.softReset v).bbs = (State.resetOf s.params).bbs := rfl
@[simp] theorem State.softReset_drbg (v : Word) :
    (s.softReset v).drbg = (State.resetOf s.params).drbg := rfl
@[simp] theorem State.softReset_bus (v : Word) : (s.softReset v).bus = s.bus := rfl
@[simp] theorem State.softReset_busOut (v : Word) : (s.softReset v).busOut = s.busOut := rfl

/-! ### Reading an engine register after writing one -/

theorem State.setLcg_get_self (i : Inst) (x : Lcg) : (s.setLcg i x).lcg[i] = x := by
  simp

theorem State.setLcg_get_ne (i j : Inst) (x : Lcg) (h : i ≠ j) :
    (s.setLcg i x).lcg[j] = s.lcg[j] := by
  have h' : i.val ≠ j.val := fun e => h (Fin.ext e)
  simp [Vector.getElem_set_ne _ _ h']

theorem State.setLcg_same (i : Inst) : s.setLcg i s.lcg[i] = s := by
  simp [State.setLcg]

theorem State.setMt_get_self (i : Inst) (x : Mt) : (s.setMt i x).mt[i] = x := by
  simp

theorem State.setMt_get_ne (i j : Inst) (x : Mt) (h : i ≠ j) :
    (s.setMt i x).mt[j] = s.mt[j] := by
  have h' : i.val ≠ j.val := fun e => h (Fin.ext e)
  simp [Vector.getElem_set_ne _ _ h']

theorem State.setMt_same (i : Inst) : s.setMt i s.mt[i] = s := by
  simp [State.setMt]

theorem State.setBbs_get_self (i : Inst) (x : Bbs) : (s.setBbs i x).bbs[i] = x := by
  simp

theorem State.setBbs_get_ne (i j : Inst) (x : Bbs) (h : i ≠ j) :
    (s.setBbs i x).bbs[j] = s.bbs[j] := by
  have h' : i.val ≠ j.val := fun e => h (Fin.ext e)
  simp [Vector.getElem_set_ne _ _ h']

theorem State.setBbs_same (i : Inst) : s.setBbs i s.bbs[i] = s := by
  simp [State.setBbs]

theorem State.setDrbg_get_self (i : Inst) (x : Drbg) : (s.setDrbg i x).drbg[i] = x := by
  simp

theorem State.setDrbg_get_ne (i j : Inst) (x : Drbg) (h : i ≠ j) :
    (s.setDrbg i x).drbg[j] = s.drbg[j] := by
  have h' : i.val ≠ j.val := fun e => h (Fin.ext e)
  simp [Vector.getElem_set_ne _ _ h']

theorem State.setDrbg_same (i : Inst) : s.setDrbg i s.drbg[i] = s := by
  simp [State.setDrbg]

end Sys2Proof.Machine
end

