-- ==== Sys2Proof/Laws/Ops.lean ====
section
/-! SUPPORT. What the shared operations do, once each, for later proofs to cite instead of unfolding
them: responses and their header words, operand words, the two outcomes of a Compute step, the
bounded-integer loop, the draws of the serializer, and the agents' steps. -/

namespace Sys2Proof.Machine

/-! ### Responses -/

theorem finish_eq (i : Instr) (data : List Word) (s : State) :
    finish i data s = .next (s.answered (respHeader (headerOf i) .ok) data) := rfl

theorem raise_eq (i : Instr) (st : Status) (s : State) :
    raise i st s = .next (s.answered (respHeader (headerOf i) st) []) := rfl

/-- The response header of a header word built from its fields (R119). -/
theorem respHeader_header (e o i : BitVec 4) (a : BitVec 20) (st : Status) :
    respHeader (header e o i a) st = responseHeader e o i st.code := by
  simp only [respHeader, responseHeader, header]
  ext k hk
  interval_cases k <;> simp

/-- A status is determined by the response header that carries it. -/
theorem respHeader_inj (h : Word) (a b : Status) (e : respHeader h a = respHeader h b) : a = b := by
  have l : ∀ st : Status, (respHeader h st).extractLsb' 0 8 = st.code := by
    intro st
    simp only [respHeader]
    ext k hk
    interval_cases k <;> simp
  have c : a.code = b.code := by rw [← l a, ← l b, e]
  revert c; cases a <;> cases b <;> decide

@[simp] theorem answered_responseData (s : State) (hdr : Word) (data : List Word) :
    (s.answered hdr data).responseData = data := rfl

@[simp] theorem answered_responseStatus (s : State) (hdr : Word) (data : List Word) :
    (s.answered hdr data).responseStatus = some (hdr.extractLsb' 0 8) := rfl

/-- The status of a response header word is the one it was built with (R119). -/
@[simp] theorem responseHeader_status (eng op inst : BitVec 4) (st : Byte) :
    (responseHeader eng op inst st).extractLsb' 0 8 = st := by
  apply BitVec.eq_of_getLsbD_eq
  intro k hk
  interval_cases k <;> simp [responseHeader, header]

/-! ### Header words and operand words -/

/-- A header of an engine with instances, as R124 reads it. -/
theorem header_inst (e o : BitVec 4) (i : Inst) (a : BitVec 20) :
    header e o (instNibble i) a =
      (e.setWidth 32 <<< 28 ||| o.setWidth 32 <<< 24) ||| BitVec.ofNat 32 i.val <<< 20 |||
        a.setWidth 32 := by
  have h : (instNibble i).setWidth 32 = BitVec.ofNat 32 i.val := by revert i; decide
  simp only [header, h]

theorem countOf_setWidth {α : Type} (xs : List α) (h : xs.length < 2 ^ 20) :
    (countOf xs).setWidth 32 = BitVec.ofNat 32 xs.length := by
  apply BitVec.eq_of_toNat_eq
  simp only [countOf, BitVec.toNat_setWidth, BitVec.toNat_ofNat]
  omega

theorem write64_eq (v : Word64) : write64 v = wordsOf64 v := by
  simp only [write64, wordsOfNat, wordsOf64, List.cons.injEq, and_true]
  constructor <;> apply BitVec.eq_of_toNat_eq <;> simp [BitVec.extractLsb', Nat.shiftRight_eq_div_pow]

theorem writeM65_eq (m : BitVec 96) :
    writeM65 m = [m.extractLsb' 64 32, m.extractLsb' 32 32, m.extractLsb' 0 32] := by
  simp only [writeM65, wordsOfNat, List.cons.injEq, and_true]
  refine ⟨?_, ?_, ?_⟩ <;> apply BitVec.eq_of_toNat_eq <;>
    simp [BitVec.extractLsb', Nat.shiftRight_eq_div_pow]

/-- A 64-bit value in two words reads back as the value. -/
theorem natOfWords_wordsOf64 (v : Word64) : natOfWords (wordsOf64 v) = v.toNat := by
  rw [← write64_eq, write64, natOfWords_wordsOfNat]
  exact Nat.mod_eq_of_lt v.isLt

/-- A number below 2^64 as two words (R162). -/
theorem wordsOf64_ofNat (v : Nat) (_h : v < 2 ^ 64) :
    wordsOf64 (BitVec.ofNat 64 v) = [BitVec.ofNat 32 (v / 2 ^ 32), BitVec.ofNat 32 v] := by
  simp only [wordsOf64, List.cons.injEq, and_true]
  constructor <;> apply BitVec.eq_of_toNat_eq <;>
    simp [BitVec.extractLsb', Nat.shiftRight_eq_div_pow] <;> omega

end Sys2Proof.Machine
end

