-- ==== Sys2Proof/Laws/Drbg.lean ====
section
/-! SUPPORT. The DRBG operations, once each: storage, the HMAC update and blocks, Hash_df and
Hashgen, everything a Generate can do (44_drbg.md R266 to R270), and the bounded-integer loop (R276). -/

namespace Sys2Proof.Machine

/-! ### Storage -/

theorem low32_fill55 (x : Vector Byte 32) : low32 (fill55 x) = x := by
  ext j hj
  simp [low32, fill55]

theorem fill55_tail (x : Vector Byte 32) (j : Fin 55) (h : 32 ≤ j.val) : (fill55 x)[j] = 0#8 := by
  simp only [fill55, Fin.getElem_fin, Vector.getElem_ofFn]; rw [dif_neg (by omega)]

theorem field55_toList (b : List Byte) (h : b.length = 55) : (field55 b).toList = b := by
  apply List.ext_getElem
  · simp [h]
  · intro j h1 h2
    simp [field55, h2]

theorem field55_vec (v : Vector Byte 55) : field55 v.toList = v := by
  ext j hj; simp [field55]

theorem bytes55_mod (x : Nat) : bytesOfNat 55 x = bytesOfNat 55 (x % 2 ^ 440) := by
  have h := bytesOfNat_natOfBytes (bytesOfNat 55 x)
  rw [natOfBytes_bytesOfNat, bytesOfNat_length] at h
  exact h.symm

/-! ### HMAC variant -/

/-- The update of R267 as its four assignments. -/
theorem hmacUpdate_eq (d : Drbg) (data : List Byte) :
    let kv := updatedKeyV (low32 d.k) (low32 d.v) data
    d.hmacUpdate data = { d with k := fill55 kv.1, v := fill55 kv.2 } := by
  simp only [Drbg.hmacUpdate, updatedKeyV]
  cases data with
  | nil => simp [Drbg.hmacPass, Drbg.hmacKey, Drbg.hmacV, Drbg.key, low32_fill55]
  | cons x xs => simp [Drbg.hmacPass, Drbg.hmacKey, Drbg.hmacV, Drbg.key, low32_fill55]

/-- n output blocks and the state after them (R269). -/
theorem hmacBlocks_eq (n : Nat) (d : Drbg) :
    Drbg.hmacBlocks n d = (((List.range n).flatMap fun j => (hmacChain (low32 d.k) (low32 d.v)
        (j + 1)).toList),
      if n = 0 then d else { d with v := fill55 (hmacChain (low32 d.k) (low32 d.v) n) }) := by
  induction n generalizing d with
  | zero => simp [Drbg.hmacBlocks]
  | succ n ih =>
    have sh : ∀ k (key v : Vector Byte 32), hmacChain key (Config.hmac key v.toList) k =
        hmacChain key v (k+1) := by
      intro k key v; induction k with
      | zero => rfl
      | succ k ih => rw [hmacChain, ih]; rfl
    have hv : d.hmacV = { d with v := fill55 (Config.hmac (low32 d.k) (low32 d.v).toList) } := rfl
    rw [Drbg.hmacBlocks, ih, hv]
    simp only [low32_fill55, sh]
    refine Prod.ext ?_ ?_
    · simp only
      rw [List.range_succ_eq_map, List.flatMap_cons, List.flatMap_map]
      rfl
    · by_cases c : n = 0
      · subst c; simp [hmacChain]
      · simp [c]

/-! ### Hash variant -/

/-- `HashDf(m, 55)` is two blocks (R268). -/
theorem hashDf55_eq (m : List Byte) : hashDf55 m = hashDfBytes m := by
  have e : bytesOfNat 1 1 ++ bytesOfNat 4 (8*55) ++ m = [0x01#8, 0x00#8, 0x00#8, 0x01#8,
      0xB8#8] ++ m := rfl
  have e2 : bytesOfNat 1 2 ++ bytesOfNat 4 (8*55) ++ m = [0x02#8, 0x00#8, 0x00#8, 0x01#8,
      0xB8#8] ++ m := rfl
  simp only [hashDf55, show ceilDiv 55 32 = 2 from rfl, hashDfBlocks, e, e2, hashDfBytes,
      List.append_nil]
  rw [List.take_append, List.take_of_length_le (by simp)]; simp

theorem hashgen_eq (n d : Nat) (hd : d < 2 ^ 440) :
    hashgenBlocks n d =
      (List.range n).flatMap fun j => (Config.hash (bytesOfNat 55 ((d + j) % 2 ^ 440))).toList := by
  induction n generalizing d with
  | zero => rfl
  | succ n ih =>
    rw [hashgenBlocks, ih _ (Nat.mod_lt _ (by positivity)), List.range_succ_eq_map,
        List.flatMap_cons, List.flatMap_map]
    simp only [Nat.add_zero, Nat.mod_eq_of_lt hd]
    rw [List.append_cancel_left_eq]
    apply List.flatMap_congr
    intro j _
    rw [Nat.mod_add_mod, show d + 1 + j = d + j.succ by omega]

/-! ### Generate -/

/-- Everything a Generate can do (R269): refused with nothing changed exactly when CTR exceeds
INTERVAL, else the bytes asked for and CTR one more. -/
theorem generate_cases (pre : Bool) (n : Nat) (a : List Byte) (d : Drbg) :
    (d.interval.toNat < d.ctr.toNat ∧ d.generate pre n a = .error .reseedRequired) ∨
    (d.ctr.toNat ≤ d.interval.toNat ∧ ∃ (out : List Byte) (v k : Vector Byte 55), out.length = n ∧
      d.generate pre n a = .ok (out, { d with v := v, k := k, ctr := d.ctr + 1#32 })) := by
  by_cases h : d.interval.toNat < d.ctr.toNat
  · left; refine ⟨h, ?_⟩
    simp [Drbg.generate, Drbg.exhausted, h]
  · right; refine ⟨by omega, ?_⟩
    have ex : d.exhausted = false := by simp [Drbg.exhausted]; omega
    have keep : ∀ d : Drbg, ∀ a, ∃ v k, d.hmacUpdate a = { d with v := v, k := k } :=
        fun d a => ⟨_, _, hmacUpdate_eq d a⟩
    have keepB : ∀ n, ∀ d : Drbg, ∃ v k, (Drbg.hmacBlocks n d).2 = { d with v := v, k := k } :=
        fun n d => by
      rw [hmacBlocks_eq]; simp only; split
      · exact ⟨d.v, d.k, rfl⟩
      · exact ⟨_, _, rfl⟩
    have lenB : ∀ n, ∀ d : Drbg, (Drbg.hmacBlocks n d).1.length = 32 * n := fun n d => by
      induction n generalizing d with
      | zero => rfl
      | succ n ih => simp [Drbg.hmacBlocks, ih]; omega
    have lenH : ∀ n d, (hashgenBlocks n d).length = 32 * n := fun n => by
      induction n with
      | zero => intro d; rfl
      | succ n ih => intro d; simp [hashgenBlocks, ih]; omega
    have c32 : n ≤ 32 * ceilDiv n 32 := by simp only [ceilDiv]; omega
    simp only [Drbg.generate, ex, Bool.false_eq_true, if_false, Drbg.produce]
    cases hv : d.variant
    · simp only
      obtain ⟨v1, k1, e1⟩ : ∃ v k, (if (pre && decide (a.length > 0)) =
          true then d.hmacUpdate a else d) = { d with v := v, k := k } := by
        split
        · exact keep d a
        · exact ⟨_, _, rfl⟩
      rw [e1]
      obtain ⟨v2, k2, e2⟩ := keepB (ceilDiv n 32) { d with v := v1, k := k1 }
      rw [e2]
      obtain ⟨v3, k3, e3⟩ := keep { d with v := v2, k := k2 } a
      simp only [e3]
      refine ⟨_, v3, k3, ?_, by rw [hv]; rfl⟩
      rw [List.length_take, lenB]; omega
    · simp only
      refine ⟨(hashgenBlocks (ceilDiv n 32) (d.hashAddInput a).vNat).take n,
          (d.hashAddInput a).hashPost.v, (d.hashAddInput a).hashPost.k, ?_, ?_⟩
      rotate_left
      · have e1 : ∃ v, d.hashAddInput a = { d with v := v } := by
          simp only [Drbg.hashAddInput]; split
          · exact ⟨_, rfl⟩
          · exact ⟨d.v, rfl⟩
        obtain ⟨v, e1⟩ := e1
        simp only [e1, Drbg.hashPost, Drbg.setV, hv]; rfl
      · rw [List.length_take, lenH]; omega

/-- Everything a draw of k bits can do (R270). -/
theorem bits_cases (pre : Bool) (k : Nat) (d : Drbg) :
    (d.interval.toNat < d.ctr.toNat ∧ d.bits pre k = .error .reseedRequired) ∨
    (d.ctr.toNat ≤ d.interval.toNat ∧ ∃ (out : List Byte) (v w : Vector Byte 55), out.length =
        ceilDiv k 8 ∧
      d.generate pre (ceilDiv k 8) [] = .ok (out, { d with v := v, k := w, ctr := d.ctr + 1#32 }) ∧
      d.bits pre k = .ok ((bytesBits out).take k, { d with v := v, k := w, ctr := d.ctr + 1#32 })) := by
  rcases generate_cases pre (ceilDiv k 8) [] d with ⟨c, e⟩ | ⟨c, out, v, w, l, e⟩
  · left; exact ⟨c, by simp [Drbg.bits, e, Except.map]⟩
  · right; exact ⟨c, out, v, w, l, e, by simp [Drbg.bits, e, Except.map]⟩

theorem generate_fill (pre : Bool) (n : Nat) (a out : List Byte) (d d' : Drbg) (h :
    d.generate pre n a = .ok (out, d'))
   (hv : d.variant = .hmac) : ∃ v k, d'.v = fill55 v ∧ d'.k = fill55 k := by
  simp only [Drbg.generate, Drbg.produce, hv] at h
  split at h
  · cases h
  · injection h with h; injection h with h1 h2; subst h2
    simp only [hmacUpdate_eq]
    exact ⟨_, _, rfl, rfl⟩

/-- What a Generate or a draw of bits leaves of an instance. -/
structure Drew (d d' : Drbg) : Prop where
  legal : d.Legal → d'.Legal
  inst : d'.inst = d.inst
  interval : d'.interval = d.interval

theorem Drew.refl (d : Drbg) : Drew d d := ⟨id, rfl, rfl⟩

theorem Drew.trans {a b c : Drbg} (h : Drew a b) (k : Drew b c) : Drew a c := ⟨k.legal ∘ h.legal,
    k.inst.trans h.inst, k.interval.trans h.interval⟩

theorem generate_drew (pre : Bool) (n : Nat) (a out : List Byte) (d d' : Drbg)
    (hi : d.inst = true) (h : d.generate pre n a = .ok (out, d')) : Drew d d' := by
  have f := generate_fill pre n a out d d' h
  rcases generate_cases pre n a d with ⟨c, e⟩ | ⟨c, o, v, k, l, e⟩
  · rw [e] at h; cases h
  · rw [e] at h; injection h with h; injection h with h1 h2; subst h2
    refine ⟨?_, rfl, rfl⟩
    rintro ⟨⟨l1, l2⟩, l3, l4, l5, l6⟩
    have cs : (d.ctr + 1#32).toNat = d.ctr.toNat + 1 := by
      rw [BitVec.toNat_add]; simp; omega
    refine ⟨⟨l1, l2⟩, ?_, ?_, ?_, ?_⟩
    · simp only [cs]; omega
    · intro _; simp only [cs]; omega
    · intro x; simp only at x; rw [hi] at x; cases x
    · intro hv j hj
      obtain ⟨v', k', e1, e2⟩ := f hv
      simp only at e1 e2
      simp only [e1, e2]
      exact ⟨fill55_tail _ _ hj, fill55_tail _ _ hj⟩

theorem bits_drew (pre : Bool) (k : Nat) (bs : List Bool) (d d' : Drbg) (hi : d.inst = true) (h :
    d.bits pre k = .ok (bs, d')) : Drew d d' := by
  simp only [Drbg.bits] at h
  rcases e : d.generate pre (ceilDiv k 8) [] with st | ⟨o, x⟩
  · rw [e] at h; cases h
  · rw [e] at h; simp only [Except.map] at h; injection h with h; injection h with h1 h2; subst h2
    exact generate_drew _ _ _ _ _ _ hi e

/-! ### Bounded integers -/

theorem rbound (a b : Word64) (h : a.toInt < b.toInt) : 0 < (b.toInt - a.toInt).toNat ∧
    (b.toInt - a.toInt).toNat < 2 ^ 64 := by
  have := a.isLt; have := b.isLt
  have h1 := BitVec.toInt_lt (x := b); have h2 := BitVec.le_toInt (x := a)
  simp at h1 h2
  omega

/-- An answer of the loop is at most r. -/
theorem attempts_le {σ : Type} (r k : Nat) (bits : Nat → σ → Except Status (List Bool × σ)) (n :
    Nat) (s : σ) (v : Nat)
    (h : (boundedAttempts r k bits n s).1 = .ok v) : v ≤ r := by
  induction n generalizing s with
  | zero => simp [boundedAttempts] at h
  | succ n ih =>
    rw [boundedAttempts] at h
    split at h
    · simp at h
    · split at h
      · next c => simp at h; omega
      · exact ih _ h

/-- What every draw keeps, the loop keeps. -/
theorem attempts_rel {σ : Type} (R : σ → σ → Prop) (P : σ → Prop) (hr : ∀ s, R s s)
    (ht : ∀ a b c, R a b → R b c → R a c) (r k : Nat)
    (bits : Nat → σ → Except Status (List Bool × σ))
    (hb : ∀ s bs s', P s → bits k s = .ok (bs, s') → R s s' ∧ P s')
    (n : Nat) (s : σ) (hp : P s) : R s (boundedAttempts r k bits n s).2 := by
  induction n generalizing s with
  | zero => exact hr s
  | succ n ih =>
    rw [boundedAttempts]
    split
    · exact hr s
    · next bs s' e =>
      obtain ⟨h1, h2⟩ := hb _ _ _ hp e
      split
      · exact h1
      · exact ht _ _ _ h1 (ih _ h2)

theorem bounded_rel {σ : Type} (R : σ → σ → Prop) (P : σ → Prop) (hr : ∀ s, R s s) (ht : ∀ a b c,
    R a b → R b c → R a c)
    (bits : Nat → σ → Except Status (List Bool × σ)) (hb : ∀ k s bs s', P s → bits k s = .ok (bs,
        s') → R s s' ∧ P s')
    (n : Nat) (a b : Word64) (s : σ) (hp : P s) : R s (boundedInt n a b bits s).2 := by
  simp only [boundedInt]
  split
  · exact hr s
  · exact attempts_rel R P hr ht _ _ bits (hb _) n s hp

/-- The statuses the loop can end with. -/
theorem bounded_err {σ : Type} (bits : Nat → σ → Except Status (List Bool × σ)) (n : Nat) (a b :
    Word64) (s : σ) (st : Status)
    (E : List Status) (hb : ∀ k s st, bits k s = .error st → st ∈ E)
    (h : (boundedInt n a b bits s).1 = .error st) : st ∈ E ∨ st = .rangeGenerationFailed := by
  simp only [boundedInt] at h
  split at h
  · cases h
  · simp only at h
    generalize bitlen (b.toInt - a.toInt).toNat = k at h
    generalize (b.toInt - a.toInt).toNat = r at h
    have : ∀ n s, (boundedAttempts r k bits n s).1 = .error st → st ∈ E ∨ st =
        .rangeGenerationFailed := by
      intro n
      induction n with
      | zero => intro s h; simp [boundedAttempts] at h; exact .inr h.symm
      | succ n ih =>
        intro s h
        rw [boundedAttempts] at h
        split at h
        · next st' e => simp at h; subst h; exact .inl (hb _ _ _ e)
        · split at h
          · simp at h
          · exact ih _ h
    apply this n s
    rcases e : (boundedAttempts r k bits n s).1 with x | x
    · rw [e] at h; simp [Except.map] at h; rw [h]
    · rw [e] at h; simp [Except.map] at h

end Sys2Proof.Machine
end

