-- ==== Sys2Proof/Laws/Engines.lean ====
section
/-! SUPPORT. Any number of draws from an engine, in closed form, and what one draw keeps:
LCG (41_lcg.md R164), MT19937 (42_mt19937.md R192, R199), BBS (43_bbs.md R235). -/

namespace Sys2Proof.Machine

/-! ### LCG -/

theorem lcgTerm_lt (a c m v k : Nat) (hm : 0 < m) (hv : v < m) : lcgTerm a c m v k < m := by
  cases k with
  | zero => exact hv
  | succ k => exact Nat.mod_lt _ hm

theorem lcgTerm_shift (a c m v k : Nat) :
    lcgTerm a c m ((a * v + c) % m) k = lcgTerm a c m v (k + 1) := by
  induction k with
  | zero => rfl
  | succ k ih => rw [lcgTerm, ih]; rfl

/-- n draws of a valid LCG are the next n terms of its sequence, all below M (R164, R165). -/
theorem drawN_lcg (l : Lcg) (hv : l.valid = true) (hl : l.Legal) (n : Nat) :
    drawN lcgStep n l = ((l.outputs n).map (BitVec.ofNat 64), l.after n) ∧ ∀ v ∈ l.outputs n,
        v < l.m.toNat := by
  obtain ⟨⟨h1, h2⟩, h3⟩ := hl hv
  refine ⟨?_, ?_⟩
  · induction n generalizing l with
    | zero => simp [drawN, Lcg.outputs, Lcg.after, lcgTerm]
    | succ n ih =>
      have lt : (l.a.toNat * l.value.toNat + l.c.toNat) % l.m.toNat < l.m.toNat :=
          Nat.mod_lt _ (by omega)
      have e : (lcgStep l).2.value.toNat = (l.a.toNat * l.value.toNat + l.c.toNat) % l.m.toNat := by
        simp only [lcgStep, BitVec.toNat_ofNat]; exact Nat.mod_eq_of_lt (by omega)
      have lt' : (lcgStep l).2.value.toNat < (lcgStep l).2.m.toNat := by rw [e]; exact lt
      rw [drawN, ih (lcgStep l).2 hv (fun _ => ⟨⟨h1, h2⟩, lt'⟩) lt' h1 h2]
      have sh := fun k => lcgTerm_shift l.a.toNat l.c.toNat l.m.toNat l.value.toNat k
      refine Prod.ext ?_ ?_
      · simp only [Lcg.outputs, e]
        have e2 : (lcgStep l).2.a = l.a ∧ (lcgStep l).2.c = l.c ∧ (lcgStep l).2.m = l.m := ⟨rfl,
            rfl, rfl⟩
        rw [e2.1, e2.2.1, e2.2.2]
        simp only [sh]
        rw [List.range_succ_eq_map]
        simp [lcgStep, lcgTerm, Function.comp_def]
      · simp only [Lcg.after, e]
        have e2 : (lcgStep l).2.a = l.a ∧ (lcgStep l).2.c = l.c ∧ (lcgStep l).2.m = l.m := ⟨rfl,
            rfl, rfl⟩
        rw [e2.1, e2.2.1, e2.2.2, sh]
        simp [lcgStep]
  · intro v hv'
    simp only [Lcg.outputs, List.mem_map] at hv'
    obtain ⟨k, -, rfl⟩ := hv'
    exact lcgTerm_lt _ _ _ _ _ (by omega) h3

/-! ### MT19937: the terms of the recurrence -/

theorem window_get (w : Vector Word 624) (j t : Nat) (h : j < 624) :
    (mtWindow w t)[j] = mtTerm w (t + j) := by
  induction j generalizing t with
  | zero => rfl
  | succ j ih =>
    have := ih (t+1) (by omega)
    rw [show t + (j+1) = t+1+j by omega, ← this]
    simp only [mtWindow, mtShift, Vector.getElem_ofFn]
    rw [dif_pos (by omega)]

/-- The twist's combination of two words (R192). -/
def comb (a b : Word) : Word := (a &&& 0x80000000#32) ||| (b &&& 0x7FFFFFFF#32)

/-- The recurrence of R205. -/
theorem term_rec (w : Vector Word 624) (t : Nat) :
    mtTerm w (t + 624) = mtTerm w (t + 397) ^^^ twistShift (comb (mtTerm w t) (mtTerm w (t+1))) := by
  rw [show t + 624 = (t+1)+623 by omega, ← window_get w 623 (t+1) (by omega),
      ← window_get w 397 t (by omega),
    ← window_get w 1 t (by omega)]
  simp only [mtWindow, mtShift, Vector.getElem_ofFn]
  rw [dif_neg (by omega)]
  rfl

/-- The array after the first k steps of the twist (R192). -/
theorem twist_prefix (w : Vector Word 624) (k : Nat) (hk : k ≤ 624) (j : Nat) (hj : j < 624) :
    (((List.finRange 624).take k).foldl twistStep w)[j] =
        if j < k then mtTerm w (624 + j) else mtTerm w j := by
  induction k generalizing j with
  | zero => simp; have := window_get w j 0 hj; simpa [mtWindow] using this
  | succ k ih =>
    have ih := ih (by omega)
    have e : (List.finRange 624).take (k+1) = (List.finRange 624).take k ++ [⟨k, by omega⟩] := by
      rw [List.take_succ_eq_append_getElem (by simp; omega)]
      simp
    rw [e, List.foldl_append, List.foldl_cons, List.foldl_nil]
    generalize ((List.finRange 624).take k).foldl twistStep w = W at *
    have ih' : ∀ x : Fin 624, W[x] = if x.val < k then mtTerm w (624 + x.val) else mtTerm w x.val :=
      fun x => ih x.val x.isLt
    have step_get : ∀ x : Fin 624, (twistStep W x)[j] = if x.val = j then W[x + 397] ^^^
        twistShift (comb W[x] W[x + 1]) else W[j] := fun x => by
      unfold twistStep; exact Vector.getElem_set ..
    rw [step_get]
    have v1 : (((⟨k, by omega⟩ : Fin 624) + 397 : Fin 624)).val = (k + 397) % 624 := by
      rw [Fin.val_add]; norm_num
    have v2 : (((⟨k, by omega⟩ : Fin 624) + 1 : Fin 624)).val = (k + 1) % 624 := by
      rw [Fin.val_add]; norm_num
    have g1 : W[((⟨k, by omega⟩ : Fin 624) + 397 : Fin 624)] = mtTerm w (k + 397) := by
      rw [ih' (⟨k, by omega⟩ + 397)]; rw [v1]
      by_cases c : k + 397 < 624
      · rw [Nat.mod_eq_of_lt c, if_neg (by omega)]
      · rw [show (k+397) % 624 = k + 397 - 624 by omega, if_pos (by omega)]; exact congrArg _ (by omega)
    have g2 : W[((⟨k, by omega⟩ : Fin 624) + 1 : Fin 624)] = mtTerm w (k + 1) := by
      rw [ih' (⟨k, by omega⟩ + 1)]; rw [v2]
      by_cases c : k + 1 < 624
      · rw [Nat.mod_eq_of_lt c, if_neg (by omega)]
      · rw [show (k+1) % 624 = k + 1 - 624 by omega, if_pos (by omega)]; exact congrArg _ (by omega)
    have g3 : W[(⟨k, by omega⟩ : Fin 624)] = mtTerm w k := by
      rw [ih']; simp
    rw [g1, g2, g3]
    have := term_rec w k
    by_cases c : k = j
    · subst c; rw [if_pos rfl, if_pos (by omega), Nat.add_comm 624 k, this]
    · rw [if_neg c, ih j hj]
      by_cases c2 : j < k
      · rw [if_pos c2, if_pos (by omega)]
      · rw [if_neg c2, if_neg (by omega)]

/-- A twist moves the array on by 624 terms. -/
theorem twistWords_eq (w : Vector Word 624) : twistWords w = mtWindow w 624 := by
  ext j hj
  have := twist_prefix w 624 (by omega) j hj
  rw [List.take_of_length_le (by simp)] at this
  rw [if_pos hj] at this
  rw [window_get w j 624 hj, ← this]; rfl

theorem window_add (w : Vector Word 624) (s t : Nat) :
    mtWindow (mtWindow w s) t = mtWindow w (s + t) := by
  induction t with
  | zero => rfl
  | succ t ih => rw [← Nat.add_assoc]; simp only [mtWindow, ih]

theorem term_add (w : Vector Word 624) (s t : Nat) : mtTerm (mtWindow w s) t = mtTerm w (s + t) := by
  simp only [mtTerm, window_add]

theorem term_zero (w : Vector Word 624) (t : Nat) : mtTerm (mtWindow w t) 0 = mtTerm w t := rfl

/-! ### MT19937: outputs -/

theorem atCursor_lt (b : Mt) (h : b.cur.toNat < 624) : b.atCursor = mtTerm b.w b.cur.toNat := by
  have := window_get b.w b.cur.toNat 0 h
  rw [Nat.zero_add] at this
  rw [← this, Mt.atCursor, Vector.getElem?_eq_getElem h]; rfl

theorem cur_succ (b : Mt) : b.cur + 1#10 = BitVec.ofNat 10 (b.cur.toNat + 1) := by
  apply BitVec.eq_of_toNat_eq
  rw [BitVec.toNat_add, BitVec.toNat_ofNat, BitVec.toNat_ofNat]

/-- One output of a bank (R199). -/
theorem extract_eq (b : Mt) (h : b.Legal) : mtExtract b = (temper (mtTerm b.w b.cur.toNat),
    b.after 1) := by
  unfold Mt.Legal at h
  by_cases c : b.cur = 624#10
  · have c' : b.cur.toNat = 624 := by rw [c]; exact BitVec.toNat_ofNat 624 10
    have e : mtExtract b = (temper (mtTwist b).atCursor, { mtTwist b with cur :=
        (mtTwist b).cur + 1#10 }) := by
      simp only [mtExtract]; rw [if_pos c]
    have z : (mtTwist b).cur.toNat = 0 := by simp only [mtTwist]; exact BitVec.toNat_ofNat 0 10
    have zz : (mtTwist b).w = mtWindow b.w 624 := by simp only [mtTwist]; exact twistWords_eq b.w
    have z1 : (mtTwist b).cur + 1#10 = BitVec.ofNat 10 1 := by simp only [mtTwist]; decide
    rw [e, atCursor_lt _ (by rw [z]; omega), z, zz, c', z1, term_zero]
    refine Prod.ext rfl ?_
    have m1 : (624 + 1 - 1) / 624 = 1 := by norm_num
    have m2 : (624 + 1 - 1) % 624 = 0 := by norm_num
    have v : (mtTwist b).valid = b.valid := by simp only [mtTwist]
    simp only [Mt.after, c', m1, m2, Nat.mul_one, v]
    rw [if_neg (by omega), Nat.zero_add, zz]
  · have c' : b.cur.toNat < 624 := by
      have : b.cur.toNat ≠ 624 :=
          fun e => c (by apply BitVec.eq_of_toNat_eq; rw [e]; exact (BitVec.toNat_ofNat 624 10).symm)
      omega
    have e : mtExtract b = (temper b.atCursor, { b with cur := b.cur + 1#10 }) := by
      simp only [mtExtract]; rw [if_neg c]
    rw [e, atCursor_lt _ c', cur_succ b]
    refine Prod.ext rfl ?_
    have m1 : (b.cur.toNat + 1 - 1) / 624 = 0 := by omega
    have m2 : (b.cur.toNat + 1 - 1) % 624 = b.cur.toNat := by omega
    simp only [Mt.after, m1, m2, Nat.mul_zero]
    rw [if_neg (by omega)]
    rfl

theorem after_legal (b : Mt) (n : Nat) (h : b.Legal) : (b.after n).Legal := by
  unfold Mt.Legal Mt.after at *
  split
  · exact h
  · have : (b.cur.toNat + n - 1) % 624 < 624 := Nat.mod_lt _ (by omega)
    simp only [BitVec.toNat_ofNat]; omega

theorem after_after (b : Mt) (m n : Nat) : (b.after m).after n = b.after (m + n) := by
  by_cases hm : m = 0
  · simp [Mt.after, hm]
  by_cases hn : n = 0
  · simp [Mt.after, hn]
  have e : (b.after m).cur.toNat = (b.cur.toNat + m - 1) % 624 + 1 := by
    have : (b.cur.toNat + m - 1) % 624 < 624 := Nat.mod_lt _ (by omega)
    simp only [Mt.after, if_neg hm, BitVec.toNat_ofNat]; omega
  rw [Mt.after, if_neg hn, e]
  simp only [Mt.after, if_neg hm, if_neg (show ¬ (m + n = 0) by omega), window_add, Mt.mk.injEq,
      true_and]
  constructor
  · congr 1; omega
  · congr 1; omega

theorem term_after (b : Mt) (n k : Nat) :
    mtTerm (b.after n).w ((b.after n).cur.toNat + k) = mtTerm b.w (b.cur.toNat + n + k) := by
  by_cases hn : n = 0
  · simp [Mt.after, hn]
  have e : (b.after n).cur.toNat = (b.cur.toNat + n - 1) % 624 + 1 := by
    have : (b.cur.toNat + n - 1) % 624 < 624 := Nat.mod_lt _ (by omega)
    simp only [Mt.after, if_neg hn, BitVec.toNat_ofNat]; omega
  rw [e]
  simp only [Mt.after, if_neg hn, term_add]
  congr 1; omega

/-- n outputs of a bank, across any number of twists (R199). -/
theorem drawN_mt (b : Mt) (h : b.Legal) (n : Nat) : drawN mtExtract n b = (b.outputs n, b.after n) := by
  induction n generalizing b with
  | zero => simp [drawN, Mt.outputs, Mt.after]
  | succ n ih =>
    rw [drawN, extract_eq b h, ih _ (after_legal b 1 h)]
    refine Prod.ext ?_ ?_
    · simp only [Mt.outputs, term_after b 1 _]
      rw [List.range_succ_eq_map]
      simp only [List.map_cons, List.map_map, Nat.add_zero, List.cons.injEq, true_and]
      apply List.map_congr_left
      intro a _
      simp only [Function.comp_apply]
      congr 2; omega
    · simp only [after_after b 1 n, Nat.add_comm]

/-! ### BBS -/

theorem bbsStep_x (b : Bbs) :
    (bbsStep b).2 = { b with x := b.x ^ 2 % b.n } ∧
    (bbsStep b).1 = decide (b.x ^ 2 % b.n % 2 = 1) := by
  simp only [bbsStep, Nat.pow_two, true_and]
  rw [Nat.testBit_zero]

theorem pow_step (x m k : Nat) : (x ^ 2 % m) ^ 2 ^ k % m = x ^ 2 ^ (k+1) % m := by
  rw [← Nat.pow_mod, ← Nat.pow_mul, Nat.pow_succ, Nat.mul_comm]

theorem drawN_bbs1 (b : Bbs) (n : Nat) :
    (drawN bbsStep n b).1 = squaringBits b.x b.n n ∧
    (drawN bbsStep n b).2 = if n = 0 then b else b.after n := by
  induction n generalizing b with
  | zero => simp [drawN, squaringBits]
  | succ n ih =>
    obtain ⟨e1, e2⟩ := bbsStep_x b
    have ih := ih (bbsStep b).2
    rw [e1] at ih
    simp only [drawN, e1, e2]
    refine ⟨?_, ?_⟩
    · rw [ih.1]
      simp only [squaringBits, pow_step]
      rw [List.range_succ_eq_map]
      simp [Function.comp_def]
    · rw [ih.2]
      by_cases h : n = 0
      · subst h; simp [Bbs.after]
      · simp only [h, if_false, Bbs.after, pow_step]; simp

/-- n squarings of an instance with X below N (R235). -/
theorem drawN_bbs (b : Bbs) (h : b.x < b.n) (n : Nat) :
    drawN bbsStep n b = (squaringBits b.x b.n n, b.after n) := by
  obtain ⟨e1, e2⟩ := drawN_bbs1 b n
  refine Prod.ext e1 (e2.trans ?_)
  split
  · next c => subst c; simp [Bbs.after, Nat.mod_eq_of_lt h]
  · rfl

theorem seq_congr (a b : Bbs) (hx : a.x = b.x) (hn : a.n = b.n) (k : Nat) :
    (drawN bbsStep k a).1 = (drawN bbsStep k b).1 ∧
    (drawN bbsStep k a).2.x = (drawN bbsStep k b).2.x := by
  obtain ⟨e1, e2⟩ := drawN_bbs1 a k
  obtain ⟨f1, f2⟩ := drawN_bbs1 b k
  rw [e1, f1, e2, f2, hx, hn]
  refine ⟨rfl, ?_⟩
  split
  · exact hx
  · simp [Bbs.after, hx, hn]

theorem drawN_n (b : Bbs) (k : Nat) : (drawN bbsStep k b).2.n = b.n := by
  rw [(drawN_bbs1 b k).2]; split <;> rfl

theorem drawN_valid (b : Bbs) (k : Nat) : (drawN bbsStep k b).2.valid = b.valid := by
  rw [(drawN_bbs1 b k).2]; split <;> rfl

/-! ### What one draw keeps -/

/-- VALID stays, and legal values stay legal (R43). -/
def LcgRel (a b : Lcg) : Prop := b.valid = a.valid ∧ (a.Legal → b.Legal)

/-- VALID stays, and the cursor stays legal (R45). -/
def MtRel (a b : Mt) : Prop := b.valid = a.valid ∧ (a.Legal → b.Legal)

/-- VALID stays, and legal values stay legal (R48, R49). -/
def BbsRel (a b : Bbs) : Prop := b.valid = a.valid ∧ ∀ w, a.Legal w → b.Legal w

theorem lcgStep_rel (a : Lcg) : LcgRel a (lcgStep a).2 := by
  refine ⟨rfl, fun h hv => ?_⟩
  obtain ⟨⟨h1, h2⟩, h3⟩ := h hv
  refine ⟨⟨h1, h2⟩, ?_⟩
  have : (a.a.toNat * a.value.toNat + a.c.toNat) % a.m.toNat < a.m.toNat := Nat.mod_lt _ (by omega)
  simp only [lcgStep, BitVec.toNat_ofNat]
  rw [Nat.mod_eq_of_lt (by omega)]; exact this

theorem mtTwist_rel (b : Mt) : MtRel b (mtTwist b) := by
  refine ⟨by simp only [mtTwist], fun _ => ?_⟩
  have z : (mtTwist b).cur.toNat = 0 := by simp only [mtTwist]; exact BitVec.toNat_ofNat 0 10
  unfold Mt.Legal; rw [z]; omega

theorem mtExtract_rel (b : Mt) : MtRel b (mtExtract b).2 := by
  by_cases c : b.cur = 624#10
  · have e : mtExtract b = (temper (mtTwist b).atCursor, { mtTwist b with cur :=
      (mtTwist b).cur + 1#10 }) := by
      simp only [mtExtract]; rw [if_pos c]
    have z1 : (mtTwist b).cur + 1#10 = BitVec.ofNat 10 1 := by simp only [mtTwist]; decide
    rw [e]
    refine ⟨by simp only [mtTwist], fun _ => ?_⟩
    unfold Mt.Legal; simp only [z1]; decide
  · have e : mtExtract b = (temper b.atCursor, { b with cur := b.cur + 1#10 }) := by
      simp only [mtExtract]; rw [if_neg c]
    rw [e]
    refine ⟨rfl, fun h => ?_⟩
    unfold Mt.Legal at *
    have : b.cur.toNat ≠ 624 :=
        fun e => c (by apply BitVec.eq_of_toNat_eq; rw [e]; exact (BitVec.toNat_ofNat 624 10).symm)
    simp only [BitVec.toNat_add]
    have : (1#10).toNat = 1 := rfl
    omega

theorem bbsStep_rel (b : Bbs) : BbsRel b (bbsStep b).2 := by
  refine ⟨rfl, fun w h hv => ?_⟩
  obtain ⟨h1, h2, h3, h4, h5⟩ := h hv
  refine ⟨h1, h2, h3, ?_, ?_⟩
  · exact Nat.mod_lt _ (by omega)
  · simp only [bbsStep]
    rw [← Nat.gcd_rec, Nat.gcd_comm]
    exact Nat.Coprime.mul_left h5 h5

theorem draw_rel {σ α : Type} (R : σ → σ → Prop) (hr : ∀ s, R s s) (ht : ∀ a b c, R a b → R b c →
    R a c) (f : σ → α × σ) (hf : ∀ s, R s (f s).2)
   (n : Nat) (s : σ) : R s (drawN f n s).2 := by
  induction n generalizing s with
  | zero => exact hr s
  | succ n ih => exact ht _ _ _ (hf s) (ih _)

theorem lcgDraw {α} (f : Lcg → α × Lcg) (hf : ∀ s, LcgRel s (f s).2) (n : Nat) (b : Lcg) :
    LcgRel b (drawN f n b).2 :=
  draw_rel LcgRel (fun _ => ⟨rfl, id⟩) (fun _ _ _ h k => ⟨k.1.trans h.1, k.2 ∘ h.2⟩) f hf n b

theorem mtDraw {α} (f : Mt → α × Mt) (hf : ∀ s, MtRel s (f s).2) (n : Nat) (b : Mt) :
    MtRel b (drawN f n b).2 :=
  draw_rel MtRel (fun _ => ⟨rfl, id⟩) (fun _ _ _ h k => ⟨k.1.trans h.1, k.2 ∘ h.2⟩) f hf n b

theorem bbsDraw {α} (f : Bbs → α × Bbs) (hf : ∀ s, BbsRel s (f s).2) (n : Nat) (b : Bbs) :
    BbsRel b (drawN f n b).2 :=
  draw_rel BbsRel (fun _ => ⟨rfl, fun _ => id⟩) (fun _ _ _ h k => ⟨k.1.trans h.1,
      fun w x => k.2 w (h.2 w x)⟩) f hf n b

end Sys2Proof.Machine
end

