-- ==== Sys2Proof/Laws/Ser.lean ====
section
/-! SUPPORT. The draws of the serializer, once each: how much they return and what they leave
(45_serializer.md R311 to R320). -/

namespace Sys2Proof.Machine

/-- What draws from a source do to the state: only the named instance changes, its VALID stays and
legal values stay legal. -/
structure SrcDrew (src : Src) (s t : State) : Prop where
  rest : t = { s with lcg := t.lcg, mt := t.mt, bbs := t.bbs }
  lcgOther : ∀ i, src ≠ .lcg i → t.lcg[i] = s.lcg[i]
  mtOther : ∀ i, src ≠ .mt i → t.mt[i] = s.mt[i]
  bbsOther : ∀ i, src ≠ .bbs i → t.bbs[i] = s.bbs[i]
  lcgKeep : ∀ i : Inst, t.lcg[i].valid = s.lcg[i].valid ∧ (s.lcg[i].Legal → t.lcg[i].Legal)
  mtKeep : ∀ i : Inst, t.mt[i].valid = s.mt[i].valid ∧ (s.mt[i].Legal → t.mt[i].Legal)
  bbsKeep : ∀ i : Inst, t.bbs[i].valid = s.bbs[i].valid ∧ ∀ w, s.bbs[i].Legal w → t.bbs[i].Legal w

theorem SrcDrew.refl (src : Src) (s : State) : SrcDrew src s s := ⟨rfl, fun _ _ => rfl,
    fun _ _ => rfl, fun _ _ => rfl, fun _ => ⟨rfl, id⟩, fun _ => ⟨rfl, id⟩, fun _ => ⟨rfl, fun _ => id⟩⟩

theorem SrcDrew.trans {src : Src} {a b c : State} (h : SrcDrew src a b) (k : SrcDrew src b c) :
    SrcDrew src a c :=
  ⟨by have e1 := h.rest; have e2 := k.rest; rw [e1] at e2; exact e2,
   fun i x => (k.lcgOther i x).trans (h.lcgOther i x),
       fun i x => (k.mtOther i x).trans (h.mtOther i x),
       fun i x => (k.bbsOther i x).trans (h.bbsOther i x),
   fun i => ⟨(k.lcgKeep i).1.trans (h.lcgKeep i).1, fun x => (k.lcgKeep i).2 ((h.lcgKeep i).2 x)⟩,
   fun i => ⟨(k.mtKeep i).1.trans (h.mtKeep i).1, fun x => (k.mtKeep i).2 ((h.mtKeep i).2 x)⟩,
   fun i => ⟨(k.bbsKeep i).1.trans (h.bbsKeep i).1, fun w x => (k.bbsKeep i).2 w ((h.bbsKeep i).2 w x)⟩⟩

theorem get_set {α : Type} (v : Vector α 4) (j i : Inst) (x : α) :
    (v.set j x)[i] = if j = i then x else v[i] := by
  simp only [Fin.getElem_fin, Vector.getElem_set, Fin.ext_iff]

theorem src_lcg (s : State) (j : Inst) (x : Lcg) (h : LcgRel s.lcg[j] x) :
    SrcDrew (.lcg j) s (s.setLcg j x) := by
  refine ⟨rfl, fun i hi => ?_, fun _ _ => rfl, fun _ _ => rfl, fun i => ?_, fun _ => ⟨rfl, id⟩,
      fun _ => ⟨rfl, fun _ => id⟩⟩
  · rw [State.setLcg_lcg, get_set, if_neg (fun c => hi (by rw [c]))]
  · rw [State.setLcg_lcg, get_set]
    split
    · next c => subst c; exact h
    · exact ⟨rfl, id⟩

theorem src_mt (s : State) (j : Inst) (x : Mt) (h : MtRel s.mt[j] x) :
    SrcDrew (.mt j) s (s.setMt j x) := by
  refine ⟨rfl, fun _ _ => rfl, fun i hi => ?_, fun _ _ => rfl, fun _ => ⟨rfl, id⟩, fun i => ?_,
      fun _ => ⟨rfl, fun _ => id⟩⟩
  · rw [State.setMt_mt, get_set, if_neg (fun c => hi (by rw [c]))]
  · rw [State.setMt_mt, get_set]
    split
    · next c => subst c; exact h
    · exact ⟨rfl, id⟩

theorem src_bbs (s : State) (j : Inst) (x : Bbs) (h : BbsRel s.bbs[j] x) :
    SrcDrew (.bbs j) s (s.setBbs j x) := by
  refine ⟨rfl, fun _ _ => rfl, fun _ _ => rfl, fun i hi => ?_, fun _ => ⟨rfl, id⟩, fun _ => ⟨rfl,
      id⟩, fun i => ?_⟩
  · rw [State.setBbs_bbs, get_set, if_neg (fun c => hi (by rw [c]))]
  · rw [State.setBbs_bbs, get_set]
    split
    · next c => subst c; exact h
    · exact ⟨rfl, fun _ => id⟩

theorem bbsByte_rel (b : Bbs) : BbsRel b (bbsByte b).2 := bbsDraw _ bbsStep_rel 8 b

theorem srcBytes_drew (s : State) (src : Src) (n : Nat) : SrcDrew src s (s.srcBytes src n).2 := by
  cases src with
  | lcg j => exact src_lcg _ _ _ (lcgDraw _ lcgStep_rel _ _)
  | mt j => exact src_mt _ _ _ (mtDraw _ mtExtract_rel _ _)
  | bbs j => exact src_bbs _ _ _ (bbsDraw _ bbsByte_rel _ _)

theorem srcBits_drew (s : State) (src : Src) (n : Nat) : SrcDrew src s (s.srcBits src n).2 := by
  cases src with
  | lcg j => exact srcBytes_drew s (.lcg j) _
  | mt j => exact srcBytes_drew s (.mt j) _
  | bbs j => exact src_bbs _ _ _ (bbsDraw _ bbsStep_rel _ _)

theorem srcFloats_drew (s : State) (src : Src) (n : Nat) : SrcDrew src s (s.srcFloats src n).2 := by
  cases src with
  | lcg j => exact src_lcg _ _ _ (lcgDraw lcgFloat lcgStep_rel _ _)
  | mt j => exact src_mt _ _ _ (mtDraw mtFloat mtExtract_rel _ _)
  | bbs j => exact src_bbs _ _ _ (bbsDraw bbsFloat bbsByte_rel _ _)

theorem srcBytes_length (s : State) (src : Src) (n : Nat) : (s.srcBytes src n).1.length = n := by
  cases src with
  | lcg j => simp [State.srcBytes]
  | mt j => simp only [State.srcBytes, List.length_take, flatMap_wordBytes_length, drawN_length,
      ceilDiv]; omega
  | bbs j => simp [State.srcBytes]

theorem srcBits_length (s : State) (src : Src) (n : Nat) : (s.srcBits src n).1.length = n := by
  cases src with
  | lcg j => simp only [State.srcBits, List.length_take, bytesBits_length, srcBytes_length,
      ceilDiv]; omega
  | mt j => simp only [State.srcBits, List.length_take, bytesBits_length, srcBytes_length,
      ceilDiv]; omega
  | bbs j => simp [State.srcBits]

theorem srcFloats_length (s : State) (src : Src) (n : Nat) : (s.srcFloats src n).1.length = n := by
  cases src <;> simp [State.srcFloats]

theorem xorAll_length (acc : List Byte) (ss : List (List Byte))
    (h : ∀ x ∈ ss, x.length = acc.length) : (xorAll acc ss).length = acc.length := by
  unfold xorAll
  induction ss generalizing acc with
  | nil => rfl
  | cons x xs ih =>
    have hx := h x (by simp)
    rw [List.foldl_cons, ih _ (fun y hy => by simp [h y (by simp [hy]), hx])]
    simp [hx]

theorem flatMap2_length {α β} (f : α → List β) (hf : ∀ x, (f x).length = 2) (xs : List α) :
    (xs.flatMap f).length = 2 * xs.length := by
  induction xs with
  | nil => rfl
  | cons x xs ih => simp [hf, ih]; omega

end Sys2Proof.Machine
end

