-- ==== Sys2Proof/Laws/Steps.lean ====
section
/-! SUPPORT. Everything a step of each agent can do, one lemma per operation, for later proofs
to cite instead of unfolding the step (20_memory.md R80 to R97, 60_exceptions.md R366). -/

namespace Sys2Proof.Machine

/-- The ways the processor agent's step goes on. -/
inductive ProcCase (s t : State) : Prop
  | fault : s.mode = .fault → t = s → ProcCase s t
  | idle : s.mode = .idle → t = s.readHeader → ProcCase s t
  | run (i rest) : s.mode = .exec → s.phase = .operands →
      decode s.params (s.hdr :: s.ops) = .ok i rest → exec i s = .next t → ProcCase s t
  | opnd : s.mode = .exec → s.phase = .operands → t = s.readOperand → ProcCase s t
  | rej (r) : s.mode = .exec → s.phase = .operands → decode s.params (s.hdr :: s.ops) = .reject r →
      r ≠ .truncated → t = s.raiseIllegal s.hdr → ProcCase s t
  | draw (i p q acc) : s.mode = .exec → s.phase = .draw i p q acc → t = s.drawStep i p q acc →
      ProcCase s t
  | resp (w todo) : s.mode = .exec → s.phase = .response w todo → t = s.writeResponse w todo →
      ProcCase s t

theorem proc_cases (s t : State) (h : procStep exec s = .next t) : ProcCase s t := by
  unfold procStep at h
  split at h
  · next c => injection h with h; exact .fault c h.symm
  · next c => injection h with h; exact .idle c h.symm
  · next c =>
    split at h
    · next c2 =>
      split at h
      · next i r e => exact .run i r c c2 e h
      · next e => injection h with h; exact .opnd c c2 h.symm
      · next r hr e => injection h with h; exact .rej r c c2 e (fun x => hr x) h.symm
    · next i p q acc c2 => injection h with h; exact .draw i p q acc c c2 h.symm
    · next w todo c2 => injection h with h; exact .resp w todo c c2 h.symm

theorem win_some {p : Params} {a off : Nat} (h : windowOffset p a = some off) :
    a = p.blockBase + off := by
  simp only [windowOffset] at h
  split at h
  · injection h with h; omega
  · cases h

/-- Everything a host access that is performed can do. -/
theorem bus_cases (a : Access) (s t : State) (h : busAccess a s = .next t) :
   (∃ x, t = s.reply (.error x)) ∨ (∃ off, t = (s.readReg off).2.reply (.data (s.readReg off).1)) ∨
   ∃ off v, t = (s.writeReg off v).reply .done ∧ a = .write 32 (s.params.blockBase + off) v := by
  simp only [busAccess] at h
  split at h
  · cases h
  · next off e =>
    split at h
    · next c =>
      cases a with
      | read b ad => injection h with h; exact .inr (.inl ⟨off, h.symm⟩)
      | write b ad v =>
        injection h with h
        refine .inr (.inr ⟨off, v, h.symm, ?_⟩)
        have e := win_some e
        simp only [Access.addr] at e
        simp only [Access.bits] at c
        rw [c.1, e]
    · injection h with h; exact .inl ⟨_, h.symm⟩

/-- Everything a step can do. -/
theorem step_cases (s t : State) (h : step s = .next t) :
    (∃ rest, ((s.bus = [] ∧ rest = []) ∨ s.bus = .quiet :: rest) ∧ ProcCase { s with bus := rest } t) ∨
    (∃ a rest, s.bus = .access a :: rest ∧ busAccess a { s with bus := rest } = .next t) ∨
    (∃ rest, s.bus = .hardReset :: rest ∧ t = ({ s with bus := rest } : State).hardReset) := by
  simp only [step, stepWith] at h
  split at h
  · next e => refine .inl ⟨[], .inl ⟨e, rfl⟩, ?_⟩
              have := proc_cases _ _ h
              cases s; simp only at e; subst e; exact this
  · next rest e => exact .inl ⟨rest, .inr e, proc_cases _ _ h⟩
  · next a rest e => exact .inr (.inl ⟨a, rest, e, h⟩)
  · next rest e => injection h with h; exact .inr (.inr ⟨rest, e, h.symm⟩)

/-- A step at quiet ports is the processor's, of either kind of quiet. -/
theorem step_quiet (s : State) (later : List BusEvent) (h : s.quietThen later) :
    step s = procStep exec { s with bus := later } := by
  rcases h with h | ⟨h, rfl⟩
  · simp only [step, stepWith, h]
  · simp only [step, stepWith, h]
    cases s; simp only at h; subst h; rfl

/-- A read changes at most the RSP FIFO and RSP_UDF (R80, R86). -/
theorem read_keeps (s : State) (off : Nat) :
    let t := (s.readReg off).2
    t = { s with rsp := t.rsp, err := { s.err with rspUdf := t.err.rspUdf } } ∧
    t.rsp.length ≤ s.rsp.length := by
  unfold State.readReg
  split
  all_goals try exact ⟨rfl, le_refl _⟩
  unfold State.readRsp
  split
  · next h => exact ⟨by rw [h], by simp⟩
  · next h => exact ⟨rfl, by rw [h]; simp⟩

/-- What a register write does, by offset (R80). -/
theorem write_cases (s : State) (off : Nat) (v : Word) :
   (off = 4 ∧ v.getLsbD 0 = true ∧ s.writeReg off v = s.softReset v) ∨
   (off = 4 ∧ v.getLsbD 0 = false ∧ s.writeReg off v = { s with ie := v.getLsbD 1 }) ∨
   (off = 12 ∧ s.writeReg off v = s.writeCmd v) ∨
   (s.writeReg off v = s.writeEnt v) ∨ (s.writeReg off v = s.writeErr v) ∨ s.writeReg off v = s := by
  unfold State.writeReg
  split
  · unfold State.writeCtrl
    cases c : v.getLsbD 0
    · exact .inr (.inl ⟨rfl, rfl, by simp⟩)
    · exact .inl ⟨rfl, rfl, by simp⟩
  · exact .inr (.inr (.inl ⟨rfl, rfl⟩))
  · exact .inr (.inr (.inr (.inl rfl)))
  · exact .inr (.inr (.inr (.inr (.inl rfl))))
  · exact .inr (.inr (.inr (.inr (.inr rfl))))

theorem run_add (m n : Nat) (s t : State) (h : Host.Core.run Sys2Proof.core m s = .next t) :
    Host.Core.run Sys2Proof.core (m + n) s = Host.Core.run Sys2Proof.core n t := by
  induction m generalizing s with
  | zero =>
    simp only [Host.Core.run] at h
    injection h with h
    subst h; rw [Nat.zero_add]
  | succ m ih =>
    rw [Nat.succ_add]
    simp only [Host.Core.run] at h ⊢
    split at h
    · next s' e => exact ih _ h
    · cases h
    · cases h

theorem run_one (s t : State) (h : step s = .next t) : Host.Core.run Sys2Proof.core 1 s = .next t := by
  have : Sys2Proof.core.step s = .next t := h
  simp only [Host.Core.run, this]

end Sys2Proof.Machine
end

