-- ==== Sys2Proof/Tests/Slice0.lean ====
section
/-! SUPPORT. The model's own tests: ill-formed terms the checks refuse, every constructor's decoding
from words written out by spec/30_encoding.md R111 to R124, single steps whose results are the vectors of
spec/95_test_vectors.md (named in each comment), and for every statement with hypotheses a state and
operands that meet them. -/

namespace Sys2Proof.Tests

open Sys2Proof Sys2Proof.Machine

/-! ## The states the tests start from -/

/-- R10's defaults but for a small BBS width and short strings, and four instances of each engine. -/
def small : Params :=
  { Params.default with bbsW := 64, maxStrBytes := 5, lcgNinst := 4, mtNinst := 4, bbsNinst := 4,
                        drbgNinst := 4 }

theorem test_small_legal : small.Legal := by decide

/-- LCG_GLIBC with seed 42. -/
def glibc : Lcg := { valid := true, value := 42, a := 1103515245, c := 12345, m := BitVec.ofNat 65 (2 ^ 31) }

/-- A valid bank of zeros at cursor `cur`. -/
def zeroBank (cur : BitVec 10) : Mt := { valid := true, w := Vector.replicate 624 0#32, cur := cur }

/-- BBS with p = 11, q = 23, X = 3. -/
def bbs253 : Bbs := { valid := true, x := 3, n := 253, p := 11, q := 23 }

/-- A DRBG instance with zero working state. -/
def drbgAt (v : Variant) (ctr interval : Word) : Drbg :=
  { Drbg.reset with inst := true, variant := v, ctr := ctr, interval := interval }

/-- An idle block in which instance 0 of every engine is in use; DRBG 1 is a Hash instance, DRBG 2 is
exhausted, and the last instance of every engine is as reset left it. -/
def busy : State :=
  { State.resetOf small with
    lcg := #v[glibc, glibc, Lcg.reset, Lcg.reset]
    mt := #v[zeroBank 624#10, zeroBank 0#10, Mt.reset (Vector.replicate 624 0#32),
      Mt.reset (Vector.replicate 624 0#32)]
    bbs := #v[bbs253, bbs253, Bbs.reset, Bbs.reset]
    drbg := #v[drbgAt .hmac 1 10000, drbgAt .hash 1 1, drbgAt .hmac 3 2, Drbg.reset] }

/-- The response words a Compute step leaves to be written, if it leaves a response. -/
def answer : Host.Outcome State Fault Refusal → Option (List Word)
  | .next t => match t.phase with
    | .response _ todo => some todo
    | .operands => none
    | .draw _ _ _ _ => none
  | .fault _ => none
  | .refused _ => none

/-- What `f` reads in the next state. -/
def after {α : Type} (f : State → α) : Host.Outcome State Fault Refusal → Option α
  | .next t => some (f t)
  | .fault _ => none
  | .refused _ => none

/-! ## WellFormed refuses -/

theorem test_wf_lcg_instance : (Instr.lcgRead 1).wellFormed Params.default = false := by decide
theorem test_wf_mt_instance : (Instr.mtTwist 2).wellFormed Params.default = false := by decide
theorem test_wf_bbs_instance : (Instr.bbsRead 3).wellFormed Params.default = false := by decide
theorem test_wf_drbg_instance : (Instr.drbgRead 1).wellFormed Params.default = false := by decide
theorem test_wf_source : (Instr.serBytes (.mt 2) 1#20).wellFormed Params.default = false := by decide
theorem test_wf_source_bbs : (Instr.serInt (.bbs 1) 0 1).wellFormed Params.default = false := by decide
theorem test_wf_factor : (Instr.bbsInit 0 (2 ^ 32) 23 none).wellFormed small = false := by decide
theorem test_wf_factor_q : (Instr.bbsInit 0 11 (2 ^ 32) none).wellFormed small = false := by decide
theorem test_wf_seed : (Instr.bbsInit 0 11 23 (some (2 ^ 64))).wellFormed small = false := by decide
theorem test_wf_count (ws : List Word) (h : ws.length = 2 ^ 20) :
    (Instr.sysEcho ws).wellFormed small = false := by
  simp only [Instr.wellFormed, countFits, h, decide_eq_false_iff_not]; omega
theorem test_wf_count_strings (ss : List (List Byte)) (h : ss.length = 2 ^ 20) :
    (Instr.serXor ss).wellFormed small = false := by
  simp only [Instr.wellFormed, countFits, h, Nat.lt_irrefl, decide_false, Bool.false_and]
theorem test_wf_string (b : List Byte) (h : b.length = 2 ^ 32) :
    (Instr.drbgGenerate 0 1#20 b).wellFormed small = false := by
  simp only [Instr.wellFormed, strFits, h, Nat.lt_irrefl, decide_false, Bool.and_false]
theorem test_wf_accepts : (Instr.bbsInit 3 (2 ^ 32 - 1) 23 (some (2 ^ 64 - 1))).wellFormed small = true := by
  decide

/-! ## Decoding, one word list for every constructor (R123, R124) -/

theorem test_decode_sysNop : decode small [0x00000000#32] = .ok .sysNop [] := by decide
theorem test_decode_sysInfo : decode small [0x01000000#32] = .ok .sysInfo [] := by decide
theorem test_decode_sysEcho :
    decode small [0x02000001#32, 7#32, 8#32] = .ok (.sysEcho [7#32]) [8#32] := by decide
theorem test_decode_lcgInit :
    decode small [0x10200000#32, 1#32, 2#32, 3#32, 4#32, 5#32, 6#32, 1#32, 0#32, 9#32] =
      .ok (.lcgInit 2 0x100000002#64 0x300000004#64 0x500000006#64 (BitVec.ofNat 96 (2 ^ 64 + 9))) [] := by
  decide
theorem test_decode_lcgPreset :
    decode small [0x1110000F#32, 0#32, 42#32] = .ok (.lcgPreset 1 15#4 42#64) [] := by decide
theorem test_decode_lcgNext : decode small [0x120FFFFF#32] = .ok (.lcgNext 0 0xFFFFF#20) [] := by decide
theorem test_decode_lcgRead : decode small [0x13300000#32] = .ok (.lcgRead 3) [] := by decide
theorem test_decode_mtSeed :
    decode small [0x20100000#32, 0x00001571#32] = .ok (.mtSeed 1 5489#32) [] := by decide
theorem test_decode_mtExtract : decode small [0x21000271#32] = .ok (.mtExtract 0 625#20) [] := by decide
theorem test_decode_mtTwist : decode small [0x22200000#32] = .ok (.mtTwist 2) [] := by decide
theorem test_decode_mtTemper :
    decode small [0x23000002#32, 1#32, 2#32] = .ok (.mtTemper 0 [1#32, 2#32]) [] := by decide
theorem test_decode_mtUntemper :
    decode small [0x24000002#32, 1#32, 2#32] = .ok (.mtUntemper 0 [1#32, 2#32]) [] := by decide
theorem test_decode_mtClone :
    decode small [0x25000003#32, 1#32, 2#32, 3#32] = .ok (.mtClone 0 [1#32, 2#32, 3#32]) [] := by decide
theorem test_decode_mtRead : decode small [0x26100000#32] = .ok (.mtRead 1) [] := by decide
theorem test_decode_mtWrite :
    (match decode small (0x27100000#32 :: 5#32 :: 7#32 :: List.replicate 622 0#32 ++ [9#32]) with
      | .ok (.mtWrite i cur ws) rest => some (i, cur, ws[0], ws[623], rest)
      | _ => none) = some (1, 5#32, 7#32, 9#32, []) := by decide +kernel
theorem test_decode_bbsInit :
    decode small [0x30000000#32, 11#32, 23#32] = .ok (.bbsInit 0 11 23 none) [] := by decide
theorem test_decode_bbsInit_seeded :
    decode small [0x30000001#32, 11#32, 23#32, 1#32, 3#32] =
      .ok (.bbsInit 0 11 23 (some (2 ^ 32 + 3))) [] := by decide
theorem test_decode_bbsNextBit : decode small [0x31000021#32] = .ok (.bbsNextBit 0 33#20) [] := by decide
theorem test_decode_bbsRead : decode small [0x32000000#32] = .ok (.bbsRead 0) [] := by decide
theorem test_decode_drbgInstantiate :
    decode small [0x40000001#32, 1#32, 0xAA000000#32, 5#32, 0x01020304#32, 0x05FFFFFF#32, 0#32] =
      .ok (.drbgInstantiate 0 .hash [0xAA#8] [1#8, 2#8, 3#8, 4#8, 5#8] []) [] := by decide
theorem test_decode_drbgGenerate :
    decode small [0x41000005#32, 2#32, 0xABCD0000#32] = .ok (.drbgGenerate 0 5#20 [0xAB#8, 0xCD#8]) [] := by
  decide
theorem test_decode_drbgReseed :
    decode small [0x42000000#32, 2#32, 0x01020000#32, 0#32] =
      .ok (.drbgReseed 0 [0x01#8, 0x02#8] []) [] := by decide
theorem test_decode_drbgGenBits : decode small [0x4310000C#32] = .ok (.drbgGenBits 1 12#20) [] := by decide
theorem test_decode_drbgRandomInt :
    decode small [0x44000000#32, 0xFFFFFFFF#32, 0xFFFFFFFB#32, 0#32, 6#32] =
      .ok (.drbgRandomInt 0 (BitVec.ofInt 64 (-5)) 6#64) [] := by decide
theorem test_decode_drbgSetInterval :
    decode small [0x45000000#32, 0x80000000#32] = .ok (.drbgSetInterval 0 0x80000000#32) [] := by decide
theorem test_decode_drbgRead : decode small [0x46000000#32] = .ok (.drbgRead 0) [] := by decide
theorem test_decode_serBytes : decode small [0x50900010#32] = .ok (.serBytes (.bbs 1) 16#20) [] := by decide
theorem test_decode_serBits : decode small [0x5140000C#32] = .ok (.serBits (.mt 0) 12#20) [] := by decide
theorem test_decode_serFloat : decode small [0x52300001#32] = .ok (.serFloat (.lcg 3) 1#20) [] := by decide
theorem test_decode_serInt :
    decode small [0x53800000#32, 0#32, 1#32, 0#32, 6#32] = .ok (.serInt (.bbs 0) 1#64 6#64) [] := by decide
theorem test_decode_serXor :
    decode small [0x54000002#32, 1#32, 0x01000000#32, 1#32, 0x03000000#32] =
      .ok (.serXor [[0x01#8], [0x03#8]]) [] := by decide

/-! Rejections: vectors Y5, Y6, Y7, L14, M20, M21, B14, H20, H21, X25, X26. -/

theorem test_reject_arg : decode Params.default [0x00000001#32] = .reject .argForm := by decide
theorem test_reject_sysInst : decode Params.default [0x00100000#32] = .reject .sysInst := by decide
theorem test_reject_eng : decode Params.default [0x60000000#32] = .reject .engReserved := by decide
theorem test_reject_op : decode Params.default [0x28000000#32] = .reject .opReserved := by decide
theorem test_reject_drbgOp : decode Params.default [0x47000000#32] = .reject .opReserved := by decide
theorem test_reject_inst : decode Params.default [0x20200000#32] = .reject .instRange := by decide
theorem test_reject_seeded : decode Params.default [0x30000002#32] = .reject .argForm := by decide
theorem test_reject_preset : decode Params.default [0x11000010#32] = .reject .argForm := by decide
theorem test_reject_src : decode Params.default [0x50C00001#32] = .reject .srcRange := by decide
theorem test_reject_xor : decode Params.default [0x54100001#32] = .reject .xorInst := by decide
theorem test_reject_short : decode Params.default [0x02000002#32, 1#32] = .reject .truncated := by decide
theorem test_table_word : decodeTableWord 96 (0x11000002 + 42 * 2 ^ 64) = some (.lcgPreset 0 2#4 42#64) := by
  decide +kernel

/-! ## One step of each instruction -/

/-- Y1. -/
theorem test_sysNop : answer (exec .sysNop busy) = some [0x00000000#32, 0#32] := by decide
/-- Y2. -/
theorem test_sysInfo : answer (exec .sysInfo State.reset) = some [0x01000000#32, 8#32, 0x54585207#32,
    0x00001121#32, 0x00000800#32, 0x00001000#32, 0x64#32, 0x10#32, 0x10#32, 0x10#32] := by decide
/-- Y3. -/
theorem test_sysEcho : answer (exec (.sysEcho [0xDEADBEEF#32, 1#32]) busy) =
    some [0x02000000#32, 2#32, 0xDEADBEEF#32, 1#32] := by decide
/-- L9: a seed above m is reduced. -/
theorem test_lcgInit_reduces :
    after (fun t => t.lcg[0].value) (exec (.lcgInit 0 0x8000002A#64 1103515245#64 12345#64
      (BitVec.ofNat 96 (2 ^ 31))) State.reset) = some 42#64 := by decide
/-- L6: m = 2^64 + 1. -/
theorem test_lcgInit_large :
    answer (exec (.lcgInit 0 1 1 1 (BitVec.ofNat 96 (2 ^ 64 + 1))) State.reset) =
      some [0x10000001#32, 0#32] := by decide
/-- L8. -/
theorem test_lcgPreset_reserved :
    answer (exec (.lcgPreset 0 3#4 1#64) State.reset) = some [0x11000001#32, 0#32] := by decide
/-- L11: RANDU from 1 multiplies by 65539. -/
theorem test_lcgPreset_randu :
    after (fun t => (lcgStep t.lcg[0]).1) (exec (.lcgPreset 0 1#4 1#64) State.reset) =
      some 0x00010003#64 := by decide
/-- L1. -/
theorem test_lcgNext : answer (exec (.lcgNext 0 3#20) busy) = some [0x12000000#32, 6#32, 0#32,
    0x4A890E1B#32, 0#32, 0x42896BB8#32, 0#32, 0x3BA51D91#32] := by decide
/-- L4. -/
theorem test_lcgNext_invalid :
    answer (exec (.lcgNext 0 1#20) State.reset) = some [0x12000008#32, 0#32] := by decide
/-- L2's layout, at VALUE 42. -/
theorem test_lcgRead : answer (exec (.lcgRead 0) busy) = some [0x13000000#32, 10#32, 1#32, 0#32, 42#32,
    0#32, 0x41C64E6D#32, 0#32, 0x00003039#32, 0#32, 0#32, 0x80000000#32] := by decide
/-- M1: the first words of the fill. -/
theorem test_mtSeed :
    after (fun t => (t.mt[1].w.toList.take 4, t.mt[1].cur)) (exec (.mtSeed 1 42#32) busy) =
      some ([0x0000002A#32, 0xB93C8A93#32, 0x71014437#32, 0xE87ACF51#32], 624#10) := by decide +kernel
/-- R193: at cursor 0 an output is the tempered word there; Temper(0) = 0 (M9). -/
theorem test_mtExtract :
    answer (exec (.mtExtract 1 2#20) busy) = some [0x21100000#32, 2#32, 0#32, 0#32] := by decide +kernel
/-- M13. -/
theorem test_mtExtract_invalid :
    answer (exec (.mtExtract 3 1#20) busy) = some [0x21300008#32, 0#32] := by decide
/-- M17: the all-zero array stays zero; the cursor goes to 0. -/
theorem test_mtTwist :
    after (fun t => t.mt[0].cur) (exec (.mtTwist 0) busy) = some 0#10 := by decide +kernel
/-- M13. -/
theorem test_mtTwist_invalid : answer (exec (.mtTwist 3) busy) = some [0x22300008#32, 0#32] := by decide
/-- M8 and M9. -/
theorem test_mtTemper : answer (exec (.mtTemper 0 [1#32, 0xFFFFFFFF#32, 0x80000000#32]) State.reset) =
    some [0x23000000#32, 3#32, 0x00400091#32, 0x6FE01BF8#32, 0x88102204#32] := by decide
/-- M10 and M11. -/
theorem test_mtUntemper : answer (exec (.mtUntemper 0 [0x00400091#32, 0x2B7E4A2D#32, 1#32]) State.reset) =
    some [0x24000000#32, 3#32, 1#32, 0x12345678#32, 0x102244C9#32] := by decide
/-- M14. -/
theorem test_mtClone_short :
    answer (exec (.mtClone 0 [1#32, 2#32, 3#32]) State.reset) = some [0x25000006#32, 0#32] := by decide
/-- M11 in the place of an output: W[0] is the untempered first output. -/
theorem test_mtClone : after (fun t => (t.mt[0].valid, t.mt[0].cur, t.mt[0].w[0]))
    (exec (.mtClone 0 (1#32 :: List.replicate 623 0#32)) State.reset) =
      some (true, 624#10, 0x102244C9#32) := by decide +kernel
/-- R202: the cursor and 624 words. -/
theorem test_mtRead :
    (answer (exec (.mtRead 0) busy)).map (fun r => (r.take 3, r.length)) =
      some ([0x26000000#32, 625#32, 624#32], 627) := by decide +kernel
/-- M16. -/
theorem test_mtWrite_cursor :
    answer (exec (.mtWrite 0 625#32 (Vector.replicate 624 0#32)) State.reset) =
      some [0x27000001#32, 0#32] := by decide
/-- M17. -/
theorem test_mtWrite : after (fun t => (t.mt[0].valid, t.mt[0].cur))
    (exec (.mtWrite 0 0#32 (Vector.replicate 624 0#32)) State.reset) = some (true, 0#10) := by decide
/-- B6: the seed 256 is reduced modulo 253. -/
theorem test_bbsInit :
    after (fun t => t.bbs[0]) (exec (.bbsInit 0 11 23 (some 256)) State.reset) = some bbs253 := by decide
/-- B4 and B5. -/
theorem test_bbsInit_refused :
    answer (exec (.bbsInit 0 11 23 (some 11)) State.reset) = some [0x30000002#32, 0#32] ∧
    answer (exec (.bbsInit 0 7 7 (some 2)) State.reset) = some [0x30000001#32, 0#32] := by decide
/-- B11. -/
theorem test_bbsNextBit : answer (exec (.bbsNextBit 0 33#20) busy) =
    some [0x31000000#32, 2#32, 0xCA0D9CA0#32, 0x80000000#32] := by decide
/-- B12's last candidate: 0x105 is 261, whose low 8 bits are 5. -/
theorem test_bbsDraw :
    (State.bbsTryCandidate busy 0 11 23 [0x00000105#32]).bbs[0].x = 5 ∧
    (State.bbsTryCandidate busy 0 11 23 [0x000000FD#32]).bbs[0].x = 3 := by decide
/-- B2's layout, at X = 3. -/
theorem test_bbsRead : answer (exec (.bbsRead 0) busy) =
    some [0x32000000#32, 7#32, 1#32, 0#32, 3#32, 0#32, 0xFD#32, 0xB#32, 0x17#32] := by decide
/-- R260: CTR is 1 and INTERVAL stays; a string above MAX_STR_BYTES is refused (R126). -/
theorem test_drbgInstantiate :
    after (fun t => (t.drbg[3].inst, t.drbg[3].ctr, t.drbg[3].interval))
      (exec (.drbgInstantiate 3 .hmac [1#8] [] []) busy) = some (true, 1#32, 10000#32) ∧
    answer (exec (.drbgInstantiate 3 .hash [] [] (List.replicate 6 0#8)) busy) =
      some [0x40300001#32, 0#32] := by decide
/-- H14: n = 0 advances CTR. -/
theorem test_drbgGenerate_zero :
    answer (exec (.drbgGenerate 0 0#20 []) busy) = some [0x41000000#32, 0#32] ∧
    after (fun t => t.drbg[0].ctr) (exec (.drbgGenerate 0 0#20 []) busy) = some 2#32 := by decide
/-- H8 and R269's bound: CTR 3 exceeds INTERVAL 2. -/
theorem test_drbgGenerate_refused :
    answer (exec (.drbgGenerate 3 4#20 []) busy) = some [0x41300008#32, 0#32] ∧
    answer (exec (.drbgGenerate 2 4#20 []) busy) = some [0x41200003#32, 0#32] := by decide
/-- H18: a reseed works from Uninstantiated. -/
theorem test_drbgReseed :
    after (fun t => (t.drbg[3].inst, t.drbg[3].ctr)) (exec (.drbgReseed 3 [1#8, 2#8] []) busy) =
      some (true, 1#32) := by decide
/-- H10. -/
theorem test_drbgGenBits :
    answer (exec (.drbgGenBits 0 0#20) busy) = some [0x43000001#32, 0#32] ∧
    after (fun t => t.drbg[1].ctr) (exec (.drbgGenBits 1 12#20) busy) = some 2#32 := by decide
/-- H11 and H12. -/
theorem test_drbgRandomInt :
    answer (exec (.drbgRandomInt 0 6#64 1#64) busy) = some [0x44000001#32, 0#32] ∧
    answer (exec (.drbgRandomInt 0 (BitVec.ofInt 64 (-5)) (BitVec.ofInt 64 (-5))) busy) =
      some [0x44000000#32, 2#32, 0xFFFFFFFF#32, 0xFFFFFFFB#32] := by decide
/-- H17. -/
theorem test_drbgSetInterval :
    answer (exec (.drbgSetInterval 0 0#32) busy) = some [0x45000001#32, 0#32] ∧
    answer (exec (.drbgSetInterval 0 0x80000001#32) busy) = some [0x45000001#32, 0#32] ∧
    after (fun t => t.drbg[0].interval) (exec (.drbgSetInterval 0 0x80000000#32) busy) =
      some 0x80000000#32 := by decide
/-- H9, and the flags of an exhausted instance (R53, R271). -/
theorem test_drbgRead :
    answer (exec (.drbgRead 3) busy) =
      some ([0x46300000#32, 19#32, 0#32, 0#32, 10000#32] ++ List.replicate 16 0#32) ∧
    (answer (exec (.drbgRead 2) busy)).map (fun r => r.take 5) =
      some [0x46200000#32, 19#32, 0x201#32, 3#32, 2#32] := by decide
/-- X1's first word, and X23. -/
theorem test_serBytes :
    answer (exec (.serBytes (.lcg 0) 4#20) busy) = some [0x50000000#32, 1#32, 0x1BB891F6#32] ∧
    answer (exec (.serBytes (.mt 3) 4#20) busy) = some [0x50700008#32, 0#32] := by decide
/-- X10 and X11. -/
theorem test_serBits :
    answer (exec (.serBits (.lcg 0) 12#20) busy) = some [0x51000000#32, 1#32, 0x1BB00000#32] ∧
    answer (exec (.serBits (.bbs 0) 12#20) busy) = some [0x51800000#32, 1#32, 0xCA000000#32] := by decide
/-- X14. -/
theorem test_serFloat : answer (exec (.serFloat (.lcg 0) 1#20) busy) =
    some [0x52000000#32, 2#32, 0x3FE2A243#32, 0x86C00000#32] := by decide
/-- X13 and X15: the pattern of R320 at an MT output and at the largest value of 64 bits. -/
theorem test_f64 :
    f64 0x5FE1DC66 32 = 0x3FD7F87719800000#64 ∧ f64 (2 ^ 64 - 1) 64 = 0x3FEFFFFFFFFFFFFF#64 := by decide
/-- X21. -/
theorem test_serInt : answer (exec (.serInt (.lcg 0) 0#64 1000#64) busy) =
    some [0x53000000#32, 2#32, 0#32, 0x6E#32] := by decide
/-- X22 with one attempt: X stays 1, so k bits of 1 exceed the range. -/
theorem test_serInt_fails :
    answer (exec (.serInt (.bbs 0) 0#64 5#64)
      { busy with params := { small with rangeMaxAttempts := 1 }
                  bbs := busy.bbs.set 0 { bbs253 with x := 1 } }) = some [0x53800004#32, 0#32] := by decide
/-- X4. -/
theorem test_serXor : answer (exec (.serXor [[1#8, 2#8], [3#8, 3#8]]) busy) =
    some [0x54000000#32, 1#32, 0x02010000#32] := by decide
/-- X5 and X6. -/
theorem test_serXor_refused :
    answer (exec (.serXor [[1#8, 2#8], [3#8]]) busy) = some [0x54000005#32, 0#32] ∧
    answer (exec (.serXor []) busy) = some [0x54000001#32, 0#32] := by decide

/-! ## The host's registers, faults and reset -/

/-- A read at byte address `addr` in the reset state. -/
def readAt (s : State) (bits addr : Nat) : Option (List BusReply) :=
  after (fun t => t.busOut) (step { s with bus := [.access (.read bits addr)] })

/-- G1. -/
theorem test_reset_registers :
    readAt State.reset 32 0x00 = some [.data 0x54585207#32] ∧
    readAt State.reset 32 0x04 = some [.data 0#32] ∧
    readAt State.reset 32 0x08 = some [.data 0x00100000#32] ∧
    readAt State.reset 32 0x18 = some [.data 0#32] ∧
    readAt State.reset 32 0x1C = some [.data 0#32] := by decide
/-- G3. -/
theorem test_bus_error :
    readAt State.reset 8 0x09 = some [.error 0x09] ∧ readAt State.reset 32 0x0A = some [.error 0x0A] := by
  decide
/-- G2: an underflow read returns 0 and sets ERR.RSP_UDF; writing 2 to ERR clears it. -/
theorem test_rsp_underflow :
    after (fun t => t.err.word) (step { State.reset with bus := [.access (.read 32 0x10)] }) = some 2#32 ∧
    after (fun t => t.err.word) (step { State.reset with
      err := { Err.reset with rspUdf := true }, bus := [.access (.write 32 0x18 2#32)] }) = some 0#32 := by
  decide
/-- P6, row 3: STATUS with four response words in RSP, in FAULT. -/
theorem test_status_fault :
    { State.reset with mode := .fault, rsp := [0#32, 0#32, 0x60000007#32, 0#32] }.statusWord =
      0x04100014#32 := by decide
/-- P6: the illegal header ends in FAULT, its response written, the rest discarded. -/
theorem test_illegal_header :
    after (fun t => (t.rsp, t.err.word, t.faultInfo))
      (step { State.reset with cmd := [0x60000000#32, 0x20000000#32, 1#32] }) =
      some ([], 8#32, 0x60000000#32) := by decide
/-- G7: the write into a full CMD FIFO. -/
theorem test_cmd_overflow :
    after (fun t => (t.err.word, t.faultInfo, t.fpend, t.cmd.length))
      (step { State.reset with cmd := List.replicate 16 0#32
                               bus := [.access (.write 32 0x0C 0x01000000#32)] }) =
      some (1#32, 0x01000000#32, true, 16) := by decide
/-- P6, row 8: a soft reset with IE set. -/
theorem test_soft_reset :
    after (fun t => (t.ctrlWord, t.statusWord, t.mode, t.faultInfo))
      (step { State.reset with mode := .fault, faultInfo := 5#32
                               bus := [.access (.write 32 0x04 3#32)] }) =
      some (2#32, 0x00100000#32, .idle, 0#32) := by decide
/-- What `withFetchWord` places is the next instruction run: MT_EXTRACT on a bank after reset (P6). -/
theorem test_fetch :
    answer (step (State.reset.withFetchWord 32 0x21000001)) = some [0x21000008#32, 0#32] := by decide
/-- R82. -/
theorem test_outside_window :
    busAccess (.read 32 0x20) State.reset = .fault (.outsideWindow 0x20) := by rfl

/-! ## Witnesses

For each statement with hypotheses, a concrete state and operands that meet them; where a statement has
several clauses, each clause has its own, at a boundary of its range. -/

theorem glibc_legal : glibc.Legal := by unfold Lcg.Legal; decide
theorem zeroBank_legal : (zeroBank 624#10).Legal := by unfold Mt.Legal; decide
theorem bbs253_legal : bbs253.Legal 64 := by unfold Bbs.Legal; decide
theorem drbgAt_legal (v : Variant) (ctr interval : Word)
    (h : (1 ≤ interval.toNat ∧ interval.toNat ≤ 2 ^ 31) ∧ ctr.toNat ≤ 2 ^ 31 + 1 ∧ 1 ≤ ctr.toNat) :
    (drbgAt v ctr interval).Legal :=
  ⟨h.1, h.2.1, fun _ => h.2.2, fun x => (nomatch x), fun _ j _ => by simp [drbgAt, Drbg.reset]⟩

theorem busy_drbg_legal : ∀ j : Inst, busy.drbg[j].Legal
  | 0 => drbgAt_legal .hmac 1 10000 (by decide)
  | 1 => drbgAt_legal .hash 1 1 (by decide)
  | 2 => drbgAt_legal .hmac 3 2 (by decide)
  | 3 => ⟨by decide, by decide, fun x => (nomatch x), fun _ => rfl, fun _ j _ => by
      show (Vector.replicate 55 0#8)[j] = 0#8 ∧ (Vector.replicate 55 0#8)[j] = 0#8
      simp⟩

/-- The invariant holds in `busy`. -/
theorem busy_inv : Inv busy where
  params := test_small_legal
  cmdBound := by decide
  rspBound := by decide
  entBound := by decide
  lcg := by unfold Lcg.Legal; decide
  mt := by unfold Mt.Legal; decide
  bbs := by unfold Bbs.Legal; decide
  drbg := busy_drbg_legal
  absent i := ⟨fun h => absurd h (Nat.not_le.2 i.isLt), fun h => absurd h (Nat.not_le.2 i.isLt),
    fun h => absurd h (Nat.not_le.2 i.isLt), fun h => absurd h (Nat.not_le.2 i.isLt)⟩
  quiet _ := ⟨rfl, rfl, rfl⟩
  halted h := nomatch h
  cause := rfl
  oneFault := rfl
  header h := nomatch h
  drawing _ _ _ _ h := nomatch h
  responding _ _ h := nomatch h

theorem witness_SystemCommandsAnswer :
    busy.params.Legal ∧ (List.replicate 3 0#32 : List Word).length < 2 ^ 20 ∧
    ([] : List Word).length < 2 ^ 20 := by decide

theorem witness_LcgInitResult :
    (0#96).toNat = 0 ∧ 2 ^ 64 < (BitVec.ofNat 96 (2 ^ 64 + 1)).toNat ∧
    (0 < (1#96).toNat ∧ (1#96).toNat ≤ 2 ^ 64) ∧
    (0 < (BitVec.ofNat 96 (2 ^ 64)).toNat ∧ (BitVec.ofNat 96 (2 ^ 64)).toNat ≤ 2 ^ 64) := by decide

theorem witness_LcgPresetResult : 3 ≤ (3#4).toNat ∧ 3 ≤ (15#4).toNat := by decide

theorem witness_LcgNextResult :
    busy.lcg[2].valid = false ∧ busy.lcg[0].valid = true ∧ busy.lcg[0].Legal :=
  ⟨by decide, by decide, glibc_legal⟩

theorem witness_LcgRangeLaw :
    busy.lcg[0].valid = true ∧ busy.lcg[0].Legal ∧ 2 < (3#20).toNat ∧ busy.lcg[1] = busy.lcg[0] :=
  ⟨by decide, glibc_legal, by decide, by decide⟩

theorem witness_LcgReadResult : busy.lcg[3] = Lcg.reset := by decide

theorem witness_MtTwistInPlace : busy.mt[2].valid = false ∧ busy.mt[0].valid = true := by decide

theorem witness_MtExtractResult :
    busy.mt[2].valid = false ∧ (busy.mt[0].valid = true ∧ busy.mt[0].Legal ∧ busy.mt[0].cur = 624#10) ∧
    busy.mt[1].valid = true ∧ busy.mt[1].Legal ∧ busy.mt[1].cur = 0#10 := by
  unfold Mt.Legal; decide

theorem witness_MtTemperResults : ([1#32, 2#32] : List Word).length < 2 ^ 20 := by decide

theorem witness_MtCloneResult (w : Word) :
    (List.replicate 623 w).length < 624 ∧ 624 < (List.replicate 625 w).length ∧
    (List.replicate 624 w).length = 624 ∧ (List.replicate 625 w).length < 2 ^ 20 := by
  rw [List.length_replicate, List.length_replicate, List.length_replicate]; omega

theorem witness_MtReadWriteResults :
    busy.mt[2].valid = false ∧ 624 < (625#32).toNat ∧ (624#32).toNat ≤ 624 ∧ (0#32).toNat ≤ 624 ∧
    busy.mt[0].valid = true ∧ busy.mt[0].Legal ∧
    exec (.mtRead 0) busy = .next (busy.answered (responseHeader 2 6 (instNibble 0) 0x00#8)
      (624#32 :: (Vector.replicate 624 0#32).toList)) :=
  ⟨by decide, by decide, by decide, by decide, by decide, zeroBank_legal, rfl⟩

theorem witness_CloneLaw : busy.mt[1].valid = true ∧ busy.mt[1].Legal := by
  unfold Mt.Legal; decide

theorem witness_BbsInitResult :
    ¬ (5 % 4 = 3 ∧ 7 % 4 = 3 ∧ 5 ≠ 7) ∧ ¬ (7 % 4 = 3 ∧ 7 % 4 = 3 ∧ 7 ≠ 7) ∧
    (11 % 4 = 3 ∧ 23 % 4 = 3 ∧ 11 ≠ 23) ∧ Nat.gcd 0 (11 * 23) ≠ 1 ∧ Nat.gcd 256 (11 * 23) = 1 := by decide

/-- B12's draw: 0, 0xFD and 0x16 are rejected, 0x105 is accepted. -/
theorem witness_SeedlessDrawRuns :
    let n := 11 * 23
    let candidate (ws : List Word) : Nat := natOfWords ws % 2 ^ bitlen n
    let accepted (ws : List Word) : Prop :=
      2 ≤ candidate ws ∧ candidate ws ≤ n - 1 ∧ Nat.gcd (candidate ws) n = 1
    (11 % 4 = 3 ∧ 23 % 4 = 3 ∧ 11 ≠ 23) ∧
    (∀ ws ∈ [[0x00#32], [0xFD#32], [0x16#32]], ws.length = ceilDiv (bitlen n) 32 ∧ ¬ accepted ws) ∧
    [0x105#32].length = ceilDiv (bitlen n) 32 ∧ accepted [0x105#32] ∧
    let s := { busy with ent := [0x00#32, 0xFD#32, 0x16#32, 0x105#32, 9#32] }
    s.bus = [] ∧ s.ent = [[0x00#32], [0xFD#32], [0x16#32]].flatten ++ [0x105#32] ++ [9#32] := by decide

/-- The single steps: a 2048-bit modulus, whose draw of 64 words is longer than ENT ever holds, with one
word missing; a whole candidate that is rejected and one that is accepted; and a host write still to
happen behind a quiet event. -/
theorem witness_SeedlessDrawRuns_steps :
    let n := 11 * 23
    let candidate (ws : List Word) : Nat := natOfWords ws % 2 ^ bitlen n
    let accepted (ws : List Word) : Prop :=
      2 ≤ candidate ws ∧ candidate ws ≤ n - 1 ∧ Nat.gcd (candidate ws) n = 1
    State.quietThen { busy with bus := [.quiet, .access (.write 32 0x14 7#32)] }
      [.access (.write 32 0x14 7#32)] ∧
    State.quietThen busy [] ∧
    (let p := 2 ^ 1024 - 1
     let q := 2 ^ 1024 - 5
     let s := { busy with mode := .exec, phase := .draw 0 p q (List.replicate 63 0#32), ent := [5#32] }
     s.mode = .exec ∧ s.phase = .draw 0 p q (List.replicate 63 0#32) ∧
      (List.replicate 63 0#32).length < ceilDiv (bitlen (p * q)) 32 ∧
      ceilDiv (bitlen (p * q)) 32 = 64 ∧ s.ent = 5#32 :: []) ∧
    (ceilDiv (bitlen n) 32 ≤ [0xFD#32].length ∧ ¬ accepted [0xFD#32]) ∧
    ceilDiv (bitlen n) 32 ≤ [0x105#32].length ∧ accepted [0x105#32] := by
  refine ⟨.inl rfl, .inr ⟨rfl, rfl⟩, ⟨rfl, rfl, ?_, ?_, rfl⟩, ?_, ?_⟩ <;> decide +kernel

theorem witness_BbsNextBitResult :
    busy.bbs[2].valid = false ∧ busy.bbs[0].valid = true ∧ busy.bbs[0].Legal busy.params.bbsW :=
  ⟨by decide, by decide, bbs253_legal⟩

theorem witness_BbsReadResult :
    busy.params.Legal ∧ busy.bbs[0].valid = true ∧ busy.bbs[0].Legal busy.params.bbsW ∧
    busy.bbs[3] = Bbs.reset := ⟨test_small_legal, by decide, bbs253_legal, by decide⟩

theorem witness_BbsReproducible :
    (busy.bbs[0].valid = true ∧ busy.bbs[1].valid = true ∧ busy.bbs[0].x = busy.bbs[1].x ∧
      busy.bbs[0].n = busy.bbs[1].n) ∧
    ((11 % 4 = 3 ∧ 23 % 4 = 3 ∧ 11 ≠ 23) ∧ Nat.gcd 3 (11 * 23) = 1) ∧
    bbs253.x < bbs253.n ∧ bbs253.n = 253 ∧ bbs253.x = 3 := by decide

theorem witness_BitStringPacking : 31 < 32 * ceilDiv (List.replicate 31 true).length 32 := by decide

/-- Five bytes, the padding of the second word being ones. -/
theorem witness_ByteStringPacking :
    let b : List Byte := [1#8, 2#8, 3#8, 4#8, 5#8]
    let ws : List Word := [0x01020304#32, 0x05FFFFFF#32]
    7 < 4 * ceilDiv b.length 4 ∧ b.length < 2 ^ 32 ∧ ws.length = ceilDiv b.length 4 ∧
    ∀ p, p < b.length → (ws.getD (p / 4) 0#32).extractLsb' (24 - 8 * (p % 4)) 8 = b.getD p 0#8 := by
  decide

/-- Strings of MAX_STR_BYTES = 5 bytes, and one above. -/
theorem witness_DrbgInstantiateResult :
    (List.replicate 6 0#8).length < 2 ^ 32 ∧ busy.params.maxStrBytes < (List.replicate 6 0#8).length ∧
    (List.replicate 5 0#8).length ≤ busy.params.maxStrBytes := by decide

theorem witness_DrbgGenerateChecks :
    busy.drbg[3].inst = false ∧
    (busy.drbg[0].inst = true ∧ busy.params.maxStrBytes < (List.replicate 6 0#8).length) ∧
    (busy.drbg[2].inst = true ∧ (List.replicate 5 0#8).length ≤ busy.params.maxStrBytes ∧
      busy.drbg[2].interval.toNat < busy.drbg[2].ctr.toNat) ∧
    busy.drbg[1].inst = true ∧ busy.drbg[1].ctr.toNat ≤ busy.drbg[1].interval.toNat := by decide

theorem witness_DrbgGenerateHmac :
    busy.drbg[0].inst = true ∧ busy.drbg[0].variant = .hmac ∧
    (List.replicate 5 0#8).length ≤ busy.params.maxStrBytes ∧
    busy.drbg[0].ctr.toNat ≤ busy.drbg[0].interval.toNat := by decide

theorem witness_DrbgGenerateHash :
    busy.drbg[1].inst = true ∧ busy.drbg[1].variant = .hash ∧
    (List.replicate 5 0#8).length ≤ busy.params.maxStrBytes ∧
    busy.drbg[1].ctr.toNat ≤ busy.drbg[1].interval.toNat := by decide

theorem witness_DrbgReseedResult :
    (List.replicate 6 0#8).length < 2 ^ 32 ∧ busy.params.maxStrBytes < (List.replicate 6 0#8).length ∧
    (List.replicate 5 0#8).length ≤ busy.params.maxStrBytes := by decide

theorem witness_DrbgGenBitsResult :
    busy.drbg[3].inst = false ∧ (busy.drbg[0].inst = true ∧ (0#20).toNat = 0) ∧
    (busy.drbg[2].inst = true ∧ (1#20).toNat ≠ 0 ∧
      busy.drbg[2].interval.toNat < busy.drbg[2].ctr.toNat) ∧
    busy.drbg[1].inst = true ∧ busy.drbg[1].ctr.toNat ≤ busy.drbg[1].interval.toNat := by decide

theorem witness_DrbgRandomIntRecursion :
    busy.drbg[3].inst = false ∧ (busy.drbg[0].inst = true ∧ (1#64).toInt < (6#64).toInt) ∧
    { busy with params := { small with rangeMaxAttempts := 0 } }.params.rangeMaxAttempts = 0 ∧
    busy.params.rangeMaxAttempts = 99 + 1 ∧
    (busy.drbg[2].inst = true ∧ busy.drbg[2].interval.toNat < busy.drbg[2].ctr.toNat) ∧
    busy.drbg[0].ctr.toNat ≤ busy.drbg[0].interval.toNat := by decide

/-- A draw of three bits answers at most 7, so `v ≤ r` for `r = 7` whatever the collaborators are; and
the bits of a draw, which they fix, decide between the two last clauses of the recursion for other
ranges. -/
theorem witness_DrbgRandomIntRecursion_accepts :
    ∃ s1, exec (.drbgGenBits 0 (BitVec.ofNat 20 (bitlen 7))) busy = .next s1 ∧
      leadingBits 3 s1.responseData ≤ 7 :=
  ⟨_, rfl, by
    show natOfWords [wordOfBits _] >>> 29 ≤ 7
    rw [Nat.shiftRight_eq_div_pow]
    simp only [natOfWords, List.foldl_cons, List.foldl_nil]
    generalize wordOfBits _ = w
    have := w.isLt
    omega⟩

theorem witness_BoundedIntegersInRange :
    ∃ t, exec (.drbgRandomInt 0 6#64 6#64) busy = .next t ∧
      t.phase = .response [] (0x44000000#32 :: 2#32 :: [0#32, 6#32]) ∧
      (0x44000000#32).extractLsb' 0 8 = 0x00#8 := ⟨_, rfl, by decide, by decide⟩

theorem witness_BoundedIntegersInRange_source :
    ∃ t, exec (.serInt (.lcg 0) 0#64 1000#64) busy = .next t ∧
      t.phase = .response [] (0x53000000#32 :: 2#32 :: [0#32, 0x6E#32]) := ⟨_, rfl, by decide⟩

theorem witness_DrbgIntervalAndRead :
    (0#32).toNat = 0 ∧ 2 ^ 31 < (0x80000001#32).toNat ∧ (1 ≤ (1#32).toNat ∧ (1#32).toNat ≤ 2 ^ 31) ∧
    (1 ≤ (0x80000000#32).toNat ∧ (0x80000000#32).toNat ≤ 2 ^ 31) := by decide

/-- The four uses of the state machine: an exhausted instance, one at its bound, one that a reseed takes
out of Uninstantiated, and one that stays there. -/
theorem witness_DrbgStateMachine :
    (∀ j : Inst, busy.drbg[j].Legal) ∧ busy.drbg[3].state = .uninstantiated ∧
    busy.drbg[2].state = .reseedRequired ∧ busy.drbg[1].state = .ready ∧
    busy.drbg[1].ctr = busy.drbg[1].interval ∧ (List.replicate 5 0#8).length ≤ busy.params.maxStrBytes ∧
    (∃ t, exec (.drbgReseed 3 [] []) busy = .next t ∧ t.drbg[3].state ≠ .uninstantiated) ∧
    ∃ t, exec (.drbgRead 3) busy = .next t ∧ t.drbg[3].state = .uninstantiated :=
  ⟨busy_drbg_legal, by decide, by decide, by decide, by decide, by decide, ⟨_, rfl, by decide⟩,
    ⟨_, rfl, by decide⟩⟩

theorem witness_GenerateBudget :
    busy.drbg[1].inst = true ∧ busy.drbg[1].ctr = 1#32 ∧ busy.drbg[1].Legal ∧
    (List.replicate 5 0#8).length ≤ busy.params.maxStrBytes :=
  ⟨by decide, by decide, busy_drbg_legal 1, by decide⟩

theorem witness_SerBytesResult :
    busy.srcValid (.mt 2) = false ∧ (busy.lcg[0].valid = true ∧ busy.lcg[0].Legal) ∧
    (busy.mt[0].valid = true ∧ busy.mt[0].Legal) ∧
    busy.bbs[0].valid = true ∧ busy.bbs[0].Legal busy.params.bbsW :=
  ⟨by decide, ⟨by decide, glibc_legal⟩, ⟨by decide, zeroBank_legal⟩, by decide, bbs253_legal⟩

theorem witness_SerBitsResult :
    busy.srcValid (.bbs 3) = false ∧ (busy.srcValid (.lcg 0) = true ∧ (0#20).toNat = 0) ∧
    (1#20).toNat ≠ 0 ∧ (busy.lcg[0].valid = true ∧ busy.lcg[0].Legal) ∧
    (busy.mt[0].valid = true ∧ busy.mt[0].Legal) ∧
    busy.bbs[0].valid = true ∧ busy.bbs[0].Legal busy.params.bbsW :=
  ⟨by decide, by decide, by decide, ⟨by decide, glibc_legal⟩, ⟨by decide, zeroBank_legal⟩, by decide,
    bbs253_legal⟩

theorem witness_SerFloatResult :
    busy.srcValid (.lcg 3) = false ∧ (busy.lcg[0].valid = true ∧ busy.lcg[0].Legal) ∧
    (busy.mt[0].valid = true ∧ busy.mt[0].Legal) ∧
    busy.bbs[0].valid = true ∧ busy.bbs[0].Legal busy.params.bbsW :=
  ⟨by decide, ⟨by decide, glibc_legal⟩, ⟨by decide, zeroBank_legal⟩, by decide, bbs253_legal⟩

/-- The smallest value above 0, and 64 significant bits; and a value of 53. -/
theorem witness_FloatRoundsTowardZero :
    (0 < 1 ∧ 1 < 2 ^ 64) ∧ (0 < 2 ^ 64 - 1 ∧ 2 ^ 64 - 1 < 2 ^ 64) ∧
    2 ^ 63 = 1 * 2 ^ 63 ∧ 1 < 2 ^ 53 := by decide

/-- X21: the ten bits of the first draw are 110, which is accepted below 1000; and X22's draws, with X
at 1, are always rejected. -/
theorem witness_SerIntRecursion :
    busy.srcValid (.lcg 2) = false ∧ busy.srcValid (.lcg 0) = true ∧ (0#64).toInt < (1000#64).toInt ∧
    busy.params.rangeMaxAttempts = 99 + 1 ∧
    (∃ s1, exec (.serBits (.lcg 0) (BitVec.ofNat 20 (bitlen 1000))) busy = .next s1 ∧
      leadingBits (bitlen 1000) s1.responseData ≤ 1000) ∧
    ∃ s1, exec (.serBits (.bbs 0) (BitVec.ofNat 20 (bitlen 5)))
        { busy with bbs := busy.bbs.set 0 { bbs253 with x := 1 } } = .next s1 ∧
      5 < leadingBits (bitlen 5) s1.responseData :=
  ⟨by decide, by decide, by decide, by decide, ⟨_, rfl, by decide⟩, ⟨_, rfl, by decide⟩⟩

theorem witness_SerXorResult :
    (∃ x ∈ [List.replicate 6 0#8], busy.params.maxStrBytes < x.length) ∧
    ((∀ x ∈ [[1#8, 2#8], [3#8]], x.length ≤ busy.params.maxStrBytes) ∧
      ∃ x ∈ [[3#8]], x.length ≠ [1#8, 2#8].length) ∧
    (∀ x ∈ [List.replicate 5 0#8, List.replicate 5 1#8], x.length ≤ busy.params.maxStrBytes) ∧
    ∀ x ∈ [List.replicate 5 1#8], x.length = (List.replicate 5 0#8).length := by decide

theorem witness_DecodeInvertsEncode :
    small.Legal ∧ (Instr.bbsInit 3 (2 ^ 32 - 1) 23 (some (2 ^ 64 - 1))).wellFormed small = true := by decide

theorem witness_DecodedIsWellFormed :
    small.Legal ∧ decode small [0x45300000#32, 1#32, 2#32] = .ok (.drbgSetInterval 3 1#32) [2#32] := by
  decide

/-- One header for each condition of R122, the instance and source ones at the count itself. -/
theorem witness_IllegalHeaderFaults_headers :
    headerReject Params.default 0x60000000#32 = some .engReserved ∧
    headerReject Params.default 0x03000000#32 = some .opReserved ∧
    headerReject Params.default 0x00000001#32 = some .argForm ∧
    headerReject Params.default 0x11000010#32 = some .argForm ∧
    headerReject Params.default 0x30000002#32 = some .argForm ∧
    headerReject Params.default 0x00100000#32 = some .sysInst ∧
    headerReject Params.default 0x13100000#32 = some .instRange ∧
    headerReject Params.default 0x50C00001#32 = some .srcRange ∧
    headerReject Params.default 0x50600001#32 = some .srcRange ∧
    headerReject Params.default 0x54100001#32 = some .xorInst := by decide

/-- An idle block with exactly two free words in RSP. -/
theorem witness_IllegalHeaderFaults :
    6 ≤ (0x60000000#32).toNat / 2 ^ 28 ∧
    let s := { busy with cmd := [0x60000000#32, 1#32], rsp := List.replicate 14 0#32 }
    s.bus = [] ∧ s.mode = .idle ∧ s.fpend = false ∧ s.cmd = 0x60000000#32 :: [1#32] ∧
    s.rsp.length + 2 ≤ s.params.rspDepth := by
  refine ⟨by decide, rfl, rfl, rfl, rfl, ?_⟩
  decide

theorem witness_StepRunsDecoded :
    let s := { busy with mode := .exec, hdr := 0x20000000#32, ops := [5#32] }
    (s.mode = .exec ∧ s.phase = .operands ∧
      decode s.params (s.hdr :: s.ops) = .ok (.mtSeed 0 5#32) []) ∧
    (s.bus = [] ∧ { s with bus := [.quiet] }.bus = .quiet :: []) ∧
    decode s.params (packetOfBits s.params 64 (0x20000000 + 5 * 2 ^ 32)) = .ok (.mtSeed 0 5#32) [] := by
  decide +kernel

/-- The runs: an MT_SEED packet and the header of the next one. -/
theorem witness_PacketIsFetchedWhole :
    let s := { busy with cmd := [0x20100000#32, 5#32, 0x13000000#32] }
    let i := Instr.mtSeed 1 5#32
    s.params.Legal ∧ i.wellFormed s.params = true ∧ s.bus = [] ∧ s.mode = .idle ∧ s.fpend = false ∧
    s.phase = .operands ∧ s.ops = [] ∧ s.cmd = encode s.params i ++ [0x13000000#32] := by decide

/-- The single steps: its header is legal, and is no whole packet; the host writes the operand word in
between. -/
theorem witness_PacketIsFetchedWhole_steps :
    let later : List BusEvent := [.access (.write 32 0x0C 5#32), .quiet]
    let s := { busy with cmd := [0x20100000#32], bus := .quiet :: later }
    let u := { busy with mode := .exec, hdr := 0x20100000#32, cmd := [5#32], bus := [.quiet] }
    (s.quietThen later ∧ s.cmd = 0x20100000#32 :: [] ∧ s.mode = .idle ∧ s.fpend = false ∧
      headerReject s.params 0x20100000#32 = none) ∧
    (u.quietThen [] ∧ u.cmd = 5#32 :: [] ∧ u.mode = .exec ∧ u.phase = .operands ∧
      decode u.params (u.hdr :: u.ops) = .reject .truncated) ∧
    encode small (.mtSeed 1 5#32) = [0x20100000#32] ++ [5#32] := by
  refine ⟨⟨.inl rfl, ?_⟩, ⟨.inl rfl, ?_⟩, ?_⟩ <;> decide

/-- A full RSP; one with exactly the room the response needs; one free word for a response of two, and
for its last word; quiet ports of either kind. -/
theorem witness_ResponseIsWrittenWhole :
    let s := { busy with mode := .exec, phase := .response [] [1#32, 2#32], rsp := List.replicate 14 0#32 }
    s.mode = .exec ∧ s.phase = .response [] [1#32, 2#32] ∧ [1#32, 2#32] ≠ [] ∧
    (s.bus = [] ∧ s.rsp.length + [1#32, 2#32].length ≤ s.params.rspDepth) ∧
    s.params.rspDepth ≤ { s with rsp := List.replicate 16 0#32 }.rsp.length ∧
    { s with rsp := List.replicate 15 0#32 }.rsp.length < s.params.rspDepth ∧
    ([1#32, 2#32] = 1#32 :: [2#32] ∧ [2#32] ≠ []) ∧ [2#32] = 2#32 :: [] ∧ s.quietThen [] ∧
    { s with bus := [.quiet, .hardReset] }.quietThen [.hardReset] := by
  refine ⟨rfl, rfl, by decide, ⟨rfl, by decide⟩, by decide, by decide, by decide, rfl, .inr ⟨rfl, rfl⟩,
    .inl rfl⟩

theorem witness_ProcessorHolds :
    (busy.quietThen [] ∧ { busy with bus := [.quiet, .hardReset] }.quietThen [.hardReset]) ∧
    (busy.mode = .idle ∧ busy.fpend = false ∧ busy.cmd = []) ∧
    (busy.phase = .operands ∧ decode busy.params (0x20000000#32 :: busy.ops) = .reject .truncated) ∧
    ({ busy with mode := .exec, phase := .draw 0 11 23 [] }.phase = .draw 0 11 23 [] ∧ busy.ent = [] ∧
      ([] : List Word).length < ceilDiv (bitlen (11 * 23)) 32) ∧
    { busy with mode := .fault }.mode = .fault ∧ { busy with fpend := true }.fpend = true :=
  ⟨⟨.inr ⟨rfl, rfl⟩, .inl rfl⟩, by decide, by decide, by decide, rfl, rfl⟩

/-- A word is taken; none is taken, in the wait of IDLE, by a host write and on entering FAULT; and a
reset. -/
theorem witness_PcCountsWords :
    (¬ State.resetNext { busy with cmd := [0#32], pc := 7 } ∧
      ∃ t, step { busy with cmd := [0#32], pc := 7 } = .next t ∧ t.pc = 8 ∧ t.cmd = []) ∧
    (∃ t, step { busy with pc := 7 } = .next t ∧ t.pc = 7) ∧
    (¬ State.resetNext { busy with pc := 7, bus := [.access (.write 32 0x0C 9#32)] } ∧
      ∃ t, step { busy with pc := 7, bus := [.access (.write 32 0x0C 9#32)] } = .next t ∧ t.pc = 7 ∧
        t.cmd = [9#32]) ∧
    (∃ t, step { busy with pc := 7, cmd := [0#32, 0#32], fpend := true } = .next t ∧ t.pc = 7 ∧
      t.cmd = [] ∧ t.mode = .fault) ∧
    State.resetNext { busy with pc := 7, cmd := [0#32], bus := [.hardReset] } ∧
      ∃ t, step { busy with pc := 7, cmd := [0#32], bus := [.hardReset] } = .next t ∧ t.pc = 0 ∧
        t.cmd = [] := by
  refine ⟨⟨?_, _, rfl, rfl, rfl⟩, ⟨_, rfl, rfl⟩, ⟨?_, _, rfl, rfl, rfl⟩, ⟨_, rfl, rfl, rfl, rfl⟩,
    ⟨[], .inl rfl⟩, _, rfl, rfl, rfl⟩
  · rintro ⟨rest, h | ⟨a, h, -⟩⟩ <;> cases h
  · rintro ⟨rest, h | ⟨a, h, v, h2, -⟩⟩
    · cases h
    · cases h; cases h2

theorem witness_FailedCommandsWriteNothing :
    ∃ t, exec (.lcgNext 3 1#20) busy = .next t ∧
      t.phase = .response [] (responseWords (headerOf (.lcgNext 3 1#20)) .notInstantiated []) ∧
      Status.notInstantiated ≠ .ok := ⟨_, rfl, rfl, by decide⟩

theorem witness_CommandsWriteOnlyTheirInstance :
    ∃ t, exec (.lcgNext 0 1#20) busy = .next t ∧ writes (.lcgNext 0 1#20) ≠ some (.lcg 1) ∧
      writes (.lcgNext 0 1#20) ≠ some (.mt 0) := ⟨_, rfl, by decide, by decide⟩

theorem witness_HardResetLeaves :
    { busy with bus := [.hardReset, .quiet] }.bus = .hardReset :: [.quiet] ∧ busy.params.Legal :=
  ⟨rfl, test_small_legal⟩

theorem witness_SoftResetLeaves :
    { busy with bus := [.access (.write 32 0x04 3#32)] }.bus =
      .access (.write 32 (busy.params.blockBase + 0x04) 3#32) :: [] ∧ (3#32).getLsbD 0 = true :=
  ⟨rfl, by decide⟩

theorem witness_RegisterAccesses :
    { busy with bus := [.access (.read 32 0x1C)] }.bus = .access (.read 32 0x1C) :: [] ∧
    (0x1F < 0x20 ∧ 0x1F % 4 ≠ 0) ∧ (0x1C < 0x20 ∧ 0x1C % 4 = 0 ∧ 0x1C ≠ 0x10) ∧
    0x1C ∈ [0x00, 0x08, 0x10, 0x1C] ∧ (2#32).getLsbD 0 = false := by decide

theorem witness_FifoAccesses :
    { busy with mode := .fault }.mode = .fault ∧ { busy with fpend := true }.fpend = true ∧
    (busy.mode ≠ .fault ∧ busy.fpend = false ∧ busy.cmd.length < busy.params.cmdDepth) ∧
    busy.params.cmdDepth ≤ { busy with cmd := List.replicate 16 0#32 }.cmd.length ∧
    busy.params.entDepth ≤ { busy with ent := List.replicate 16 0#32 }.ent.length ∧
    busy.ent.length < busy.params.entDepth ∧ busy.rsp = [] ∧
    { busy with rsp := [1#32, 2#32] }.rsp = 1#32 :: [2#32] := by decide

/-- ENT_WAIT: a draw that lacks a word, with ENT empty and not empty, and with the candidate whole. -/
theorem test_ent_wait :
    let s := { busy with mode := .exec, phase := .draw 0 11 23 [] }
    s.statusWord.getLsbD 3 = true ∧ { s with ent := [1#32] }.statusWord.getLsbD 3 = false ∧
    { s with phase := .draw 0 11 23 [1#32] }.statusWord.getLsbD 3 = false ∧
    busy.statusWord.getLsbD 3 = false := by decide

/-- Quiet ports, and a host read, neither of them a reset. -/
theorem witness_OnlyResetLeavesFault :
    (∃ t, { busy with mode := .fault }.mode = .fault ∧ step { busy with mode := .fault } = .next t ∧
      ¬ State.resetNext { busy with mode := .fault }) ∧
    ∃ t, step { busy with mode := .fault, bus := [.access (.read 32 0x08)] } = .next t ∧
      ¬ State.resetNext { busy with mode := .fault, bus := [.access (.read 32 0x08)] } := by
  refine ⟨⟨_, rfl, rfl, ?_⟩, ⟨_, rfl, ?_⟩⟩
  · rintro ⟨rest, h | ⟨a, h, -⟩⟩ <;> cases h
  · rintro ⟨rest, h | ⟨a, h, v, h2, -⟩⟩
    · cases h
    · cases h; cases h2

/-- The last byte of the window. -/
theorem witness_StepsGoOn :
    let s := { busy with bus := [.access (.read 8 0x1F)] }
    ∀ e rest, s.bus = e :: rest → keepsToWindow s.params e := by
  intro s e rest h
  cases h
  show windowOffset small 0x1F ≠ none
  decide

theorem witness_StepKeepsInvariant : Inv busy ∧ step busy = .next busy := ⟨busy_inv, rfl⟩

/-- Two states that differ in the words of a bank that is not valid. -/
theorem witness_UnseenWordsStayUnseen :
    let t := { busy with mt := busy.mt.set 3 (Mt.reset (Vector.replicate 624 1#32)) }
    State.sameButUnseenWords busy t ∧ t.mt[3].w[0] ≠ busy.mt[3].w[0] ∧ step busy = .next busy := by
  refine ⟨⟨rfl, fun i => ?_⟩, by decide, rfl⟩
  match i with
  | 0 => exact ⟨rfl, rfl, fun _ => rfl⟩
  | 1 => exact ⟨rfl, rfl, fun _ => rfl⟩
  | 2 => exact ⟨rfl, rfl, fun _ => rfl⟩
  | 3 => exact ⟨rfl, rfl, fun h => nomatch h⟩

end Sys2Proof.Tests
end

section
/-! SUPPORT. How bit strings stand in words (20_memory.md R92) and what a host access to one of the
three FIFOs does (R83, R84, R86). -/

namespace Sys2Proof.Machine

/-! ### Bit strings in words -/

/-- Bit t of a string stands in bit `31 - t mod 32` of word `t / 32`; bits beyond the string are 0
(R92). -/
theorem packBitsIn_bit (k : Nat) (bs : List Bool) (t : Nat) (ht : t < 32 * k) :
    ((packBitsIn k bs).getD (t / 32) 0#32).getLsbD (31 - t % 32) = bs.getD t false := by
  induction k generalizing bs t with
  | zero => omega
  | succ k ih =>
    rw [packBitsIn]
    by_cases first : t < 32
    · have here : (bs.take 32).getD t false = bs.getD t false := by
        simp [List.getD, first]
      rw [Nat.div_eq_of_lt first, Nat.mod_eq_of_lt first, List.getD_cons_zero,
        wordOfBits_bit _ (by simp) t first, here]
    · obtain ⟨u, rfl⟩ := Nat.exists_eq_add_of_le' (Nat.le_of_not_lt first)
      have later : (bs.drop 32).getD u false = bs.getD (u + 32) false := by
        simp [List.getD, Nat.add_comm]
      rw [Nat.add_div_right u (by decide), Nat.add_mod_right, List.getD_cons_succ,
        ih _ u (by omega), later]

/-! ### Accesses at a word offset of the window -/

theorem windowOffset_base_add (p : Params) {off : Nat} (h : off < 0x20) :
    windowOffset p (p.blockBase + off) = some off := by
  simp [windowOffset, h]

/-- A 32-bit read at an aligned offset of the window reads the register there (R80, R81). -/
theorem busAccess_read (s : State) {off : Nat} (h : off < 0x20) (aligned : off % 4 = 0) :
    busAccess (.read 32 (s.params.blockBase + off)) s =
      .next ((s.readReg off).2.reply (.data (s.readReg off).1)) := by
  simp [busAccess, Access.addr, Access.bits, windowOffset_base_add s.params h, aligned]

/-- A 32-bit write at an aligned offset of the window writes the register there (R80, R81). -/
theorem busAccess_write (s : State) (v : Word) {off : Nat} (h : off < 0x20)
    (aligned : off % 4 = 0) :
    busAccess (.write 32 (s.params.blockBase + off) v) s =
      .next ((s.writeReg off v).reply .done) := by
  simp [busAccess, Access.addr, Access.bits, windowOffset_base_add s.params h, aligned]

/-! ### The FIFO ports -/

variable {s : State}

theorem faultFlag_iff : s.faultFlag = true ↔ s.mode = .fault ∨ s.fpend = true := by
  simp [State.faultFlag]

theorem cmdFull_iff : s.cmdFull = true ↔ s.params.cmdDepth ≤ s.cmd.length := by
  simp [State.cmdFull]

theorem entFull_iff : s.entFull = true ↔ s.params.entDepth ≤ s.ent.length := by
  simp [State.entFull]

/-- A CMD write in FAULT, or with a fault pending, is discarded (R83). -/
theorem writeCmd_of_fault (v : Word) (h : s.mode = .fault ∨ s.fpend = true) : s.writeCmd v = s :=
  if_pos (faultFlag_iff.2 h)

/-- A CMD write to a full FIFO raises the CMD overflow (R83). -/
theorem writeCmd_of_full (v : Word) (h : ¬ (s.mode = .fault ∨ s.fpend = true))
    (full : s.params.cmdDepth ≤ s.cmd.length) : s.writeCmd v = s.raiseFault .cmdOvf v := by
  rw [State.writeCmd, if_neg (mt faultFlag_iff.1 h), if_pos (cmdFull_iff.2 full)]

/-- A CMD write with room in the FIFO appends its word (R83). -/
theorem writeCmd_of_room (v : Word) (h : ¬ (s.mode = .fault ∨ s.fpend = true))
    (room : s.cmd.length < s.params.cmdDepth) : s.writeCmd v = { s with cmd := s.cmd ++ [v] } := by
  rw [State.writeCmd, if_neg (mt faultFlag_iff.1 h),
    if_neg (mt cmdFull_iff.1 (Nat.not_le_of_lt room))]

/-- An ENT write to a full FIFO is dropped and sets ENT_OVF (R84). -/
theorem writeEnt_of_full (v : Word) (full : s.params.entDepth ≤ s.ent.length) :
    s.writeEnt v = { s with err := { s.err with entOvf := true } } :=
  if_pos (entFull_iff.2 full)

/-- An ENT write with room in the FIFO appends its word (R84). -/
theorem writeEnt_of_room (v : Word) (room : s.ent.length < s.params.entDepth) :
    s.writeEnt v = { s with ent := s.ent ++ [v] } :=
  if_neg (mt entFull_iff.1 (Nat.not_le_of_lt room))

/-- An RSP read of an empty FIFO gives 0 and sets RSP_UDF (R86). -/
theorem readRsp_of_nil (h : s.rsp = []) :
    s.readRsp = (0#32, { s with err := { s.err with rspUdf := true } }) := by
  simp only [State.readRsp, h]

/-- An RSP read takes the head word (R86). -/
theorem readRsp_of_cons {w : Word} {rest : List Word} (h : s.rsp = w :: rest) :
    s.readRsp = (w, { s with rsp := rest }) := by
  simp only [State.readRsp, h]

theorem busAccess_writeCmd (s : State) (v : Word) :
    busAccess (.write 32 (s.params.blockBase + 0x0C) v) s = .next ((s.writeCmd v).reply .done) :=
  busAccess_write s v (by decide) (by decide)

theorem busAccess_writeEnt (s : State) (v : Word) :
    busAccess (.write 32 (s.params.blockBase + 0x14) v) s = .next ((s.writeEnt v).reply .done) :=
  busAccess_write s v (by decide) (by decide)

theorem busAccess_readRsp (s : State) :
    busAccess (.read 32 (s.params.blockBase + 0x10)) s =
      .next (s.readRsp.2.reply (.data s.readRsp.1)) :=
  busAccess_read s (by decide) (by decide)

end Sys2Proof.Machine
end

section
/-! SUPPORT. The statements about the packing of bit strings and the FIFO ports (20_memory.md R83 to R86,
R92). -/

namespace Sys2Proof.Machine

/-- Settles O20: a word at a time, by `packBitsIn_bit`. -/
theorem bitStringPacking : Obligations.BitStringPacking :=
  fun bs => ⟨packBits_length bs, packBitsIn_bit _ bs⟩

/-- Settles O54: each access reaches its port, and each port's cases are its own lemmas. -/
theorem fifoAccesses : Obligations.FifoAccesses := by
  intro s v
  simp only [busAccess_writeCmd, busAccess_writeEnt, busAccess_readRsp]
  refine ⟨fun faulted => ?_, fun mode pend full => ?_, fun mode pend room => ?_, fun full => ?_,
    fun room => ?_, fun empty => ?_, fun w rest head => ?_⟩
  · rw [writeCmd_of_fault v faulted]; rfl
  · rw [writeCmd_of_full v (by simp [mode, pend]) full]; rfl
  · rw [writeCmd_of_room v (by simp [mode, pend]) room]; rfl
  · rw [writeEnt_of_full v full]; rfl
  · rw [writeEnt_of_room v room]; rfl
  · rw [readRsp_of_nil empty]; rfl
  · rw [readRsp_of_cons head]; rfl

end Sys2Proof.Machine
end

section
/-! SUPPORT. What LCG_NEXT answers and leaves (41_lcg.md R162), and how 64-bit values stand in its
data words. -/

namespace Sys2Proof.Machine

/-! ### 64-bit values in data words -/

/-- The k-th value of a response of 64-bit values is its k-th pair of words. -/
theorem flatMap_wordsOf64_pair (vs : List Word64) (k : Nat) (h : k < vs.length) :
    ((vs.flatMap wordsOf64).drop (2 * k)).take 2 = wordsOf64 vs[k] := by
  induction vs generalizing k with
  | nil => simp at h
  | cons v vs ih =>
    cases k with
    | zero => simp [wordsOf64]
    | succ k =>
      have later := ih k (by simpa using h)
      simpa [wordsOf64, Nat.mul_succ] using later

/-- Integers below 2^64 as 64-bit values, word by word (R162). -/
theorem flatMap_wordsOf64_ofNat (vs : List Nat) (h : ∀ v ∈ vs, v < 2 ^ 64) :
    (vs.map (BitVec.ofNat 64)).flatMap wordsOf64 =
      vs.flatMap fun v => [BitVec.ofNat 32 (v / 2 ^ 32), BitVec.ofNat 32 v] := by
  rw [List.flatMap_map]
  exact List.flatMap_congr fun v hv => wordsOf64_ofNat v (h v hv)

/-! ### LCG_NEXT -/

@[simp] theorem Lcg.outputs_length (l : Lcg) (n : Nat) : (l.outputs n).length = n := by
  simp [Lcg.outputs]

theorem encode_lcgNext (p : Params) (i : Inst) (n : Count) :
    encode p (.lcgNext i n) =
      [0x12000000#32 ||| BitVec.ofNat 32 i.val <<< 20 ||| n.setWidth 32] :=
  congrArg (· :: []) (header_inst 1 2 i n)

variable {s : State} {i : Inst} (n : Count)

theorem exec_lcgNext_of_invalid (invalid : s.lcg[i].valid = false) :
    exec (.lcgNext i n) s = .next (s.answered (responseHeader 1 2 (instNibble i) 0x08#8) []) := by
  have fails : exec (.lcgNext i n) s = raise (.lcgNext i n) .notInstantiated s := if_pos invalid
  rw [fails, raise_eq, headerOf, respHeader_header, Status.code]

/-- LCG_NEXT of a valid instance answers the sequence's next n terms as 64-bit values. -/
theorem exec_lcgNext_of_valid (valid : s.lcg[i].valid = true) (legal : s.lcg[i].Legal) :
    exec (.lcgNext i n) s =
      .next ((s.setLcg i (s.lcg[i].after n.toNat)).answered
        (responseHeader 1 2 (instNibble i) 0x00#8)
        (((s.lcg[i].outputs n.toNat).map (BitVec.ofNat 64)).flatMap wordsOf64)) := by
  have drawn := (drawN_lcg s.lcg[i] valid legal n.toNat).1
  have notInvalid : ¬ s.lcg[i].valid = false := by rw [valid]; decide
  have completes : exec (.lcgNext i n) s =
      finish (.lcgNext i n) ((drawN lcgStep n.toNat s.lcg[i]).1.flatMap wordsOf64)
        (s.setLcg i (drawN lcgStep n.toNat s.lcg[i]).2) := if_neg notInvalid
  rw [completes, drawn, finish_eq, headerOf, respHeader_header, Status.code]

end Sys2Proof.Machine
end

section
/-! SUPPORT. The statements about LCG_NEXT (41_lcg.md R162, R164, R165). -/

namespace Sys2Proof.Machine

/-- Settles O4: the drawn values are the sequence's terms (`drawN_lcg`), and being below M they are
below 2^64, so no word of them is lost. -/
theorem lcgNextResult : Obligations.LcgNextResult := by
  intro s i n
  refine ⟨encode_lcgNext s.params i n, exec_lcgNext_of_invalid n, fun valid legal => ?_⟩
  have below := (drawN_lcg s.lcg[i] valid legal n.toNat).2
  have bounded : s.lcg[i].m.toNat ≤ 2 ^ 64 := (legal valid).1.2
  rw [exec_lcgNext_of_valid n valid legal,
    flatMap_wordsOf64_ofNat _ fun v hv => (below v hv).trans_le bounded]
  rfl

/-- Settles O5: the pair of words at k is term k + 1, which is below M; the answer and the registers
left are functions of the instance's registers alone. -/
theorem lcgRangeLaw : Obligations.LcgRangeLaw := by
  intro s t i j n valid legal
  refine ⟨_, exec_lcgNext_of_valid n valid legal, fun k hk => ?_, fun same => ?_⟩
  · have below : (s.lcg[i].outputs n.toNat)[k]'(by simpa using hk) < s.lcg[i].m.toNat :=
      (drawN_lcg s.lcg[i] valid legal n.toNat).2 _ (List.getElem_mem _)
    rw [answered_responseData, flatMap_wordsOf64_pair _ k (by simpa using hk),
      natOfWords_wordsOf64, List.getElem_map, BitVec.toNat_ofNat]
    exact (Nat.mod_le _ _).trans_lt below
  · have tValid : t.lcg[j].valid = true := same ▸ valid
    have tLegal : t.lcg[j].Legal := same ▸ legal
    refine ⟨_, exec_lcgNext_of_valid n tValid tLegal, ?_, ?_⟩
    · rw [answered_responseData, answered_responseData, same]
    · exact (t.setLcg_get_self j _).trans (same ▸ (s.setLcg_get_self i _).symm)

end Sys2Proof.Machine
end

section
/-! SUPPORT. Why `Untemper` undoes `Temper` (42_mt19937.md R193, R198, R200). Each tempering step XORs
onto a word a linear image of the word itself, by a shift that ends at zero when repeated; the passes
of R198 are the partial sums that invert it. -/

namespace Sys2Proof.Machine

/-! ### A tempering step and its passes -/

/-- A tempering step (R193): a word XORed with its image under `g`. -/
def temperStep (g : Word → Word) (x : Word) : Word := x ^^^ g x

/-- `n` passes after the start value, each XORing the image of the last value onto `y` (R198). -/
def undoPasses (g : Word → Word) (n : Nat) (y : Word) : Word := (fun x => y ^^^ g x)^[n] y

theorem undoPasses_succ (g : Word → Word) (n : Nat) (y : Word) :
    undoPasses g (n + 1) y = y ^^^ g (undoPasses g n y) :=
  Function.iterate_succ_apply' ..

section
variable {g : Word → Word} (linear : ∀ a b, g (a ^^^ b) = g a ^^^ g b)
include linear

/-- The passes leave of a step's result the word itself and one more power of `g`. -/
theorem undoPasses_temperStep (n : Nat) (x : Word) :
    undoPasses g n (temperStep g x) = x ^^^ g^[n + 1] x := by
  induction n with
  | zero => rfl
  | succ n ih =>
    rw [undoPasses_succ, ih, linear, ← Function.iterate_succ_apply' g (n + 1), temperStep,
      BitVec.xor_assoc, ← BitVec.xor_assoc (g x), BitVec.xor_self, BitVec.zero_xor]

/-- A step leaves of the passes' result the word itself and one more power of `g`. -/
theorem temperStep_undoPasses (n : Nat) (y : Word) :
    temperStep g (undoPasses g n y) = y ^^^ g^[n + 1] y := by
  induction n with
  | zero => rfl
  | succ n ih =>
    have cancel : undoPasses g n y ^^^ (y ^^^ g (undoPasses g n y)) = g^[n + 1] y := by
      rw [BitVec.xor_comm y, ← BitVec.xor_assoc, ← temperStep, ih, BitVec.xor_comm y,
        BitVec.xor_assoc, BitVec.xor_self, BitVec.xor_zero]
    calc temperStep g (undoPasses g (n + 1) y)
        = y ^^^ g (undoPasses g n y ^^^ (y ^^^ g (undoPasses g n y))) := by
          rw [temperStep, undoPasses_succ, linear (undoPasses g n y), BitVec.xor_assoc]
      _ = y ^^^ g^[n + 1 + 1] y := by rw [cancel, ← Function.iterate_succ_apply' g]

variable {n : Nat} (vanishes : ∀ x, g^[n + 1] x = 0#32)
include vanishes

/-- A step is undone by as many passes as leave nothing of `g`. -/
theorem undoPasses_temperStep_of_vanishes (x : Word) : undoPasses g n (temperStep g x) = x := by
  rw [undoPasses_temperStep linear, vanishes, BitVec.xor_zero]

/-- The passes are undone by the step, under the same condition. -/
theorem temperStep_undoPasses_of_vanishes (y : Word) : temperStep g (undoPasses g n y) = y := by
  rw [temperStep_undoPasses linear, vanishes, BitVec.xor_zero]

end

/-! ### The shifts of R193 -/

/-- The image of the steps that shift right. -/
def shiftDown (k : Nat) (x : Word) : Word := x >>> k

/-- The image of the steps that shift left and mask. -/
def shiftUp (k : Nat) (mask x : Word) : Word := (x <<< k) &&& mask

theorem shiftDown_xor (k : Nat) (a b : Word) :
    shiftDown k (a ^^^ b) = shiftDown k a ^^^ shiftDown k b :=
  BitVec.ushiftRight_xor_distrib a b k

theorem shiftUp_xor (k : Nat) (mask a b : Word) :
    shiftUp k mask (a ^^^ b) = shiftUp k mask a ^^^ shiftUp k mask b := by
  ext
  simp [shiftUp, BitVec.shiftLeft_xor_distrib, Bool.and_xor_distrib_right]

theorem shiftDown_iterate (k n : Nat) (x : Word) : (shiftDown k)^[n] x = x >>> (k * n) := by
  induction n with
  | zero => rw [Nat.mul_zero, BitVec.ushiftRight_zero]; rfl
  | succ n ih =>
    rw [Function.iterate_succ_apply', ih, shiftDown, Nat.mul_succ, BitVec.shiftRight_add]

theorem shiftDown_vanishes {k n : Nat} (wide : 32 ≤ k * n) (x : Word) :
    (shiftDown k)^[n] x = 0#32 := by
  rw [shiftDown_iterate, BitVec.ushiftRight_eq_zero wide]

theorem shiftUp_iterate_low (k : Nat) (mask x : Word) (n j : Nat) (low : j < k * n) :
    ((shiftUp k mask)^[n] x).getLsbD j = false := by
  induction n generalizing j with
  | zero => omega
  | succ n ih =>
    rw [Nat.mul_succ] at low
    rw [Function.iterate_succ_apply', shiftUp, BitVec.getLsbD_and, BitVec.getLsbD_shiftLeft]
    by_cases below : j < k
    · simp [below]
    · simp [ih (j - k) (by omega)]

theorem shiftUp_vanishes {k n : Nat} (mask : Word) (wide : 32 ≤ k * n) (x : Word) :
    (shiftUp k mask)^[n] x = 0#32 := by
  apply BitVec.eq_of_getLsbD_eq
  intro j hj
  rw [shiftUp_iterate_low k mask x n j (by omega), BitVec.getLsbD_zero]

/-- Two shifts by 15 reach bit 30 only, but the mask's lowest bit is 17, so nothing passes it twice
(R198). -/
theorem shiftUp_15_vanishes (x : Word) : (shiftUp 15 0xEFC60000#32)^[1 + 1] x = 0#32 := by
  have masked : 0xEFC60000#32 <<< 15 = 0#32 := by decide
  simp only [Function.iterate_succ_apply, Function.iterate_zero_apply, shiftUp,
    BitVec.shiftLeft_and_distrib, masked, BitVec.and_zero, BitVec.zero_and]

/-! ### Temper and Untemper -/

theorem temper_eq (x : Word) :
    temper x = temperStep (shiftDown 18) (temperStep (shiftUp 15 0xEFC60000#32)
      (temperStep (shiftUp 7 0x9D2C5680#32) (temperStep (shiftDown 11) x))) := rfl

theorem untemper_eq (y : Word) :
    untemper y = undoPasses (shiftDown 11) 2 (undoPasses (shiftUp 7 0x9D2C5680#32) 4
      (undoPasses (shiftUp 15 0xEFC60000#32) 1 (undoPasses (shiftDown 18) 1 y))) := rfl

theorem untemper_temper (x : Word) : untemper (temper x) = x := by
  rw [untemper_eq, temper_eq,
    undoPasses_temperStep_of_vanishes (shiftDown_xor 18) (shiftDown_vanishes (by decide)),
    undoPasses_temperStep_of_vanishes (shiftUp_xor 15 _) shiftUp_15_vanishes,
    undoPasses_temperStep_of_vanishes (shiftUp_xor 7 _) (shiftUp_vanishes _ (by decide)),
    undoPasses_temperStep_of_vanishes (shiftDown_xor 11) (shiftDown_vanishes (by decide))]

theorem temper_untemper (y : Word) : temper (untemper y) = y := by
  rw [untemper_eq, temper_eq,
    temperStep_undoPasses_of_vanishes (shiftDown_xor 11) (shiftDown_vanishes (by decide)),
    temperStep_undoPasses_of_vanishes (shiftUp_xor 7 _) (shiftUp_vanishes _ (by decide)),
    temperStep_undoPasses_of_vanishes (shiftUp_xor 15 _) shiftUp_15_vanishes,
    temperStep_undoPasses_of_vanishes (shiftDown_xor 18) (shiftDown_vanishes (by decide))]

end Sys2Proof.Machine
end

section
/-! SUPPORT. The words of the seed fill and of the twist, and what cloning recovers (42_mt19937.md R191,
R192, R201, R205). -/

namespace Sys2Proof.Machine

/-! ### The seed fill -/

/-- Word `k` of the seed fill from the word before it (R191). -/
def fillNext (k : Nat) (p : Word) : Word := 1812433253#32 * (p ^^^ (p >>> 30)) + BitVec.ofNat 32 k

theorem mtFillFrom_succ (n k : Nat) (p : Word) :
    mtFillFrom (n + 1) k p = p :: mtFillFrom n (k + 1) (fillNext (k + 1) p) := rfl

theorem mtFillFrom_getD_succ (n k : Nat) (p : Word) (j : Nat) (hj : j + 1 < n) :
    (mtFillFrom n k p).getD (j + 1) 0#32 =
      fillNext (k + j + 1) ((mtFillFrom n k p).getD j 0#32) := by
  induction n generalizing k p j with
  | zero => omega
  | succ n ih =>
    cases j with
    | zero =>
      obtain ⟨m, rfl⟩ := Nat.exists_eq_add_of_lt (Nat.lt_of_succ_lt_succ hj)
      rw [mtFillFrom_succ, List.getD_cons_succ, List.getD_cons_zero, Nat.zero_add,
        mtFillFrom_succ, List.getD_cons_zero, Nat.add_zero]
    | succ j =>
      rw [mtFillFrom_succ, List.getD_cons_succ, List.getD_cons_succ, ih _ _ j (by omega),
        Nat.add_right_comm k 1 j, Nat.add_assoc k j 1]

theorem mtSeedFill_get (seed : Word) (k : Nat) (hk : k < 624) :
    (mtSeedFill seed).w[k] = (mtFillFrom 624 0 seed).getD k 0#32 := by
  simp only [mtSeedFill, Vector.getElem_ofFn]

theorem mtSeedFill_get_zero (seed : Word) : (mtSeedFill seed).w[0] = seed := by
  rw [mtSeedFill_get, mtFillFrom_succ, List.getD_cons_zero]

theorem mtSeedFill_get_succ (seed : Word) (k : Nat) (hk : k + 1 < 624) :
    (mtSeedFill seed).w[k + 1] = fillNext (k + 1) (mtSeedFill seed).w[k] := by
  rw [mtSeedFill_get, mtSeedFill_get, mtFillFrom_getD_succ 624 0 seed k hk, Nat.zero_add]

/-! ### The twist -/

theorem get_eq_mtTerm (w : Vector Word 624) (k : Nat) (hk : k < 624) : w[k] = mtTerm w k := by
  simpa [mtWindow] using window_get w k 0 hk

theorem twistWords_get (w : Vector Word 624) (k : Nat) (hk : k < 624) :
    (twistWords w)[k] = mtTerm w (624 + k) := by
  rw [twistWords_eq, window_get]

/-- Word k of the twisted array (R192): the two other words it reads are old before the wrap and new
from there on. -/
theorem twistWords_recurrence (w : Vector Word 624) (k : Nat) (hk : k < 624) :
    (twistWords w)[k] =
      (if h : k < 227 then w[k + 397]'(by omega) else (twistWords w)[k - 227]'(by omega)) ^^^
        twistShift
          (comb w[k] (if h : k < 623 then w[k + 1]'(by omega) else (twistWords w)[0])) := by
  have far : (if h : k < 227 then w[k + 397]'(by omega) else (twistWords w)[k - 227]'(by omega)) =
      mtTerm w (k + 397) := by
    split
    · exact get_eq_mtTerm w _ _
    · rw [twistWords_get]; exact congrArg (mtTerm w) (by omega)
  have next : (if h : k < 623 then w[k + 1]'(by omega) else (twistWords w)[0]) =
      mtTerm w (k + 1) := by
    split
    · exact get_eq_mtTerm w _ _
    · rw [twistWords_get]; exact congrArg (mtTerm w) (by omega)
  rw [far, next, get_eq_mtTerm w k hk, twistWords_get, Nat.add_comm 624 k, term_rec]

/-! ### Cloning -/

theorem Mt.after_valid (b : Mt) (n : Nat) : (b.after n).valid = b.valid := by
  unfold Mt.after; split <;> rfl

@[simp] theorem Mt.outputs_length (b : Mt) (n : Nat) : (b.outputs n).length = n := by
  simp [Mt.outputs]

theorem Mt.outputs_getD (b : Mt) (n k : Nat) (h : k < n) :
    (b.outputs n).getD k 0#32 = temper (mtTerm b.w (b.cur.toNat + k)) := by
  simp [Mt.outputs, h]

/-- 624 outputs, untempered, are the 624 terms from the cursor on (R201). -/
theorem mtCloned_outputs (b : Mt) :
    mtCloned (b.outputs 624) =
      { valid := true, w := mtWindow b.w b.cur.toNat, cur := 624#10 } := by
  have words : (mtCloned (b.outputs 624)).w = mtWindow b.w b.cur.toNat := by
    refine Vector.ext fun k hk => ?_
    simp only [mtCloned, Vector.getElem_ofFn]
    rw [b.outputs_getD 624 k hk, untemper_temper, window_get]
  rw [← words]; rfl

/-- The clone's outputs are those the observed bank gives from then on (R205). -/
theorem mtCloned_outputs_outputs (b : Mt) (n : Nat) :
    (mtCloned (b.outputs 624)).outputs n = (b.after 624).outputs n := by
  have start : (624#10).toNat = 624 := rfl
  rw [mtCloned_outputs]
  simp only [Mt.outputs, term_after, term_add, start, Nat.add_assoc]

theorem mtCloned_legal (os : List Word) : (mtCloned os).Legal := by
  show (624#10).toNat ≤ 624
  decide

end Sys2Proof.Machine
end

section
/-! SUPPORT. The packets of the MT commands and what each answers (42_mt19937.md R190, R194 to R197,
R201). -/

namespace Sys2Proof.Machine

/-! ### Headers -/

theorem header_inst_noArg (e o : BitVec 4) (i : Inst) :
    header e o (instNibble i) 0 =
      (e.setWidth 32 <<< 28 ||| o.setWidth 32 <<< 24) ||| BitVec.ofNat 32 i.val <<< 20 := by
  rw [header_inst]; simp

theorem header_inst_countOf {α : Type} (e o : BitVec 4) (i : Inst) (xs : List α)
    (h : xs.length < 2 ^ 20) :
    header e o (instNibble i) (countOf xs) =
      (e.setWidth 32 <<< 28 ||| o.setWidth 32 <<< 24) ||| BitVec.ofNat 32 i.val <<< 20 |||
        BitVec.ofNat 32 xs.length := by
  rw [header_inst, countOf_setWidth xs h]

/-- A command that completes answers OK with its own ENG, OP and INST. -/
theorem finish_of_header {c : Instr} {e o i : BitVec 4} {a : BitVec 20}
    (h : headerOf c = header e o i a) (data : List Word) (s : State) :
    finish c data s = .next (s.answered (responseHeader e o i 0x00#8) data) := by
  rw [finish_eq, h, respHeader_header, Status.code]

/-- A command that fails answers its status with its own ENG, OP and INST. -/
theorem raise_of_header {c : Instr} {e o i : BitVec 4} {a : BitVec 20}
    (h : headerOf c = header e o i a) (st : Status) (s : State) :
    raise c st s = .next (s.answered (responseHeader e o i st.code) []) := by
  rw [raise_eq, h, respHeader_header]

/-! ### The commands -/

variable (s : State) (i : Inst)

theorem encode_mtSeed (p : Params) (seed : Word) :
    encode p (.mtSeed i seed) = [0x20000000#32 ||| BitVec.ofNat 32 i.val <<< 20, seed] :=
  congrArg (· :: [seed]) (header_inst_noArg 2 0 i)

theorem encode_mtExtract (p : Params) (n : Count) :
    encode p (.mtExtract i n) =
      [0x21000000#32 ||| BitVec.ofNat 32 i.val <<< 20 ||| n.setWidth 32] :=
  congrArg (· :: []) (header_inst 2 1 i n)

theorem encode_mtTwist (p : Params) :
    encode p (.mtTwist i) = [0x22000000#32 ||| BitVec.ofNat 32 i.val <<< 20] :=
  congrArg (· :: []) (header_inst_noArg 2 2 i)

theorem encode_mtTemper (p : Params) (ys : List Word) (h : ys.length < 2 ^ 20) :
    encode p (.mtTemper i ys) =
      (0x23000000#32 ||| BitVec.ofNat 32 i.val <<< 20 ||| BitVec.ofNat 32 ys.length) :: ys :=
  congrArg (· :: ys) (header_inst_countOf 2 3 i ys h)

theorem encode_mtUntemper (p : Params) (ys : List Word) (h : ys.length < 2 ^ 20) :
    encode p (.mtUntemper i ys) =
      (0x24000000#32 ||| BitVec.ofNat 32 i.val <<< 20 ||| BitVec.ofNat 32 ys.length) :: ys :=
  congrArg (· :: ys) (header_inst_countOf 2 4 i ys h)

theorem exec_mtSeed (seed : Word) :
    exec (.mtSeed i seed) s =
      .next ((s.setMt i (mtSeedFill seed)).answered
        (responseHeader 2 0 (instNibble i) 0x00#8) []) :=
  finish_of_header rfl _ _

theorem exec_mtTemper (ys : List Word) :
    exec (.mtTemper i ys) s =
      .next (s.answered (responseHeader 2 3 (instNibble i) 0x00#8) (ys.map temper)) :=
  finish_of_header rfl _ _

theorem exec_mtUntemper (ys : List Word) :
    exec (.mtUntemper i ys) s =
      .next (s.answered (responseHeader 2 4 (instNibble i) 0x00#8) (ys.map untemper)) :=
  finish_of_header rfl _ _

/-- MT_CLONE of exactly 624 words loads the bank (R201). -/
theorem exec_mtClone_of_length (os : List Word) (h : os.length = 624) :
    exec (.mtClone i os) s =
      .next ((s.setMt i (mtCloned os)).answered (responseHeader 2 5 (instNibble i) 0x00#8) []) := by
  have completes : exec (.mtClone i os) s =
      finish (.mtClone i os) [] (s.setMt i (mtCloned os)) :=
    (if_neg (by omega)).trans (if_neg (by omega))
  rw [completes]
  exact finish_of_header rfl _ _

variable {s i}

theorem exec_mtTwist_of_invalid (invalid : s.mt[i].valid = false) :
    exec (.mtTwist i) s = .next (s.answered (responseHeader 2 2 (instNibble i) 0x08#8) []) :=
  (if_pos invalid).trans (raise_of_header rfl .notInstantiated s)

theorem exec_mtTwist_of_valid (valid : s.mt[i].valid = true) :
    exec (.mtTwist i) s =
      .next ((s.setMt i (mtTwist s.mt[i])).answered
        (responseHeader 2 2 (instNibble i) 0x00#8) []) :=
  (if_neg (by rw [valid]; decide)).trans (finish_of_header rfl _ _)

theorem exec_mtExtract_of_invalid (n : Count) (invalid : s.mt[i].valid = false) :
    exec (.mtExtract i n) s = .next (s.answered (responseHeader 2 1 (instNibble i) 0x08#8) []) :=
  (if_pos invalid).trans (raise_of_header rfl .notInstantiated s)

/-- MT_EXTRACT of a valid bank answers the bank's next n outputs (R194, R199). -/
theorem exec_mtExtract_of_valid (n : Count) (valid : s.mt[i].valid = true)
    (legal : s.mt[i].Legal) :
    exec (.mtExtract i n) s =
      .next ((s.setMt i (s.mt[i].after n.toNat)).answered (responseHeader 2 1 (instNibble i) 0x00#8)
        (s.mt[i].outputs n.toNat)) := by
  have completes : exec (.mtExtract i n) s =
      finish (.mtExtract i n) (drawN mtExtract n.toNat s.mt[i]).1
        (s.setMt i (drawN mtExtract n.toNat s.mt[i]).2) := if_neg (by rw [valid]; decide)
  rw [completes, drawN_mt _ legal]
  exact finish_of_header rfl _ _

theorem answered_mt_get (s : State) (hdr : Word) (data : List Word) (i : Inst) :
    (s.answered hdr data).mt[i] = s.mt[i] := rfl

/-- Two valid banks with the same closed-form outputs answer every MT_EXTRACT alike (R205). -/
theorem extracts_agree {t : State} {j : Inst} (bank : s.mt[i].valid = true ∧ s.mt[i].Legal)
    (other : t.mt[j].valid = true ∧ t.mt[j].Legal)
    (same : ∀ k, t.mt[j].outputs k = s.mt[i].outputs k) :
    (∀ k : Nat, (drawN mtExtract k t.mt[j]).1 = (drawN mtExtract k s.mt[i]).1) ∧
    ∀ n : Count, ∃ s2 t2, exec (.mtExtract i n) s = .next s2 ∧
      exec (.mtExtract j n) t = .next t2 ∧ s2.responseData = t2.responseData := by
  obtain ⟨valid, legal⟩ := bank
  obtain ⟨otherValid, otherLegal⟩ := other
  refine ⟨fun k => ?_, fun n => ⟨_, _, exec_mtExtract_of_valid n valid legal,
    exec_mtExtract_of_valid n otherValid otherLegal, (same n.toNat).symm⟩⟩
  rw [drawN_mt _ otherLegal, drawN_mt _ legal, same]

end Sys2Proof.Machine
end

section
/-! SUPPORT. The statements about the MT19937 engine (42_mt19937.md R190 to R201, R205). -/

namespace Sys2Proof.Machine

/-- Settles O7: the array is the seed fill's own, whose words `mtSeedFill_get_succ` chains. -/
theorem mtSeedFillResult : Obligations.MtSeedFill := fun s i seed =>
  ⟨encode_mtSeed i s.params seed, (mtSeedFill seed).w, mtSeedFill_get_zero seed,
    mtSeedFill_get_succ seed, exec_mtSeed s i seed⟩

/-- Settles O8: the array is `twistWords`, whose words obey `twistWords_recurrence`. -/
theorem mtTwistInPlace : Obligations.MtTwistInPlace := fun s i =>
  ⟨encode_mtTwist i s.params, exec_mtTwist_of_invalid, fun valid =>
    ⟨twistWords s.mt[i].w, twistWords_recurrence s.mt[i].w, exec_mtTwist_of_valid valid⟩⟩

/-- Settles O9: the drawn words are the bank's outputs in closed form (`drawN_mt`). -/
theorem mtExtractResult : Obligations.MtExtractResult := fun s i n =>
  ⟨encode_mtExtract i s.params n, exec_mtExtract_of_invalid n, exec_mtExtract_of_valid n⟩

/-- Settles O10: `temper` is the four steps, and `untemper` the passes of R198 one after the other. -/
theorem mtTemperResults : Obligations.MtTemperResults := fun s i ys fits =>
  ⟨⟨encode_mtTemper i s.params ys fits, exec_mtTemper s i ys⟩,
    encode_mtUntemper i s.params ys fits, exec_mtUntemper s i ys⟩

/-- Settles O11: the passes undo the steps in both orders; the two example words are evaluated. -/
theorem untemperInvertsTemper : Obligations.UntemperInvertsTemper :=
  ⟨untemper_temper, temper_untemper, by decide, by decide, by decide⟩

/-- Settles O14: the clone holds the terms from the observed bank's cursor on, so its outputs from
cursor 624 are those the bank gives after the 624 observed ones (`mtCloned_outputs_outputs`). -/
theorem cloneLaw : Obligations.CloneLaw := by
  intro s t v c valid legal
  have count : (624#20).toNat = 624 := rfl
  have observed := exec_mtExtract_of_valid 624#20 valid legal
  rw [count] at observed
  have cloned := exec_mtClone_of_length t c _ (s.mt[v].outputs_length 624)
  refine ⟨_, _, observed, cloned, extracts_agree ?_ ?_ ?_⟩
  · rw [answered_mt_get, State.setMt_get_self]
    exact ⟨(Mt.after_valid _ _).trans valid, after_legal _ _ legal⟩
  · rw [answered_mt_get, State.setMt_get_self]
    exact ⟨rfl, mtCloned_legal _⟩
  · intro k
    rw [answered_mt_get, State.setMt_get_self, answered_mt_get, State.setMt_get_self]
    exact mtCloned_outputs_outputs _ k

end Sys2Proof.Machine
end

section
/-! SUPPORT. The packets of the BBS commands and what each answers (43_bbs.md R230, R231, R233, R235), and
how the squaring sequence repeats (R236). -/

namespace Sys2Proof.Machine

/-! ### The commands -/

theorem encode_bbsNextBit (p : Params) (i : Inst) (n : Count) :
    encode p (.bbsNextBit i n) =
      [0x31000000#32 ||| BitVec.ofNat 32 i.val <<< 20 ||| n.setWidth 32] :=
  congrArg (· :: []) (header_inst 3 1 i n)

theorem bbsParamsOk_iff (p q : Nat) :
    bbsParamsOk p q = true ↔ p % 4 = 3 ∧ q % 4 = 3 ∧ p ≠ q := by
  simp [bbsParamsOk, and_assoc]

theorem answered_bbs_get (s : State) (hdr : Word) (data : List Word) (i : Inst) :
    (s.answered hdr data).bbs[i] = s.bbs[i] := rfl

/-- BBS_INIT with good factors and a seed coprime to their product replaces the instance (R230). -/
theorem exec_bbsInit_of_coprime (s : State) (i : Inst) {p q x : Nat}
    (good : p % 4 = 3 ∧ q % 4 = 3 ∧ p ≠ q) (coprime : Nat.gcd x (p * q) = 1) :
    exec (.bbsInit i p q (some x)) s =
      .next ((s.setBbs i (bbsInitial p q (x % (p * q)))).answered
        (responseHeader 3 0 (instNibble i) 0x00#8) []) := by
  have passes : ¬ bbsParamsOk p q = false := by rw [(bbsParamsOk_iff p q).mpr good]; decide
  have completes : exec (.bbsInit i p q (some x)) s =
      finish (.bbsInit i p q (some x)) [] (s.setBbs i (bbsInitial p q (x % (p * q)))) :=
    (if_neg passes).trans (if_neg (not_not_intro coprime))
  rw [completes]
  exact finish_of_header rfl _ _

/-- After such a BBS_INIT the instance depends on the factors and the seed alone. -/
theorem exists_exec_bbsInit_of_coprime (s : State) (i : Inst) {p q x : Nat}
    (good : p % 4 = 3 ∧ q % 4 = 3 ∧ p ≠ q) (coprime : Nat.gcd x (p * q) = 1) :
    ∃ s1, exec (.bbsInit i p q (some x)) s = .next s1 ∧
      s1.bbs[i] = bbsInitial p q (x % (p * q)) :=
  ⟨_, exec_bbsInit_of_coprime s i good coprime,
    (answered_bbs_get _ _ _ i).trans (s.setBbs_get_self i _)⟩

variable {s : State} {i : Inst}

theorem exec_bbsNextBit_of_invalid (n : Count) (invalid : s.bbs[i].valid = false) :
    exec (.bbsNextBit i n) s = .next (s.answered (responseHeader 3 1 (instNibble i) 0x08#8) []) :=
  (if_pos invalid).trans (raise_of_header rfl .notInstantiated s)

/-- BBS_NEXT_BIT of a valid instance answers n draws, whatever X and N it holds (R233). -/
theorem exec_bbsNextBit_of_valid (n : Count) (valid : s.bbs[i].valid = true) :
    exec (.bbsNextBit i n) s =
      .next ((s.setBbs i (drawN bbsStep n.toNat s.bbs[i]).2).answered
        (responseHeader 3 1 (instNibble i) 0x00#8)
        (packBits (drawN bbsStep n.toNat s.bbs[i]).1)) :=
  (if_neg (by rw [valid]; decide)).trans (finish_of_header rfl _ _)

/-- BBS_NEXT_BIT of two valid instances with equal X and N: the same bits, and equal X after them. -/
theorem nextBits_agree {t : State} {j : Inst} (n : Count)
    (valid : s.bbs[i].valid = true) (otherValid : t.bbs[j].valid = true)
    (sameX : s.bbs[i].x = t.bbs[j].x) (sameN : s.bbs[i].n = t.bbs[j].n) :
    ∃ s' t', exec (.bbsNextBit i n) s = .next s' ∧ exec (.bbsNextBit j n) t = .next t' ∧
      s'.responseData = t'.responseData ∧ s'.bbs[i].x = t'.bbs[j].x := by
  obtain ⟨sameBits, sameLast⟩ := seq_congr _ _ sameX sameN n.toNat
  refine ⟨_, _, exec_bbsNextBit_of_valid n valid, exec_bbsNextBit_of_valid n otherValid,
    congrArg packBits sameBits, ?_⟩
  rwa [answered_bbs_get, answered_bbs_get, State.setBbs_get_self, State.setBbs_get_self]

/-! ### The sequence of X -/

theorem drawN_x_lt (b : Bbs) (h : b.x < b.n) (k : Nat) : (drawN bbsStep k b).2.x < b.n := by
  have below := drawN_keeps bbsStep (fun c : Bbs => c.x < c.n)
    (fun _ hc => Nat.mod_lt _ (Nat.zero_lt_of_lt hc)) k b h
  rwa [drawN_n] at below

/-- Two equal values of X are followed by equal values of X. -/
theorem drawN_x_add_congr (b : Bbs) {j k : Nat}
    (same : (drawN bbsStep j b).2.x = (drawN bbsStep k b).2.x) (m : Nat) :
    (drawN bbsStep (j + m) b).2.x = (drawN bbsStep (k + m) b).2.x := by
  rw [drawN_add, drawN_add]
  exact (seq_congr _ _ same (by rw [drawN_n, drawN_n]) m).2

/-- Among X and its first N successors, all below N, two are equal. -/
theorem exists_drawN_x_repeat (b : Bbs) (h : b.x < b.n) :
    ∃ j k : Nat, j < k ∧ k ≤ b.n ∧ (drawN bbsStep k b).2.x = (drawN bbsStep j b).2.x := by
  obtain ⟨j, hj, k, hk, differ, same⟩ := Finset.exists_ne_map_eq_of_card_lt_of_maps_to
    (s := Finset.range (b.n + 1)) (t := Finset.range b.n)
    (f := fun k => (drawN bbsStep k b).2.x) (by simp)
    (fun k _ => Finset.mem_coe.mpr (Finset.mem_range.mpr (drawN_x_lt b h k)))
  rw [Finset.mem_range] at hj hk
  rcases Nat.lt_or_gt_of_ne differ with before | after
  · exact ⟨j, k, before, Nat.le_of_lt_succ hk, same.symm⟩
  · exact ⟨k, j, after, Nat.le_of_lt_succ hj, same⟩

/-- The sequence of X is periodic from a start on, start and period together at most N (R236). -/
theorem drawN_x_eventually_periodic (b : Bbs) (h : b.x < b.n) :
    ∃ start period : Nat, 1 ≤ period ∧ start + period ≤ b.n ∧
      ∀ k, start ≤ k → (drawN bbsStep (k + period) b).2.x = (drawN bbsStep k b).2.x := by
  obtain ⟨start, again, later, within, same⟩ := exists_drawN_x_repeat b h
  refine ⟨start, again - start, by omega, by omega, fun k hk => ?_⟩
  have follows := drawN_x_add_congr b same (k - start)
  rwa [show again + (k - start) = k + (again - start) by omega,
    show start + (k - start) = k by omega] at follows

/-- The example of R236: p = 11, q = 23 and seed 3 come back to 3 after 20 squarings, not before. -/
theorem drawN_bbsInitial_returns :
    (drawN bbsStep 20 (bbsInitial 11 23 3)).2.x = 3 ∧
    ∀ k < 20, 0 < k → (drawN bbsStep k (bbsInitial 11 23 3)).2.x ≠ 3 := by
  decide

end Sys2Proof.Machine
end

section
/-! SUPPORT. The statements about BBS_NEXT_BIT (43_bbs.md R235, R236). -/

namespace Sys2Proof.Machine

/-- Settles O17: the draws of an instance with X below N in closed form (`drawN_bbs`). -/
theorem bbsNextBitResult : Obligations.BbsNextBitResult := by
  intro s i n
  refine ⟨encode_bbsNextBit s.params i n, exec_bbsNextBit_of_invalid n, fun valid legal => ?_⟩
  obtain ⟨_, _, _, below, _⟩ := legal valid
  rw [exec_bbsNextBit_of_valid n valid, drawN_bbs _ below]
  rfl

/-- Settles O19: the draws are a function of X and N, so equal inits agree; the pigeonhole on the
values below N gives the period, and the example's cycle is evaluated. -/
theorem bbsReproducible : Obligations.BbsReproducible := by
  refine ⟨fun s t i j n => nextBits_agree n, fun s t i j p q x n good coprime => ?_,
    drawN_x_eventually_periodic, fun b hn hx => ?_⟩
  · obtain ⟨s1, sInit, sFresh⟩ := exists_exec_bbsInit_of_coprime s i good coprime
    obtain ⟨t1, tInit, tFresh⟩ := exists_exec_bbsInit_of_coprime t j good coprime
    obtain ⟨s2, t2, sDraws, tDraws, sameBits, _⟩ := nextBits_agree n (by rw [sFresh]; rfl)
      (by rw [tFresh]; rfl) (by rw [sFresh, tFresh]) (by rw [sFresh, tFresh])
    exact ⟨s1, s2, t1, t2, sInit, sDraws, tInit, tDraws, sameBits⟩
  · have sameX (k : Nat) := (seq_congr b (bbsInitial 11 23 3) hx hn k).2
    obtain ⟨back, notBefore⟩ := drawN_bbsInitial_returns
    exact ⟨(sameX 20).trans back, fun k pos lt => (sameX k).trans_ne (notBefore k lt pos)⟩

end Sys2Proof.Machine
end

section
/-! SUPPORT. What the DRBG commands answer (44_drbg.md R260 to R263, R265) and which of them move the
derived state of an instance (10_state.md R53, R273). -/

namespace Sys2Proof.Machine

/-! ### The derived state -/

namespace Drbg

theorem state_eq_uninstantiated_iff (d : Drbg) : d.state = .uninstantiated ↔ d.inst = false := by
  unfold Drbg.state
  split
  · simp [*]
  · split <;> simp [*]

/-- An instantiated instance is in ReseedRequired exactly while CTR exceeds INTERVAL (R53). -/
theorem state_of_inst {d : Drbg} (inst : d.inst = true) :
    d.state = if d.interval.toNat < d.ctr.toNat then .reseedRequired else .ready := by
  simp [Drbg.state, Drbg.exhausted, inst]

theorem state_eq_ready_iff (d : Drbg) :
    d.state = .ready ↔ d.inst = true ∧ d.ctr.toNat ≤ d.interval.toNat := by
  cases inst : d.inst with
  | false => simp [(state_eq_uninstantiated_iff d).mpr inst]
  | true => rw [state_of_inst inst]; simp

theorem state_eq_reseedRequired_iff (d : Drbg) :
    d.state = .reseedRequired ↔ d.inst = true ∧ d.interval.toNat < d.ctr.toNat := by
  cases inst : d.inst with
  | false => simp [(state_eq_uninstantiated_iff d).mpr inst]
  | true => rw [state_of_inst inst]; simp

/-- CTR = 1 is within every legal INTERVAL (R52). -/
theorem state_of_ctr_one {d d' : Drbg} (legal : d.Legal) (inst : d'.inst = true)
    (ctr : d'.ctr = 1#32) (interval : d'.interval = d.interval) : d'.state = .ready :=
  (state_eq_ready_iff d').mpr ⟨inst, by rw [ctr, interval]; exact legal.1.1⟩

theorem instantiate_ready {d : Drbg} (legal : d.Legal) (variant : Variant) (sm : List Byte) :
    (d.instantiate variant sm).state = .ready := by
  cases variant with
  | hmac => exact state_of_ctr_one legal rfl rfl (by simp only [Drbg.instantiate, hmacUpdate_eq])
  | hash => exact state_of_ctr_one legal rfl rfl rfl

theorem reseed_ready {d : Drbg} (legal : d.Legal) (e a : List Byte) :
    (d.reseed e a).state = .ready := by
  unfold Drbg.reseed
  split
  · exact state_of_ctr_one legal rfl rfl (by simp only [hmacUpdate_eq])
  · exact state_of_ctr_one legal rfl rfl rfl

/-- Counting one Generate from Ready exceeds INTERVAL exactly when CTR was INTERVAL (R269, R273). -/
theorem state_of_counted {d : Drbg} (legal : d.Legal) (ready : d.state = .ready)
    (v k : Vector Byte 55) :
    ({ d with v := v, k := k, ctr := d.ctr + 1#32 } : Drbg).state =
      if d.ctr = d.interval then .reseedRequired else .ready := by
  obtain ⟨inst, within⟩ := (state_eq_ready_iff d).mp ready
  obtain ⟨-, ctrBound, -⟩ := legal
  have counted : (d.ctr + 1#32).toNat = d.ctr.toNat + 1 := by
    rw [BitVec.toNat_add, BitVec.toNat_ofNat]; omega
  have atBound : d.interval.toNat < d.ctr.toNat + 1 ↔ d.ctr = d.interval := by
    rw [← BitVec.toNat_inj]; omega
  rw [state_of_inst (by exact inst), counted]
  simp only [atBound]

end Drbg

/-! ### The commands -/

theorem tooLong_eq_false {p : Params} {b : List Byte} (fits : b.length ≤ p.maxStrBytes) :
    tooLong p b = false := by
  simpa [tooLong] using fits

theorem answered_drbg_get (s : State) (hdr : Word) (data : List Word) (i : Inst) :
    (s.answered hdr data).drbg[i] = s.drbg[i] := rfl

theorem encode_drbgGenBits (p : Params) (i : Inst) (n : Count) :
    encode p (.drbgGenBits i n) =
      [0x43000000#32 ||| BitVec.ofNat 32 i.val <<< 20 ||| n.setWidth 32] :=
  congrArg (· :: []) (header_inst 4 3 i n)

section
variable {s : State} {i : Inst}

theorem exec_drbgInstantiate_of_fits (variant : Variant) {e n ps : List Byte}
    (eFits : e.length ≤ s.params.maxStrBytes) (nFits : n.length ≤ s.params.maxStrBytes)
    (psFits : ps.length ≤ s.params.maxStrBytes) :
    exec (.drbgInstantiate i variant e n ps) s =
      .next ((s.setDrbg i (s.drbg[i].instantiate variant (e ++ n ++ ps))).answered
        (responseHeader 4 0 (instNibble i) 0x00#8) []) :=
  (if_neg (by simp [tooLong_eq_false, *])).trans (finish_of_header rfl _ _)

theorem exec_drbgReseed_of_fits {e a : List Byte} (eFits : e.length ≤ s.params.maxStrBytes)
    (aFits : a.length ≤ s.params.maxStrBytes) :
    exec (.drbgReseed i e a) s =
      .next ((s.setDrbg i (s.drbg[i].reseed e a)).answered
        (responseHeader 4 2 (instNibble i) 0x00#8) []) :=
  (if_neg (by simp [tooLong_eq_false, *])).trans (finish_of_header rfl _ _)

theorem exec_drbgSetInterval_of_legal {v : Word} (pos : 1 ≤ v.toNat) (bound : v.toNat ≤ 2 ^ 31) :
    exec (.drbgSetInterval i v) s =
      .next ((s.setDrbg i { s.drbg[i] with interval := v }).answered
        (responseHeader 4 5 (instNibble i) 0x00#8) []) :=
  (if_neg (by omega)).trans (finish_of_header rfl _ _)

theorem exec_drbgGenerate_of_uninstantiated (n : Count) (a : List Byte)
    (inst : s.drbg[i].inst = false) :
    exec (.drbgGenerate i n a) s =
      .next (s.answered (responseHeader 4 1 (instNibble i) 0x08#8) []) :=
  (if_pos inst).trans (raise_of_header rfl .notInstantiated s)

/-- DRBG_GENERATE, its first two checks passed, answers the status its Generate is refused with. -/
theorem exec_drbgGenerate_of_error {n : Count} {a : List Byte} {st : Status}
    (inst : s.drbg[i].inst = true) (fits : a.length ≤ s.params.maxStrBytes)
    (refused : s.drbg[i].generate s.params.hmacPreUpdate n.toNat a = .error st) :
    exec (.drbgGenerate i n a) s =
      .next (s.answered (responseHeader 4 1 (instNibble i) st.code) []) :=
  (if_neg (by rw [inst]; decide)).trans ((if_neg (by simp [tooLong_eq_false fits])).trans
    (by rw [refused]; exact raise_of_header rfl st s))

theorem exec_drbgGenerate_of_ok {n : Count} {a out : List Byte} {d : Drbg}
    (inst : s.drbg[i].inst = true) (fits : a.length ≤ s.params.maxStrBytes)
    (made : s.drbg[i].generate s.params.hmacPreUpdate n.toNat a = .ok (out, d)) :
    exec (.drbgGenerate i n a) s =
      .next ((s.setDrbg i d).answered (responseHeader 4 1 (instNibble i) 0x00#8)
        (packBytes out)) :=
  (if_neg (by rw [inst]; decide)).trans ((if_neg (by simp [tooLong_eq_false fits])).trans
    (by rw [made]; exact finish_of_header rfl _ _))

theorem exec_drbgGenBits_of_uninstantiated (n : Count) (inst : s.drbg[i].inst = false) :
    exec (.drbgGenBits i n) s =
      .next (s.answered (responseHeader 4 3 (instNibble i) 0x08#8) []) :=
  (if_pos inst).trans (raise_of_header rfl .notInstantiated s)

theorem exec_drbgGenBits_of_zero {n : Count} (inst : s.drbg[i].inst = true) (zero : n.toNat = 0) :
    exec (.drbgGenBits i n) s =
      .next (s.answered (responseHeader 4 3 (instNibble i) 0x01#8) []) :=
  (if_neg (by rw [inst]; decide)).trans
    ((if_pos (BitVec.eq_of_toNat_eq zero)).trans (raise_of_header rfl .invalidParameter s))

/-- DRBG_GEN_BITS, its first two checks passed, answers the status its draw is refused with. -/
theorem exec_drbgGenBits_of_error {n : Count} {st : Status} (inst : s.drbg[i].inst = true)
    (pos : n.toNat ≠ 0) (refused : s.drbg[i].bits s.params.hmacPreUpdate n.toNat = .error st) :
    exec (.drbgGenBits i n) s =
      .next (s.answered (responseHeader 4 3 (instNibble i) st.code) []) :=
  (if_neg (by rw [inst]; decide)).trans ((if_neg fun zero => pos (by rw [zero]; rfl)).trans
    (by rw [refused]; exact raise_of_header rfl st s))

theorem exec_drbgGenBits_of_ok {n : Count} {bs : List Bool} {d : Drbg}
    (inst : s.drbg[i].inst = true) (pos : n.toNat ≠ 0)
    (drawn : s.drbg[i].bits s.params.hmacPreUpdate n.toNat = .ok (bs, d)) :
    exec (.drbgGenBits i n) s =
      .next ((s.setDrbg i d).answered (responseHeader 4 3 (instNibble i) 0x00#8)
        (packBits bs)) :=
  (if_neg (by rw [inst]; decide)).trans ((if_neg fun zero => pos (by rw [zero]; rfl)).trans
    (by rw [drawn]; exact finish_of_header rfl _ _))

end

/-! ### What keeps INST -/

/-- Wherever the command goes on, every DRBG instance has the INST it had in `s`. -/
def KeepsInst (s : State) (o : Host.Outcome State Fault Refusal) : Prop :=
  ∀ t, o = .next t → ∀ i : Inst, t.drbg[i].inst = s.drbg[i].inst

namespace KeepsInst

variable {s s' : State}

theorem of_next (same : ∀ i : Inst, s'.drbg[i].inst = s.drbg[i].inst) : KeepsInst s (.next s') := by
  rintro t ⟨⟩
  exact same

theorem of_finish (c : Instr) (data : List Word)
    (same : ∀ i : Inst, s'.drbg[i].inst = s.drbg[i].inst) : KeepsInst s (finish c data s') :=
  of_next same

theorem of_raise (c : Instr) (st : Status)
    (same : ∀ i : Inst, s'.drbg[i].inst = s.drbg[i].inst) : KeepsInst s (raise c st s') :=
  of_next same

/-- A command that fails with nothing changed. -/
theorem raise (c : Instr) (st : Status) : KeepsInst s (raise c st s) := of_raise c st fun _ => rfl

/-- A command that completes with the DRBG instances as they were. -/
theorem finish (c : Instr) (data : List Word) (same : s'.drbg = s.drbg) :
    KeepsInst s (finish c data s') :=
  of_finish c data fun i => by rw [same]

theorem ite {P : Prop} [Decidable P] {o o' : Host.Outcome State Fault Refusal}
    (yes : KeepsInst s o) (no : KeepsInst s o') : KeepsInst s (if P then o else o') := by
  split
  · exact yes
  · exact no

end KeepsInst

theorem SrcDrew.drbg_eq {src : Src} {s t : State} (drew : SrcDrew src s t) : t.drbg = s.drbg :=
  (congrArg State.drbg drew.rest :)

/-- Writing an instance with the INST it had keeps every INST. -/
theorem setDrbg_inst (s : State) {j : Inst} {d : Drbg} (same : d.inst = s.drbg[j].inst) (i : Inst) :
    (s.setDrbg j d).drbg[i].inst = s.drbg[i].inst := by
  rw [State.setDrbg_drbg, get_set]
  split
  · next here => rw [← here, same]
  · rfl

section
variable (s : State) (j : Inst)

theorem execDrbgGenerate_keepsInst (n : Count) (a : List Byte) :
    KeepsInst s (execDrbgGenerate j n a s) := by
  unfold execDrbgGenerate
  split
  · exact .raise _ _
  next inst =>
    refine .ite (.raise _ _) ?_
    split
    · exact .raise _ _
    · next made =>
      exact .of_finish _ _
        (setDrbg_inst s (generate_drew _ _ _ _ _ _ (Bool.not_eq_false _ ▸ inst) made).inst)

theorem execDrbgGenBits_keepsInst (n : Count) : KeepsInst s (execDrbgGenBits j n s) := by
  unfold execDrbgGenBits
  split
  · exact .raise _ _
  next inst =>
    refine .ite (.raise _ _) ?_
    split
    · exact .raise _ _
    · next drawn =>
      exact .of_finish _ _
        (setDrbg_inst s (bits_drew _ _ _ _ _ (Bool.not_eq_false _ ▸ inst) drawn).inst)

/-- The draws of a bounded integer keep INST, whether it is answered or not. -/
theorem execDrbgRandomInt_keepsInst (a b : Word64) :
    KeepsInst s (execDrbgRandomInt j a b s) := by
  unfold execDrbgRandomInt
  split
  · exact .raise _ _
  next inst =>
    have drew := bounded_rel Drew (fun d => d.inst = true) Drew.refl (fun _ _ _ => Drew.trans)
      (Drbg.bits s.params.hmacPreUpdate)
      (fun k d bs d' hd drawn =>
        have once := bits_drew _ k bs d d' hd drawn
        ⟨once, once.inst.trans hd⟩)
      s.params.rangeMaxAttempts a b s.drbg[j] (Bool.not_eq_false _ ▸ inst)
    refine .ite (.raise _ _) ?_
    dsimp only
    split
    · exact .of_raise _ _ (setDrbg_inst s drew.inst)
    · exact .of_finish _ _ (setDrbg_inst s drew.inst)

theorem execSerInt_keepsInst (src : Src) (a b : Word64) : KeepsInst s (execSerInt src a b s) := by
  have drew := bounded_rel (SrcDrew src) (fun _ => True) (SrcDrew.refl src)
    (fun _ _ _ => SrcDrew.trans) (fun k t => .ok (State.srcBits t src k))
    (fun k t bs t' _ drawn =>
      have after : (t.srcBits src k).2 = t' := congrArg Prod.snd (Except.ok.inj drawn)
      ⟨after ▸ srcBits_drew t src k, trivial⟩)
    s.params.rangeMaxAttempts a b s trivial
  unfold execSerInt
  refine .ite (.raise _ _) (.ite (.raise _ _) ?_)
  dsimp only
  split
  · exact .of_raise _ _ fun i => by rw [drew.drbg_eq]
  · exact .finish _ _ drew.drbg_eq

theorem execBbsInit_keepsInst (p q : Nat) (seed : Option Nat) :
    KeepsInst s (execBbsInit j p q seed s) := by
  unfold execBbsInit
  refine .ite (.raise _ _) ?_
  cases seed with
  | some x => exact .ite (.raise _ _) (.finish _ _ rfl)
  | none => exact .of_next fun _ => rfl

theorem execSerXor_keepsInst (ss : List (List Byte)) : KeepsInst s (execSerXor ss s) := by
  cases ss with
  | nil => exact .raise _ _
  | cons b rest => exact .ite (.raise _ _) (.ite (.raise _ _) (.finish _ _ rfl))

theorem execLcgPreset_keepsInst (preset : BitVec 4) (seed : Word64) :
    KeepsInst s (execLcgPreset j preset seed s) := by
  unfold execLcgPreset
  split
  · exact .raise _ _
  · exact .finish _ _ rfl

end

/-- The two commands that set INST (R260, R262). -/
inductive Seeds (i : Inst) : Instr → Prop
  | instantiate (variant : Variant) (e n ps : List Byte) :
      Seeds i (.drbgInstantiate i variant e n ps)
  | reseed (e a : List Byte) : Seeds i (.drbgReseed i e a)

/-- Every command keeps the INST of every DRBG instance, but for the two that seed it. -/
theorem exec_keepsInst_or_seeds (s : State) (c : Instr) :
    KeepsInst s (exec c s) ∨ ∃ j, Seeds j c := by
  cases c with
  | drbgInstantiate j variant e n ps => exact .inr ⟨j, .instantiate variant e n ps⟩
  | drbgReseed j e a => exact .inr ⟨j, .reseed e a⟩
  | drbgGenerate j n a => exact .inl (execDrbgGenerate_keepsInst s j n a)
  | drbgGenBits j n => exact .inl (execDrbgGenBits_keepsInst s j n)
  | drbgRandomInt j a b => exact .inl (execDrbgRandomInt_keepsInst s j a b)
  | drbgSetInterval j v =>
    exact .inl (.ite (.raise _ _) (.of_finish _ _ (setDrbg_inst s rfl)))
  | drbgRead j => exact .inl (.finish _ _ rfl)
  | sysNop => exact .inl (.finish _ _ rfl)
  | sysInfo => exact .inl (.finish _ _ rfl)
  | sysEcho ws => exact .inl (.finish _ _ rfl)
  | lcgInit j seed a c m => exact .inl (.ite (.raise _ _) (.finish _ _ rfl))
  | lcgPreset j preset seed => exact .inl (execLcgPreset_keepsInst s j preset seed)
  | lcgNext j n => exact .inl (.ite (.raise _ _) (.finish _ _ rfl))
  | lcgRead j => exact .inl (.finish _ _ rfl)
  | mtSeed j seed => exact .inl (.finish _ _ rfl)
  | mtExtract j n => exact .inl (.ite (.raise _ _) (.finish _ _ rfl))
  | mtTwist j => exact .inl (.ite (.raise _ _) (.finish _ _ rfl))
  | mtTemper j ys => exact .inl (.finish _ _ rfl)
  | mtUntemper j ys => exact .inl (.finish _ _ rfl)
  | mtClone j os => exact .inl (.ite (.raise _ _) (.ite (.raise _ _) (.finish _ _ rfl)))
  | mtRead j => exact .inl (.ite (.raise _ _) (.finish _ _ rfl))
  | mtWrite j cur ws => exact .inl (.ite (.raise _ _) (.finish _ _ rfl))
  | bbsInit j p q seed => exact .inl (execBbsInit_keepsInst s j p q seed)
  | bbsNextBit j n => exact .inl (.ite (.raise _ _) (.finish _ _ rfl))
  | bbsRead j => exact .inl (.finish _ _ rfl)
  | serBytes src n => exact .inl (.ite (.raise _ _) (.finish _ _ (srcBytes_drew s src _).drbg_eq))
  | serBits src n =>
    exact .inl (.ite (.raise _ _) (.ite (.raise _ _)
      (.finish _ _ (srcBits_drew s src _).drbg_eq)))
  | serFloat src n =>
    exact .inl (.ite (.raise _ _) (.finish _ _ (srcFloats_drew s src _).drbg_eq))
  | serInt src a b => exact .inl (execSerInt_keepsInst s src a b)
  | serXor ss => exact .inl (execSerXor_keepsInst s ss)

/-! ### What moves the state -/

/-- A seeding command of instance j leaves every instance as it was, or brings instance j to Ready
and leaves the others (R273). -/
theorem exec_seeds_state {s t : State} {j : Inst} {c : Instr} (seeds : Seeds j c)
    (legal : s.drbg[j].Legal) (ran : exec c s = .next t) (i : Inst) :
    t.drbg[i].state = s.drbg[i].state ∨ j = i ∧ t.drbg[i].state = .ready := by
  have written {d : Drbg} (ready : d.state = .ready) :
      (s.setDrbg j d).drbg[i].state = s.drbg[i].state ∨
        j = i ∧ (s.setDrbg j d).drbg[i].state = .ready := by
    rw [State.setDrbg_drbg, get_set]
    split
    · next here => exact .inr ⟨here, ready⟩
    · exact .inl rfl
  cases seeds with
  | instantiate variant e n ps =>
    change execDrbgInstantiate j variant e n ps s = .next t at ran
    unfold execDrbgInstantiate at ran
    split at ran
    · cases ran; exact .inl rfl
    · cases ran; exact written (Drbg.instantiate_ready legal variant (e ++ n ++ ps))
  | reseed e a =>
    change execDrbgReseed j e a s = .next t at ran
    unfold execDrbgReseed at ran
    split at ran
    · cases ran; exact .inl rfl
    · cases ran; exact written (Drbg.reseed_ready legal e a)

/-- Everything a command can do to whether an instance is Uninstantiated (R273): nothing, or a
seeding command of that instance brings it to Ready. -/
theorem exec_uninstantiated_iff_or_ready {s t : State} {c : Instr}
    (legal : ∀ j : Inst, s.drbg[j].Legal) (ran : exec c s = .next t) (i : Inst) :
    (t.drbg[i].state = .uninstantiated ↔ s.drbg[i].state = .uninstantiated) ∨
      Seeds i c ∧ t.drbg[i].state = .ready := by
  rcases exec_keepsInst_or_seeds s c with keeps | ⟨j, seeds⟩
  · simp only [Drbg.state_eq_uninstantiated_iff, keeps t ran i, true_or]
  · rcases exec_seeds_state seeds (legal j) ran i with same | ⟨rfl, ready⟩
    · exact .inl (by rw [same])
    · exact .inr ⟨seeds, ready⟩

/-- A Generate from Ready counts to ReseedRequired exactly at CTR = INTERVAL, and one in
ReseedRequired is refused with nothing changed (R273). -/
theorem exec_drbgGenerate_state {s : State} {i : Inst} (legal : s.drbg[i].Legal) (n : Count)
    {a : List Byte} (fits : a.length ≤ s.params.maxStrBytes) :
    ∃ t, exec (.drbgGenerate i n a) s = .next t ∧
      (s.drbg[i].state = .ready →
        t.drbg[i].state = if s.drbg[i].ctr = s.drbg[i].interval then .reseedRequired else .ready) ∧
      (s.drbg[i].state = .reseedRequired →
        t = s.answered (responseHeader 4 1 (instNibble i) 0x03#8) []) := by
  cases now : s.drbg[i].state with
  | uninstantiated =>
    exact ⟨_, exec_drbgGenerate_of_uninstantiated n a
      ((Drbg.state_eq_uninstantiated_iff _).mp now), nofun, nofun⟩
  | ready =>
    obtain ⟨inst, within⟩ := (Drbg.state_eq_ready_iff _).mp now
    rcases generate_cases s.params.hmacPreUpdate n.toNat a s.drbg[i] with
      ⟨exceeded, -⟩ | ⟨-, out, v, k, -, made⟩
    · omega
    · refine ⟨_, exec_drbgGenerate_of_ok inst fits made, fun _ => ?_, nofun⟩
      rw [answered_drbg_get, State.setDrbg_get_self]
      exact Drbg.state_of_counted legal now v k
  | reseedRequired =>
    obtain ⟨inst, exceeded⟩ := (Drbg.state_eq_reseedRequired_iff _).mp now
    rcases generate_cases s.params.hmacPreUpdate n.toNat a s.drbg[i] with
      ⟨-, refused⟩ | ⟨within, -⟩
    · exact ⟨_, exec_drbgGenerate_of_error inst fits refused, nofun, fun _ => rfl⟩
    · omega

end Sys2Proof.Machine
end

section
/-! SUPPORT. The statements about DRBG_GEN_BITS and the derived DRBG state (44_drbg.md R263, R270,
R273). -/

namespace Sys2Proof.Machine

/-- A count of bits in whole bytes is again a count. -/
theorem toNat_ofNat_ceilDiv_eight (n : Count) :
    (BitVec.ofNat 20 (ceilDiv n.toNat 8)).toNat = ceilDiv n.toNat 8 := by
  rw [BitVec.toNat_ofNat, ceilDiv]
  omega

/-- Settles O27: the draw of n bits is the first n bits of one Generate of `ceil(n/8)` bytes
(`bits_cases`), refused exactly when that is. -/
theorem drbgGenBitsResult : Obligations.DrbgGenBitsResult := by
  intro s i n
  have draw := bits_cases s.params.hmacPreUpdate n.toNat s.drbg[i]
  refine ⟨encode_drbgGenBits s.params i n, exec_drbgGenBits_of_uninstantiated n,
    exec_drbgGenBits_of_zero, fun inst pos exceeded => ?_, fun inst pos within => ?_⟩
  · rcases draw with ⟨-, refused⟩ | ⟨within, -⟩
    · exact exec_drbgGenBits_of_error (st := .reseedRequired) inst pos refused
    · omega
  · rcases draw with ⟨exceeded, -⟩ | ⟨-, bytes, v, k, count, made, drawn⟩
    · omega
    · rw [← toNat_ofNat_ceilDiv_eight] at made
      exact ⟨bytes, { s.drbg[i] with v := v, k := k, ctr := s.drbg[i].ctr + 1#32 }, count, rfl,
        exec_drbgGenerate_of_ok inst (Nat.zero_le _) made, exec_drbgGenBits_of_ok inst pos drawn⟩

/-- Settles O31: a command leaves an instance on its side of INST or seeds it to Ready
(`exec_uninstantiated_iff_or_ready`); the other clauses are the state after each command's answer. -/
theorem drbgStateMachine : Obligations.DrbgStateMachine := by
  intro s i legal
  refine ⟨fun c t ran un => ?_, fun c t ran un moved => ?_, fun v e n ps eFits nFits psFits => ?_,
    fun e a eFits aFits => ?_, fun n a fits => exec_drbgGenerate_state (legal i) n fits,
    fun v pos bound inst => ?_⟩
  · rcases exec_uninstantiated_iff_or_ready legal ran i with same | ⟨-, ready⟩
    · exact same.mp un
    · exact nomatch un.symm.trans ready
  · rcases exec_uninstantiated_iff_or_ready legal ran i with same | ⟨seeds, ready⟩
    · exact absurd (same.mpr un) moved
    · refine ⟨ready, ?_⟩
      cases seeds with
      | instantiate v e n ps => exact .inl ⟨v, e, n, ps, rfl⟩
      | reseed e a => exact .inr ⟨e, a, rfl⟩
  · refine ⟨_, exec_drbgInstantiate_of_fits v eFits nFits psFits, ?_⟩
    rw [answered_drbg_get, State.setDrbg_get_self]
    exact Drbg.instantiate_ready (legal i) v _
  · refine ⟨_, exec_drbgReseed_of_fits eFits aFits, ?_⟩
    rw [answered_drbg_get, State.setDrbg_get_self]
    exact Drbg.reseed_ready (legal i) e a
  · refine ⟨_, exec_drbgSetInterval_of_legal pos bound, ?_⟩
    rw [answered_drbg_get, State.setDrbg_get_self]
    exact Drbg.state_of_inst inst

end Sys2Proof.Machine
end

section
/-! SUPPORT. What SER_BYTES and SER_BITS answer (45_serializer.md R313, R314), and the byte and bit
streams of the three sources in closed form (R318, R319). -/

namespace Sys2Proof.Machine

/-! ### Byte strings as bit strings -/

theorem bytesBits_cons (b : Byte) (bytes : List Byte) :
    bytesBits (b :: bytes) = byteBits b ++ bytesBits bytes := rfl

/-- The bits of the first k bytes are the first 8k bits. -/
theorem bytesBits_take (k : Nat) (bytes : List Byte) :
    bytesBits (bytes.take k) = (bytesBits bytes).take (8 * k) := by
  induction bytes generalizing k with
  | nil => simp [bytesBits]
  | cons b bytes ih =>
    cases k with
    | zero => rfl
    | succ k =>
      rw [List.take_succ_cons, bytesBits_cons, bytesBits_cons, ih, Nat.mul_succ, Nat.add_comm,
        ← byteBits_length b, List.take_length_add_append]

/-- The low byte of a number is its eight low bits, most significant first. -/
theorem byteBits_ofNat (v : Nat) :
    byteBits (BitVec.ofNat 8 v) = (List.range 8).map fun t => v.testBit (7 - t) := by
  refine List.map_congr_left fun t ht => ?_
  have lt : t < 8 := List.mem_range.mp ht
  have low : 7 - t < 8 := by omega
  rw [BitVec.getMsbD, BitVec.getLsbD_ofNat]
  simp [lt, low]

/-- Eight bits as a number make the byte of those bits (R15). -/
theorem byteBits_natOfBits (bs : List Bool) (eight : bs.length = 8) :
    byteBits (BitVec.ofNat 8 (natOfBits bs)) = bs := by
  rw [byteBits_ofNat]
  refine List.ext_getElem (by simp [eight]) fun t _ ht => ?_
  rw [List.getElem_map, List.getElem_range, ← natOfBits_testBit bs t ht, eight]

theorem bytesBits_wordBytes (w : Word) :
    bytesBits (wordBytes w) = (List.range 32).map fun t => w.getLsbD (31 - t) := by
  refine List.ext_getElem (by simp [wordBytes]) fun t _ ht => ?_
  have lt : t < 32 := by simpa using ht
  interval_cases t <;> simp [bytesBits, byteBits, wordBytes, BitVec.getMsbD]

/-- The bits of words are those of their bytes (R90). -/
theorem bytesBits_flatMap_wordBytes (ws : List Word) :
    bytesBits (ws.flatMap wordBytes) =
      ws.flatMap fun w => (List.range 32).map fun t => w.getLsbD (31 - t) := by
  rw [bytesBits, List.flatMap_assoc]
  exact List.flatMap_congr fun w _ => bytesBits_wordBytes w

/-! ### Packing bytes is packing their bits -/

/-- The padding of R92: zeros after a bit string leave its word as it is. -/
theorem wordOfBits_append_zeros (bs : List Bool) (k : Nat) (fits : bs.length + k ≤ 32) :
    wordOfBits (bs ++ List.replicate k false) = wordOfBits bs := by
  have zeros : natOfBits (List.replicate k false) = 0 := by
    induction k with
    | zero => rfl
    | succ k ih => rw [List.replicate_succ, natOfBits_cons, ih (by omega)]; simp
  simp only [wordOfBits, natOfBits_append, zeros, List.length_append, List.length_replicate,
    Nat.shiftLeft_eq, Nat.add_zero]
  rw [Nat.mul_assoc, ← Nat.pow_add]
  congr 3
  omega

/-- A word is its 32 bits packed (R92). -/
theorem wordOfBits_bits (w : Word) :
    wordOfBits ((List.range 32).map fun t => w.getLsbD (31 - t)) = w := by
  refine BitVec.eq_of_getLsbD_eq fun t ht => ?_
  obtain ⟨u, hu, rfl⟩ : ∃ u < 32, t = 31 - u := ⟨31 - t, by omega, by omega⟩
  rw [wordOfBits_bit _ (by simp) u hu]
  simp [List.getD, hu]

/-- Four bytes in a word (R90) are their 32 bits in it (R92). -/
theorem wordOfBits_bytesBits (a b c d : Byte) :
    wordOfBits (bytesBits [a, b, c, d]) = word4 a b c d := by
  rw [← wordBytes_word4 a b c d, bytesBits_wordBytes, wordOfBits_bits]

/-- The first 32 bits of a string make its first word. -/
theorem packBits_append_of_length (first rest : List Bool) (full : first.length = 32) :
    packBits (first ++ rest) = wordOfBits first :: packBits rest := by
  have words : ceilDiv (first ++ rest).length 32 = ceilDiv rest.length 32 + 1 := by
    rw [List.length_append, full, ceilDiv, ceilDiv]
    omega
  rw [packBits, words, packBitsIn, packBits, List.take_left' full, List.drop_left' full]

/-- A bit string of at most 32 bits makes one word, which zeros after it leave as it is. -/
theorem packBits_of_short (bs : List Bool) (k : Nat) (nonempty : bs ≠ [])
    (fits : bs.length + k ≤ 32) :
    packBits bs = [wordOfBits (bs ++ List.replicate k false)] := by
  have len : 0 < bs.length := List.length_pos_iff.mpr nonempty
  have words : ceilDiv bs.length 32 = 1 := by rw [ceilDiv]; omega
  rw [wordOfBits_append_zeros bs k fits, packBits, words, packBitsIn, packBitsIn,
    List.take_of_length_le (by omega)]

/-- Packing a byte string (R90) is packing its bits (R92). -/
theorem packBits_bytesBits (bytes : List Byte) : packBits (bytesBits bytes) = packBytes bytes := by
  induction bytes using packBytes.induct with
  | case1 => rfl
  | case2 a =>
    rw [packBytes, ← wordOfBits_bytesBits]
    exact packBits_of_short (bytesBits [a]) 24 (List.cons_ne_nil _ _) (by simp)
  | case3 a b =>
    rw [packBytes, ← wordOfBits_bytesBits]
    exact packBits_of_short (bytesBits [a, b]) 16 (List.cons_ne_nil _ _) (by simp)
  | case4 a b c =>
    rw [packBytes, ← wordOfBits_bytesBits]
    exact packBits_of_short (bytesBits [a, b, c]) 8 (List.cons_ne_nil _ _) (by simp)
  | case5 a b c d rest ih =>
    rw [packBytes, ← ih, ← wordOfBits_bytesBits]
    exact packBits_append_of_length (bytesBits [a, b, c, d]) (bytesBits rest) (by simp)

/-! ### The sources' byte streams -/

/-- The low byte of each LCG value (R318). -/
theorem srcBytes_lcg (s : State) (j : Inst) (n : Nat) (valid : s.lcg[j].valid = true)
    (legal : s.lcg[j].Legal) :
    s.srcBytes (.lcg j) n =
      ((s.lcg[j].outputs n).map (BitVec.ofNat 8), s.setLcg j (s.lcg[j].after n)) := by
  have lowByte (v : Nat) : (BitVec.ofNat 64 v).extractLsb' 0 8 = BitVec.ofNat 8 v :=
    BitVec.eq_of_toNat_eq (by simp)
  simp only [State.srcBytes, (drawN_lcg _ valid legal n).1, List.map_map, Function.comp_def,
    lowByte]

/-- The first n bytes of as many MT outputs as hold them (R318). -/
theorem srcBytes_mt (s : State) (j : Inst) (n : Nat) (legal : s.mt[j].Legal) :
    s.srcBytes (.mt j) n =
      (((s.mt[j].outputs (ceilDiv n 4)).flatMap wordBytes).take n,
        s.setMt j (s.mt[j].after (ceilDiv n 4))) := by
  rw [State.srcBytes, drawN_mt _ legal]

/-- n BBS bytes are 8n squarings, and their bits are those of the squarings (R312). -/
theorem drawN_bbsByte (n : Nat) (b : Bbs) :
    bytesBits (drawN bbsByte n b).1 = (drawN bbsStep (8 * n) b).1 ∧
    (drawN bbsByte n b).2 = (drawN bbsStep (8 * n) b).2 := by
  induction n generalizing b with
  | zero => exact ⟨rfl, rfl⟩
  | succ n ih =>
    obtain ⟨bits, last⟩ := ih (bbsByte b).2
    have first : byteBits (bbsByte b).1 = (drawN bbsStep 8 b).1 :=
      byteBits_natOfBits _ (drawN_length _ _ _)
    rw [Nat.mul_succ, Nat.add_comm, drawN_add, drawN]
    exact ⟨congrArg₂ (· ++ ·) first bits, last⟩

/-- The bytes of a BBS source, packed, are its squarings' bits, packed (R318). -/
theorem srcBytes_bbs (s : State) (j : Inst) (n : Nat) (below : s.bbs[j].x < s.bbs[j].n) :
    packBytes (s.srcBytes (.bbs j) n).1 = packBits (squaringBits s.bbs[j].x s.bbs[j].n (8 * n)) ∧
    (s.srcBytes (.bbs j) n).2 = s.setBbs j (s.bbs[j].after (8 * n)) := by
  obtain ⟨bits, last⟩ := drawN_bbsByte n s.bbs[j]
  rw [drawN_bbs _ below] at bits last
  exact ⟨(packBits_bytesBits _).symm.trans (congrArg packBits bits), congrArg (s.setBbs j) last⟩

/-! ### The sources' bit streams -/

/-- The first n bits of an LCG's low bytes (R319). -/
theorem srcBits_lcg (s : State) (j : Inst) (n : Nat) (valid : s.lcg[j].valid = true)
    (legal : s.lcg[j].Legal) :
    s.srcBits (.lcg j) n =
      (((s.lcg[j].outputs (ceilDiv n 8)).flatMap fun v : Nat =>
          (List.range 8).map fun t => v.testBit (7 - t)).take n,
        s.setLcg j (s.lcg[j].after (ceilDiv n 8))) := by
  rw [State.srcBits, srcBytes_lcg s j _ valid legal, bytesBits, List.flatMap_map]
  simp only [byteBits_ofNat]

/-- The first n bits of the MT outputs: the byte stream holds all of them (R319). -/
theorem srcBits_mt (s : State) (j : Inst) (n : Nat) (legal : s.mt[j].Legal) :
    s.srcBits (.mt j) n =
      (((s.mt[j].outputs (ceilDiv (ceilDiv n 8) 4)).flatMap fun w : Word =>
          (List.range 32).map fun t => w.getLsbD (31 - t)).take n,
        s.setMt j (s.mt[j].after (ceilDiv (ceilDiv n 8) 4))) := by
  have enough : n ≤ 8 * ceilDiv n 8 := by rw [ceilDiv]; omega
  rw [State.srcBits, srcBytes_mt s j _ legal]
  simp only [bytesBits_take, List.take_take, Nat.min_eq_left enough, bytesBits_flatMap_wordBytes]

/-- A BBS source gives one bit a squaring (R319). -/
theorem srcBits_bbs (s : State) (j : Inst) (n : Nat) (below : s.bbs[j].x < s.bbs[j].n) :
    s.srcBits (.bbs j) n =
      (squaringBits s.bbs[j].x s.bbs[j].n n, s.setBbs j (s.bbs[j].after n)) := by
  rw [State.srcBits, drawN_bbs _ below]

/-! ### The commands -/

section

variable {s : State} {src : Src} (n : Count)

theorem exec_serBytes_of_invalid (invalid : s.srcValid src = false) :
    exec (.serBytes src n) s =
      .next (s.answered (responseHeader 5 0 (srcNibble src) 0x08#8) []) :=
  (if_pos invalid).trans (raise_of_header rfl .notInstantiated s)

theorem exec_serBytes_of_valid (valid : s.srcValid src = true) :
    exec (.serBytes src n) s =
      .next ((s.srcBytes src n.toNat).2.answered (responseHeader 5 0 (srcNibble src) 0x00#8)
        (packBytes (s.srcBytes src n.toNat).1)) :=
  (if_neg (by rw [valid]; decide)).trans (finish_of_header rfl _ _)

theorem exec_serBits_of_invalid (invalid : s.srcValid src = false) :
    exec (.serBits src n) s =
      .next (s.answered (responseHeader 5 1 (srcNibble src) 0x08#8) []) :=
  (if_pos invalid).trans (raise_of_header rfl .notInstantiated s)

variable {n}

theorem exec_serBits_of_zero (valid : s.srcValid src = true) (zero : n.toNat = 0) :
    exec (.serBits src n) s =
      .next (s.answered (responseHeader 5 1 (srcNibble src) 0x01#8) []) :=
  (if_neg (by rw [valid]; decide)).trans
    ((if_pos (BitVec.eq_of_toNat_eq zero)).trans (raise_of_header rfl .invalidParameter s))

theorem exec_serBits_of_valid (pos : n.toNat ≠ 0) (valid : s.srcValid src = true) :
    exec (.serBits src n) s =
      .next ((s.srcBits src n.toNat).2.answered (responseHeader 5 1 (srcNibble src) 0x00#8)
        (packBits (s.srcBits src n.toNat).1)) :=
  (if_neg (by rw [valid]; decide)).trans
    ((if_neg fun zero => pos (congrArg BitVec.toNat zero)).trans (finish_of_header rfl _ _))

end

end Sys2Proof.Machine
end

section
/-! SUPPORT. The statements about SER_BYTES and SER_BITS (45_serializer.md R313, R314, R318,
R319). -/

namespace Sys2Proof.Machine

/-- Settles O33: each source's byte stream in closed form; packed, the bytes of a BBS source are the
bits of its squarings (`packBits_bytesBits`). -/
theorem serBytesResult : Obligations.SerBytesResult := by
  intro s src j n
  refine ⟨rfl, exec_serBytes_of_invalid n, fun valid legal => ?_, fun valid legal => ?_,
    fun valid legal => ?_⟩
  · rw [exec_serBytes_of_valid n (src := .lcg j) valid, srcBytes_lcg s j _ valid legal]
    rfl
  · rw [exec_serBytes_of_valid n (src := .mt j) valid, srcBytes_mt s j _ legal]
    rfl
  · obtain ⟨_, _, _, below, _⟩ := legal valid
    obtain ⟨packed, left⟩ := srcBytes_bbs s j n.toNat below
    rw [exec_serBytes_of_valid n (src := .bbs j) valid, packed, left]
    rfl

/-- Settles O34: each source's bit stream in closed form, after the checks of R314. -/
theorem serBitsResult : Obligations.SerBitsResult := by
  intro s src j n
  refine ⟨rfl, exec_serBits_of_invalid n, exec_serBits_of_zero, fun pos valid legal => ?_,
    fun pos valid legal => ?_, fun pos valid legal => ?_⟩
  · rw [exec_serBits_of_valid pos (src := .lcg j) valid, srcBits_lcg s j _ valid legal]
    rfl
  · rw [exec_serBits_of_valid pos (src := .mt j) valid, srcBits_mt s j _ legal]
    rfl
  · obtain ⟨_, _, _, below, _⟩ := legal valid
    rw [exec_serBits_of_valid pos (src := .bbs j) valid, srcBits_bbs s j _ below]
    rfl

end Sys2Proof.Machine
end

section
/-! SUPPORT. `F64` over the integers (45_serializer.md R320): the 53-bit significand it truncates to,
how close that is, and the two fields of the pattern. -/

namespace Sys2Proof.Machine

/-! ### The truncated significand -/

/-- `v / 2^e` for the leading bit e of v, in units of `2^-52` and rounded down: the leading 1 and the
52 fraction bits of R320. -/
def significand (v : Nat) : Nat := v * 2 ^ 52 / 2 ^ Nat.log2 v

/-- Rounding down is the left shift of a v of at most 53 bits and the right shift of a longer one. -/
theorem significand_eq_shift (v : Nat) :
    significand v =
      if Nat.log2 v ≤ 52 then v <<< (52 - Nat.log2 v) else v >>> (Nat.log2 v - 52) := by
  unfold significand
  split
  case isTrue short =>
    have split52 : 2 ^ 52 = 2 ^ (52 - Nat.log2 v) * 2 ^ Nat.log2 v := by
      rw [← Nat.pow_add, Nat.sub_add_cancel short]
    rw [Nat.shiftLeft_eq, split52, ← Nat.mul_assoc, Nat.mul_div_cancel _ (Nat.two_pow_pos _)]
  case isFalse long =>
    have splitLog : 2 ^ Nat.log2 v = 2 ^ (Nat.log2 v - 52) * 2 ^ 52 := by
      rw [← Nat.pow_add, Nat.sub_add_cancel (by omega)]
    rw [Nat.shiftRight_eq_div_pow, splitLog, Nat.mul_div_mul_right _ _ (Nat.two_pow_pos _)]

/-- The leading 1 of the significand is bit 52. -/
theorem significand_bounds {v : Nat} (nonzero : v ≠ 0) :
    2 ^ 52 ≤ significand v ∧ significand v < 2 ^ 53 := by
  have low : 2 ^ Nat.log2 v ≤ v := Nat.log2_self_le nonzero
  have high : v < 2 ^ (Nat.log2 v + 1) := Nat.lt_log2_self
  constructor
  · rw [significand, Nat.le_div_iff_mul_le (Nat.two_pow_pos _), Nat.mul_comm]
    exact Nat.mul_le_mul_right _ low
  · rw [significand, Nat.div_lt_iff_lt_mul (Nat.two_pow_pos _)]
    rw [Nat.pow_succ] at high
    omega

theorem significand_mul_le (v : Nat) : significand v * 2 ^ Nat.log2 v ≤ v * 2 ^ 52 :=
  Nat.div_mul_le_self _ _

theorem lt_significand_succ_mul (v : Nat) : v * 2 ^ 52 < (significand v + 1) * 2 ^ Nat.log2 v :=
  Nat.lt_mul_of_div_lt (Nat.lt_succ_self _) (Nat.two_pow_pos _)

/-- Nothing is cut off a number whose significant bits are at most 53. -/
theorem significand_mul_eq {v m k : Nat} (nonzero : v ≠ 0) (bits : v = m * 2 ^ k)
    (few : m < 2 ^ 53) :
    significand v * 2 ^ Nat.log2 v = v * 2 ^ 52 := by
  have below : v < 2 ^ (53 + k) := by
    rw [bits, Nat.pow_add]
    exact Nat.mul_lt_mul_of_pos_right few (Nat.two_pow_pos k)
  have log : Nat.log2 v < 53 + k := (Nat.log2_lt nonzero).mpr below
  have divides : 2 ^ Nat.log2 v ∣ m * 2 ^ (k + 52) :=
    Dvd.dvd.mul_left (Nat.pow_dvd_pow 2 (by omega)) m
  rw [Nat.pow_add, ← Nat.mul_assoc, ← bits] at divides
  exact Nat.div_mul_cancel divides

/-! ### The pattern's fields -/

theorem bitlen_of_ne_zero {v : Nat} (nonzero : v ≠ 0) : bitlen v = Nat.log2 v + 1 := if_neg nonzero

/-- The pattern holds the biased exponent above the 52 low bits of the significand. -/
theorem f64_of_ne_zero {v : Nat} (nonzero : v ≠ 0) (w : Nat) :
    f64 v w = BitVec.ofNat 64 ((1023 + Nat.log2 v - w) * 2 ^ 52 + (significand v - 2 ^ 52)) := by
  rw [f64, if_neg nonzero, bitlen_of_ne_zero nonzero, Nat.add_sub_cancel, significand_eq_shift]
  simp only [Nat.shiftLeft_eq]

/-- The two fields as R320 reads them, for a value below 1 (`v < 2^w`). -/
theorem f64_fields {v w : Nat} (nonzero : v ≠ 0) (below : v < 2 ^ w) :
    (f64 v w).toNat / 2 ^ 52 = 1023 + Nat.log2 v - w ∧
    2 ^ 52 + (f64 v w).toNat % 2 ^ 52 = significand v := by
  have log : Nat.log2 v < w := (Nat.log2_lt nonzero).mpr below
  obtain ⟨low, high⟩ := significand_bounds nonzero
  rw [f64_of_ne_zero nonzero, BitVec.toNat_ofNat]
  omega

/-- Multiplying out the division by `2^w` leaves the scale of the bias on the leading bit's `2^e`. -/
theorem mul_two_pow_biased_exponent (x : Nat) {bias e w : Nat} (normal : w ≤ bias + e) :
    x * 2 ^ (bias + e - w) * 2 ^ w = x * 2 ^ e * 2 ^ bias := by
  rw [Nat.mul_assoc, ← Nat.pow_add, Nat.sub_add_cancel normal, Nat.add_comm, Nat.pow_add,
    Nat.mul_assoc]

end Sys2Proof.Machine
end

section
/-! SUPPORT. The statement about F64 (45_serializer.md R320). -/

namespace Sys2Proof.Machine

/-- Settles O36: the pattern's fields are the exponent and the truncated significand (`f64_fields`);
each bound is the significand's own, scaled by `2^1023`. -/
theorem floatRoundsTowardZero : Obligations.FloatRoundsTowardZero := by
  refine ⟨fun w _ => rfl, fun v w pos below width => ?_⟩
  have nonzero : v ≠ 0 := Nat.pos_iff_ne_zero.mp pos
  have log : Nat.log2 v < w := (Nat.log2_lt nonzero).mpr below
  obtain ⟨exponent, fraction⟩ := f64_fields nonzero below
  have scale (x : Nat) :=
    mul_two_pow_biased_exponent x (bias := 1023) (e := Nat.log2 v) (w := w) (by omega)
  have scaled : v * 2 ^ 1075 = v * 2 ^ 52 * 2 ^ 1023 := by
    rw [Nat.mul_assoc, ← Nat.pow_add 2 52 1023]
  dsimp only
  rw [exponent, fraction, scale, scale, scaled]
  refine ⟨by omega, by omega, Nat.mul_le_mul_right _ (significand_mul_le v),
    Nat.mul_lt_mul_of_pos_right (lt_significand_succ_mul v) (by positivity),
    fun ⟨m, k, bits, few⟩ => ?_⟩
  rw [significand_mul_eq nonzero bits few]

end Sys2Proof.Machine
end

section
/-! SUPPORT. Which header words are legal (30_encoding.md R111 to R113, R122): the seven conditions
as one condition on the fields, and the header of a well-formed instruction. -/

namespace Sys2Proof.Machine

/-- Conditions 4 to 7 of R122: what INST may hold for an engine and operation. -/
def instLegal (p : Params) (eng op : Nat) (inst : BitVec 4) : Prop :=
  if eng = 0 then inst = 0#4
  else if eng ≤ 4 then inst.toNat < instCount p eng
  else if op = 4 then inst = 0#4
  else inst.toNat % 4 < srcInstCount p (inst.toNat / 4)

theorem headerReject_eq_none_iff (p : Params) (h : Word) :
    headerReject p h = none ↔ (engOf h).toNat < 6 ∧
      ∃ f, formOf (engOf h).toNat (opOf h).toNat = some f ∧ argKeepsForm f (argOf h) = true ∧
        instLegal p (engOf h).toNat (opOf h).toNat (instOf h) := by
  unfold headerReject instLegal
  by_cases reserved : 6 ≤ (engOf h).toNat
  · simp [reserved]
  · rw [if_neg reserved]
    cases formOf (engOf h).toNat (opOf h).toNat with
    | none => simp
    | some f =>
      simp only [Option.some.injEq, exists_eq_left', and_iff_right (Nat.lt_of_not_le reserved)]
      cases keeps : argKeepsForm f (argOf h) with
      | false => simp
      | true =>
        rw [if_neg (by decide), and_iff_right rfl]
        split_ifs <;> simp [*]

variable {p : Params} {i : Inst}

theorem instNibble_toNat (i : Inst) : (instNibble i).toNat = i.val := by
  revert i; decide

/-- A header built from its fields is legal when its ARG keeps its form and its INST is allowed. -/
theorem headerReject_header {p : Params} {e o inst : BitVec 4} {a : BitVec 20} {f : Form}
    (eng : e.toNat < 6) (form : formOf e.toNat o.toNat = some f)
    (arg : argKeepsForm f a = true) (legal : instLegal p e.toNat o.toNat inst) :
    headerReject p (header e o inst a) = none := by
  rw [headerReject_eq_none_iff]
  simp only [engOf_header, opOf_header, instOf_header, argOf_header]
  exact ⟨eng, f, form, arg, legal⟩

theorem instLegal_lcg {op : Nat} (present : i.val < p.lcgNinst) :
    instLegal p 1 op (instNibble i) := by
  rw [← instNibble_toNat] at present; exact present

theorem instLegal_mt {op : Nat} (present : i.val < p.mtNinst) :
    instLegal p 2 op (instNibble i) := by
  rw [← instNibble_toNat] at present; exact present

theorem instLegal_bbs {op : Nat} (present : i.val < p.bbsNinst) :
    instLegal p 3 op (instNibble i) := by
  rw [← instNibble_toNat] at present; exact present

theorem instLegal_drbg {op : Nat} (present : i.val < p.drbgNinst) :
    instLegal p 4 op (instNibble i) := by
  rw [← instNibble_toNat] at present; exact present

theorem srcNibble_lcg (j : Inst) :
    (srcNibble (.lcg j)).toNat / 4 = 0 ∧ (srcNibble (.lcg j)).toNat % 4 = j.val := by
  revert j; decide

theorem srcNibble_mt (j : Inst) :
    (srcNibble (.mt j)).toNat / 4 = 1 ∧ (srcNibble (.mt j)).toNat % 4 = j.val := by
  revert j; decide

theorem srcNibble_bbs (j : Inst) :
    (srcNibble (.bbs j)).toNat / 4 = 2 ∧ (srcNibble (.bbs j)).toNat % 4 = j.val := by
  revert j; decide

/-- The INST field of a present source is allowed in every serializer command but SER_XOR (R113). -/
theorem instLegal_src {op : Nat} {src : Src} (notXor : op ≠ 4) (present : src.wellFormed p = true) :
    instLegal p 5 op (srcNibble src) := by
  have rule : instLegal p 5 op (srcNibble src) =
      ((srcNibble src).toNat % 4 < srcInstCount p ((srcNibble src).toNat / 4)) := if_neg notXor
  rw [rule]
  cases src with
  | lcg j => rw [(srcNibble_lcg j).1, (srcNibble_lcg j).2]; exact of_decide_eq_true present
  | mt j => rw [(srcNibble_mt j).1, (srcNibble_mt j).2]; exact of_decide_eq_true present
  | bbs j => rw [(srcNibble_bbs j).1, (srcNibble_bbs j).2]; exact of_decide_eq_true present

theorem argKeepsForm_preset (preset : BitVec 4) : argKeepsForm .p (preset.setWidth 20) = true := by
  refine decide_eq_true ?_
  ext k hk; simp

theorem argKeepsForm_seeded (seed : Option Nat) : argKeepsForm .s (seededArg seed) = true := by
  cases seed with
  | none => decide
  | some x => exact (by decide : argKeepsForm .s 1#20 = true)

theorem argKeepsForm_variant (v : Variant) : argKeepsForm .v (variantArg v) = true := by
  cases v <;> rfl

/-- The header of a well-formed instruction is legal (R122). -/
theorem headerReject_headerOf {i : Instr} (wf : i.wellFormed p = true) :
    headerReject p (headerOf i) = none := by
  cases i <;> simp only [Instr.wellFormed, Bool.and_eq_true, decide_eq_true_eq] at wf
  case sysNop | sysInfo => rfl
  case sysEcho | serXor => exact headerReject_header (by decide) rfl rfl rfl
  case lcgInit | lcgNext | lcgRead =>
    exact headerReject_header (by decide) rfl rfl (instLegal_lcg wf)
  case lcgPreset =>
    exact headerReject_header (by decide) rfl (argKeepsForm_preset _) (instLegal_lcg wf)
  case mtSeed | mtExtract | mtTwist | mtRead | mtWrite =>
    exact headerReject_header (by decide) rfl rfl (instLegal_mt wf)
  case mtTemper | mtUntemper | mtClone =>
    exact headerReject_header (by decide) rfl rfl (instLegal_mt wf.1)
  case bbsInit =>
    obtain ⟨⟨⟨present, -⟩, -⟩, -⟩ := wf
    exact headerReject_header (by decide) rfl (argKeepsForm_seeded _) (instLegal_bbs present)
  case bbsNextBit | bbsRead =>
    exact headerReject_header (by decide) rfl rfl (instLegal_bbs wf)
  case drbgInstantiate =>
    obtain ⟨⟨⟨present, -⟩, -⟩, -⟩ := wf
    exact headerReject_header (by decide) rfl (argKeepsForm_variant _) (instLegal_drbg present)
  case drbgReseed => exact headerReject_header (by decide) rfl rfl (instLegal_drbg wf.1.1)
  case drbgGenerate => exact headerReject_header (by decide) rfl rfl (instLegal_drbg wf.1)
  case drbgGenBits | drbgRandomInt | drbgSetInterval | drbgRead =>
    exact headerReject_header (by decide) rfl rfl (instLegal_drbg wf)
  case serBytes | serBits | serFloat | serInt =>
    exact headerReject_header (by decide) rfl rfl (instLegal_src (by decide) wf)

/-! ### Reading back what was written -/

theorem argFlag_header_seeded (e o inst : BitVec 4) (seed : Option Nat) :
    argFlag (header e o inst (seededArg seed)) = seed.isSome := by
  rw [argFlag, argOf_header]
  cases seed <;> simp [seededArg]

theorem argFlag_header_variant (e o inst : BitVec 4) (v : Variant) :
    argFlag (header e o inst (variantArg v)) = decide (v = .hash) := by
  rw [argFlag, argOf_header]; cases v <;> rfl

theorem countOf_toNat {α : Type} {xs : List α} (fits : countFits xs = true) :
    (countOf xs).toNat = xs.length := by
  have bound : xs.length < 2 ^ 20 := of_decide_eq_true fits
  rw [countOf, BitVec.toNat_ofNat]
  exact Nat.mod_eq_of_lt bound

theorem readWords_of_length {n : Nat} {ws : List Word} (len : ws.length = n) (rest : List Word) :
    readWords n (ws ++ rest) = some (ws, rest) := len ▸ readWords_append ws rest


/-- The operands of a well-formed instruction read back under its header, in the order of R123. -/
theorem decodeOperands_operandsOf {i : Instr} (legal : p.Legal) (wf : i.wellFormed p = true)
    (rest : List Word) :
    decodeOperands p (headerOf i) (operandsOf p i ++ rest) = some (i, rest) := by
  obtain ⟨-, -, -, -, -, ⟨width, -⟩, -⟩ := legal
  cases i <;>
    simp only [Instr.wellFormed, Bool.and_eq_true, decide_eq_true_eq, strFits, List.all_eq_true,
      Option.all_eq_true] at wf <;>
    simp only [headerOf, operandsOf, List.append_assoc, List.nil_append, List.cons_append,
      decodeOperands, engOf_header, opOf_header, argOf_header, instIndex_header, srcOf_header]
  case lcgInit => simp [read64_append, readM65_append]
  case lcgPreset preset seed =>
    have low : (preset.setWidth 20).extractLsb' 0 4 = preset := by
      ext k hk; simp [hk, show k < 20 by omega]
    simp [read64_append, low]
  case drbgRandomInt | serInt => simp [read64_append]
  case mtSeed | drbgSetInterval => simp [readW]
  case sysEcho ws => simp [readWords_of_length (countOf_toNat wf).symm]
  case mtTemper ys | mtUntemper ys | mtClone ys =>
    simp [readWords_of_length (countOf_toNat wf.2).symm]
  case mtWrite cur ws => simp [readW, readWords_of_length ws.length_toList]
  case bbsInit pp q seed =>
    obtain ⟨⟨⟨-, pFits⟩, qFits⟩, seedFits⟩ := wf
    cases seed with
    | none => simp [readBigH_append, argFlag_header_seeded, width, pFits, qFits]
    | some x =>
      simp [readBigH_append, readBigN_append, argFlag_header_seeded, width, pFits, qFits,
        seedFits x rfl]
  case drbgInstantiate v e n ps =>
    obtain ⟨⟨⟨-, eFits⟩, nFits⟩, psFits⟩ := wf
    cases v <;>
      simp [readStr_append _ _ eFits, readStr_append _ _ nFits, readStr_append _ _ psFits,
        argFlag_header_variant]
  case drbgGenerate => simp [readStr_append _ _ wf.2]
  case drbgReseed => simp [readStr_append _ _ wf.1.2, readStr_append _ _ wf.2]
  case serXor ss => simp [countOf_toNat wf.1, readStrs_append ss rest wf.2]
  all_goals rfl

/-! ### How many words an operand takes -/

/-- Where `r` answers, it answers `x` from exactly the `n` words at the front, with `P x n`. -/
def Reads {α : Type} (r : List Word → Option (α × List Word)) (P : α → Nat → Prop) : Prop :=
  ∀ ws x rest, r ws = some (x, rest) →
    ∃ front, ws = front ++ rest ∧ P x front.length ∧ ∀ more, r (front ++ more) = some (x, more)

namespace Reads

variable {α β : Type}

theorem pure {P : α → Nat → Prop} {x : α} (h : P x 0) : Reads (fun ws => some (x, ws)) P := by
  rintro ws y rest ⟨⟩
  exact ⟨[], rfl, h, fun _ => rfl⟩

theorem none {P : α → Nat → Prop} : Reads (fun _ => Option.none) P := nofun

theorem bind {r : List Word → Option (α × List Word)} {k : α → List Word → Option (β × List Word)}
    {P : α → Nat → Prop} {Q : β → Nat → Prop} (first : Reads r P)
    (next : ∀ x n, P x n → Reads (k x) fun y m => Q y (n + m)) :
    Reads (fun ws => do let (x, ws) ← r ws; k x ws) Q := by
  intro ws y rest read
  obtain ⟨⟨x, mid⟩, readFirst, readNext⟩ := Option.bind_eq_some_iff.mp read
  obtain ⟨front, rfl, hx, again⟩ := first ws x mid readFirst
  obtain ⟨front', rfl, hy, again'⟩ := next x _ hx mid y rest readNext
  refine ⟨front ++ front', by rw [List.append_assoc], by rwa [List.length_append], fun more => ?_⟩
  show (r (front ++ front' ++ more) >>= _) = _
  rw [List.append_assoc, again]
  exact again' more

theorem mono {r : List Word → Option (α × List Word)} {P Q : α → Nat → Prop} (h : Reads r P)
    (weaker : ∀ x n, P x n → Q x n) : Reads r Q := by
  intro ws x rest read
  obtain ⟨front, split, hx, again⟩ := h ws x rest read
  exact ⟨front, split, weaker _ _ hx, again⟩

theorem map {r : List Word → Option (α × List Word)} {P : α → Nat → Prop} (f : α → β)
    {Q : β → Nat → Prop} (h : Reads r P) (image : ∀ x n, P x n → Q (f x) n) :
    Reads (fun ws => (r ws).map fun a => (f a.1, a.2)) Q := by
  intro ws y rest read
  obtain ⟨⟨x, after⟩, readX, same⟩ := Option.map_eq_some_iff.mp read
  obtain ⟨rfl, rfl⟩ := Prod.mk.inj same
  obtain ⟨front, split, hx, again⟩ := h ws x after readX
  exact ⟨front, split, image _ _ hx, fun more => congrArg (Option.map _) (again more)⟩

end Reads

theorem reads_words (n : Nat) : Reads (readWords n) fun xs k => xs.length = n ∧ k = n := by
  intro ws xs rest read
  unfold readWords at read
  split at read
  · cases read
  · next enough =>
    obtain ⟨rfl, rfl⟩ := Prod.mk.inj (Option.some.inj read)
    have len : (ws.take n).length = n := by rw [List.length_take]; omega
    exact ⟨ws.take n, (List.take_append_drop n ws).symm, ⟨len, len⟩,
      fun more => readWords_of_length len more⟩

theorem reads_word : Reads readW fun _ k => k = 1 := by
  intro ws x rest read
  cases ws with
  | nil => cases read
  | cons w ws => cases read; exact ⟨[x], rfl, rfl, fun _ => rfl⟩

theorem reads_nat (k : Nat) : Reads (readNat k) fun x n => x < 2 ^ (32 * k) ∧ n = k :=
  (reads_words k).map natOfWords fun ws _ ⟨len, count⟩ => ⟨len ▸ natOfWords_lt ws, count⟩

theorem reads_64 : Reads read64 fun _ k => k = 2 :=
  (reads_nat 2).map (BitVec.ofNat 64) fun _ _ h => h.2

theorem reads_M65 : Reads readM65 fun _ k => k = 3 :=
  (reads_nat 3).map (BitVec.ofNat 96) fun _ _ h => h.2

theorem writeStr_length (b : List Byte) : (writeStr b).length = 1 + ceilDiv b.length 4 := by
  simp [writeStr, Nat.add_comm]

/-- A string operand takes as many words as it is written with, whatever its padding (R114, R116).
-/
theorem reads_str : Reads readStr fun b k => strFits b = true ∧ k = (writeStr b).length := by
  intro ws b rest read
  cases ws with
  | nil => cases read
  | cons len ws =>
    have unpacked : Reads (fun ws => (readWords (ceilDiv len.toNat 4) ws).map fun r =>
        (unpackBytes len.toNat r.1, r.2))
        fun b k => b.length = len.toNat ∧ k = ceilDiv len.toNat 4 := by
      refine (reads_words _).map _ fun ws k ⟨count, taken⟩ => ⟨?_, taken⟩
      rw [unpackBytes, List.length_take, flatMap_wordBytes_length, count, ceilDiv]
      omega
    obtain ⟨front, rfl, ⟨size, taken⟩, again⟩ := unpacked ws b rest read
    refine ⟨len :: front, rfl, ⟨decide_eq_true (size ▸ len.isLt), ?_⟩, again⟩
    rw [List.length_cons, writeStr_length, size, taken, Nat.add_comm]

theorem reads_strs (k : Nat) :
    Reads (readStrs k) fun ss n =>
      ss.length = k ∧ ss.all strFits = true ∧ n = (ss.flatMap writeStr).length := by
  induction k with
  | zero => exact .pure ⟨rfl, rfl, rfl⟩
  | succ k ih =>
    refine reads_str.bind fun b n ⟨fits, size⟩ => ih.bind fun ss m ⟨count, allFit, sizes⟩ => .pure ?_
    refine ⟨congrArg (· + 1) count, by rw [List.all_cons, fits, allFit]; rfl, ?_⟩
    rw [List.flatMap_cons, List.length_append, size, sizes, Nat.add_zero]

end Sys2Proof.Machine
end

section
/-! SUPPORT. What decodes: the instruction of a legal header is well formed, has that header, and
takes the words of its packet (30_encoding.md R112, R113, R118, R122). -/

namespace Sys2Proof.Machine

variable {p : Params} {h : Word}

/-! ### The fields of a legal header -/

/-- A header word with the fields of `h` is `h` (R111). -/
theorem header_eq_of_fields {e o inst : BitVec 4} {a : BitVec 20} (eng : (engOf h).toNat = e.toNat)
    (op : (opOf h).toNat = o.toNat) (sameInst : inst = instOf h) (sameArg : a = argOf h) :
    header e o inst a = h := by
  rw [← BitVec.eq_of_toNat_eq eng, ← BitVec.eq_of_toNat_eq op, sameInst, sameArg,
    header_of_fields]

theorem instCount_le_four (legal : p.Legal) (eng : Nat) : instCount p eng ≤ 4 := by
  obtain ⟨-, lcg, mt, bbs, drbg, -⟩ := legal
  unfold instCount
  split
  · exact lcg.2
  · exact mt.2
  · exact bbs.2
  · exact drbg.2
  · exact Nat.zero_le 4

/-- INST of an engine with instances names a present one (R122 condition 5). -/
theorem instIndex_of_instLegal (legal : p.Legal) {eng op : Nat} (engine : 1 ≤ eng ∧ eng ≤ 4)
    (inst : instLegal p eng op (instOf h)) :
    (instIndex h).val < instCount p eng ∧ instNibble (instIndex h) = instOf h := by
  have present : (instOf h).toNat < instCount p eng := by
    rwa [instLegal, if_neg (by omega), if_pos engine.2] at inst
  have value : (instIndex h).val = (instOf h).toNat :=
    Nat.mod_eq_of_lt (present.trans_le (instCount_le_four legal eng))
  exact ⟨value ▸ present, BitVec.eq_of_toNat_eq ((instNibble_toNat _).trans value)⟩

/-- SRCENG and SRCINST of a serializer command name a present source (R113, R122 condition 6). -/
theorem srcOf_of_instLegal {op : Nat} (notXor : op ≠ 4) (inst : instLegal p 5 op (instOf h)) :
    (srcOf h).wellFormed p = true ∧ srcNibble (srcOf h) = instOf h := by
  have present : (instOf h).toNat % 4 < srcInstCount p ((instOf h).toNat / 4) := by
    rwa [instLegal, if_neg (by decide), if_neg (by decide), if_neg notXor] at inst
  have value : (instIndex h).val = (instOf h).toNat % 4 := rfl
  unfold srcOf
  unfold srcInstCount at present
  have jLt := (instIndex h).isLt
  split at present
  · next e =>
    rw [e]
    refine ⟨decide_eq_true (value ▸ present), BitVec.eq_of_toNat_eq ?_⟩
    simp only [srcNibble, BitVec.toNat_ofNat]
    omega
  · next e =>
    rw [e]
    refine ⟨decide_eq_true (value ▸ present), BitVec.eq_of_toNat_eq ?_⟩
    simp only [srcNibble, BitVec.toNat_ofNat]
    omega
  · next e =>
    rw [e]
    refine ⟨decide_eq_true (value ▸ present), BitVec.eq_of_toNat_eq ?_⟩
    simp only [srcNibble, BitVec.toNat_ofNat]
    omega
  · exact absurd present (Nat.not_lt_zero _)

theorem arg_eq_zero (arg : argKeepsForm .z (argOf h) = true) : 0 = argOf h :=
  (of_decide_eq_true arg).symm

theorem preset_setWidth (arg : argKeepsForm .p (argOf h) = true) :
    ((argOf h).extractLsb' 0 4).setWidth 20 = argOf h := by
  have high : (argOf h).extractLsb' 4 16 = 0#16 := of_decide_eq_true arg
  generalize argOf h = a at high ⊢
  apply BitVec.eq_of_toNat_eq
  have := congrArg BitVec.toNat high
  have := a.isLt
  simp only [BitVec.extractLsb'_toNat, BitVec.toNat_setWidth, BitVec.toNat_ofNat,
    Nat.shiftRight_eq_div_pow] at *
  omega

theorem arg_of_flag (high : (argOf h).extractLsb' 1 19 = 0#19) :
    argOf h = if argFlag h then 1#20 else 0#20 := by
  unfold argFlag
  generalize argOf h = a at high ⊢
  apply BitVec.eq_of_toNat_eq
  have := congrArg BitVec.toNat high
  have := a.isLt
  simp only [BitVec.extractLsb'_toNat, BitVec.toNat_ofNat, Nat.shiftRight_eq_div_pow,
    BitVec.getLsbD, Nat.testBit_zero] at *
  split <;> simp at * <;> omega

/-- A list of as many items as COUNT says (R112 form C). -/
theorem countOf_of_length {α : Type} {xs : List α} (len : xs.length = (argOf h).toNat) :
    countFits xs = true ∧ countOf xs = argOf h :=
  ⟨decide_eq_true (len ▸ (argOf h).isLt), by rw [countOf, len, BitVec.ofNat_toNat]; simp⟩

/-- A factor operand fits half the width (R114, BIGH). -/
theorem reads_bigH (width : p.bbsW % 64 = 0) :
    Reads (readBigH p) fun x n => x < 2 ^ (p.bbsW / 2) ∧ n = (writeBigH p x).length := by
  have half : 32 * (p.bbsW / 64) = p.bbsW / 2 := by omega
  refine (reads_nat _).mono fun x n taken => ⟨half ▸ taken.1, ?_⟩
  rw [taken.2, writeBigH, wordsOfNat_length]

/-- A seed operand fits the width (R114, BIGN). -/
theorem reads_bigN (width : p.bbsW % 64 = 0) :
    Reads (readBigN p) fun x n => x < 2 ^ p.bbsW ∧ n = (writeBigN p x).length := by
  have whole : 32 * (p.bbsW / 32) = p.bbsW := by omega
  refine (reads_nat _).mono fun x n taken => ⟨whole ▸ taken.1, ?_⟩
  rw [taken.2, writeBigN, wordsOfNat_length]

/-- The words that `decodeOperands` takes, and what it makes of them. -/
def IsPacketOf (p : Params) (h : Word) (i : Instr) (n : Nat) : Prop :=
  i.wellFormed p = true ∧ headerOf i = h ∧ n = (operandsOf p i).length

theorem write64_length (v : Word64) : (write64 v).length = 2 := rfl

theorem writeM65_length (m : BitVec 96) : (writeM65 m).length = 3 := rfl

/-- The operands of a legal header: what is read is an instruction with that header, well formed,
from as many words as it is written with (R118). -/
theorem reads_decodeOperands (legal : p.Legal) (accepted : headerReject p h = none) :
    Reads (decodeOperands p h) (IsPacketOf p h) := by
  obtain ⟨-, f, form, arg, inst⟩ := (headerReject_eq_none_iff p h).mp accepted
  have ⟨_, _, _, _, _, ⟨width, _⟩, _⟩ := legal
  show Reads (fun ws => decodeOperands p h ws) _
  unfold formOf at form
  split at form
  all_goals cases form
  all_goals (rename_i E O; simp only [decodeOperands, E, O]; rw [E, O] at inst)
  -- SYS_NOP, SYS_INFO
  case h_1 | h_2 => exact .pure ⟨rfl, header_eq_of_fields E O inst.symm (arg_eq_zero arg), rfl⟩
  -- SYS_ECHO
  case h_3 =>
    refine (reads_words _).bind fun xs n taken => .pure ?_
    obtain ⟨fits, sameArg⟩ := countOf_of_length taken.1
    exact ⟨fits, header_eq_of_fields E O inst.symm sameArg, taken.2.trans taken.1.symm⟩
  -- SER_BYTES, SER_BITS, SER_FLOAT
  case h_26 | h_27 | h_28 =>
    obtain ⟨present, nibble⟩ := srcOf_of_instLegal (by decide) inst
    exact .pure ⟨present, header_eq_of_fields E O nibble rfl, rfl⟩
  -- SER_INT
  case h_29 =>
    obtain ⟨present, nibble⟩ := srcOf_of_instLegal (by decide) inst
    refine reads_64.bind fun a m am => reads_64.bind fun b n bn => .pure ?_
    subst am bn
    exact ⟨present, header_eq_of_fields E O nibble (arg_eq_zero arg), rfl⟩
  -- SER_XOR
  case h_30 =>
    refine (reads_strs _).bind fun ss n taken => .pure ?_
    obtain ⟨count, fit, size⟩ := taken
    obtain ⟨fits, sameArg⟩ := countOf_of_length count
    exact ⟨by simp only [Instr.wellFormed, fits, fit, Bool.and_self],
      header_eq_of_fields E O inst.symm sameArg, size⟩
  -- the engines with instances
  all_goals obtain ⟨present, nibble⟩ := instIndex_of_instLegal legal (by decide) inst
  all_goals simp only [instCount] at present
  -- LCG_NEXT, MT_EXTRACT, BBS_NEXT_BIT, DRBG_GEN_BITS
  case h_6 | h_9 | h_17 | h_22 =>
    exact .pure ⟨decide_eq_true present, header_eq_of_fields E O nibble rfl, rfl⟩
  -- LCG_READ, MT_TWIST, MT_READ, BBS_READ, DRBG_READ
  case h_7 | h_10 | h_14 | h_18 | h_25 =>
    exact .pure ⟨decide_eq_true present, header_eq_of_fields E O nibble (arg_eq_zero arg), rfl⟩
  -- MT_SEED, DRBG_SET_INTERVAL
  case h_8 | h_24 =>
    refine reads_word.bind fun x n xn => .pure ?_
    exact ⟨decide_eq_true present, header_eq_of_fields E O nibble (arg_eq_zero arg), xn⟩
  -- MT_TEMPER, MT_UNTEMPER, MT_CLONE
  case h_11 | h_12 | h_13 =>
    refine (reads_words _).bind fun xs n taken => .pure ?_
    obtain ⟨fits, sameArg⟩ := countOf_of_length taken.1
    exact ⟨Bool.and_eq_true_iff.mpr ⟨decide_eq_true present, fits⟩,
      header_eq_of_fields E O nibble sameArg, taken.2.trans taken.1.symm⟩
  -- LCG_INIT
  case h_4 =>
    refine reads_64.bind fun seed _ l1 => reads_64.bind fun a _ l2 => reads_64.bind fun c _ l3 =>
      reads_M65.bind fun m _ l4 => .pure ?_
    subst l1 l2 l3 l4
    exact ⟨decide_eq_true present, header_eq_of_fields E O nibble (arg_eq_zero arg), rfl⟩
  -- LCG_PRESET
  case h_5 =>
    refine reads_64.bind fun seed n l => .pure ?_
    exact ⟨decide_eq_true present, header_eq_of_fields E O nibble (preset_setWidth arg), l⟩
  -- MT_WRITE
  case h_15 =>
    refine reads_word.bind fun cur _ l1 => (reads_words 624).bind fun xs _ l2 =>
      Reads.pure (x := Instr.mtWrite _ cur (Vector.ofFn fun k => xs.getD k.val 0#32)) ?_
    refine ⟨decide_eq_true present, header_eq_of_fields E O nibble (arg_eq_zero arg), ?_⟩
    rw [l1, l2.2, operandsOf, List.length_cons, Vector.length_toList]
  -- BBS_INIT
  case h_16 =>
    have sameArg := arg_of_flag (of_decide_eq_true arg)
    cases flag : argFlag h with
    | false =>
      simp only [flag, Bool.false_eq_true, if_false] at sameArg ⊢
      refine (reads_bigH width).bind fun pp _ l1 => (reads_bigH width).bind fun q _ l2 =>
        Reads.pure (x := Instr.bbsInit _ pp q none) ?_
      refine ⟨?_, header_eq_of_fields E O nibble sameArg.symm, ?_⟩
      · simp [Instr.wellFormed, present, l1.1, l2.1]
      · simp [operandsOf, l1.2, l2.2]
    | true =>
      simp only [flag, if_true] at sameArg ⊢
      refine (reads_bigH width).bind fun pp _ l1 => (reads_bigH width).bind fun q _ l2 =>
        (reads_bigN width).bind fun x _ l3 => Reads.pure (x := Instr.bbsInit _ pp q (some x)) ?_
      refine ⟨?_, header_eq_of_fields E O nibble sameArg.symm, ?_⟩
      · simp [Instr.wellFormed, present, l1.1, l2.1, l3.1]
      · simp [operandsOf, l1.2, l2.2, l3.2]
  -- DRBG_INSTANTIATE
  case h_19 =>
    refine reads_str.bind fun e _ l1 => reads_str.bind fun nonce _ l2 =>
      reads_str.bind fun ps _ l3 => .pure ?_
    refine ⟨?_, header_eq_of_fields E O nibble ?_, ?_⟩
    · simp [Instr.wellFormed, present, l1.1, l2.1, l3.1]
    · rw [arg_of_flag (of_decide_eq_true arg)]
      cases argFlag h <;> rfl
    · simp [operandsOf, l1.2, l2.2, l3.2]
  -- DRBG_GENERATE
  case h_20 =>
    refine reads_str.bind fun a _ l => .pure ?_
    refine ⟨?_, header_eq_of_fields E O nibble rfl, l.2⟩
    simp [Instr.wellFormed, present, l.1]
  -- DRBG_RESEED
  case h_21 =>
    refine reads_str.bind fun e _ l1 => reads_str.bind fun a _ l2 => .pure ?_
    refine ⟨?_, header_eq_of_fields E O nibble (arg_eq_zero arg), ?_⟩
    · simp [Instr.wellFormed, present, l1.1, l2.1]
    · simp [operandsOf, l1.2, l2.2]
  -- DRBG_RANDOM_INT
  case h_23 =>
    refine reads_64.bind fun a _ l1 => reads_64.bind fun b _ l2 => .pure ?_
    subst l1 l2
    exact ⟨decide_eq_true present, header_eq_of_fields E O nibble (arg_eq_zero arg), rfl⟩

end Sys2Proof.Machine
end

section
/-! SUPPORT. Decoding a list of words (30_encoding.md R117, R118): when it answers an instruction,
when it waits for more words, and that a proper part of a packet is one of the latter. -/

namespace Sys2Proof.Machine

variable {p : Params} {h : Word} {ws rest : List Word} {i : Instr}

theorem decode_eq_ok_iff :
    decode p (h :: ws) = .ok i rest ↔
      headerReject p h = none ∧ decodeOperands p h ws = some (i, rest) := by
  cases rejects : headerReject p h with
  | some r => simp [decode, rejects]
  | none => cases reads : decodeOperands p h ws <;> simp [decode, rejects, reads, Prod.ext_iff]

theorem headerReject_ne_truncated (p : Params) (h : Word) : headerReject p h ≠ some .truncated := by
  unfold headerReject
  cases formOf (engOf h).toNat (opOf h).toNat <;> dsimp only <;> split_ifs <;> nofun

theorem decode_eq_truncated_iff :
    decode p (h :: ws) = .reject .truncated ↔
      headerReject p h = none ∧ decodeOperands p h ws = none := by
  cases rejects : headerReject p h with
  | some r =>
    have other : r ≠ .truncated := fun e => headerReject_ne_truncated p h (e ▸ rejects)
    simp [decode, rejects, other]
  | none => cases reads : decodeOperands p h ws <;> simp [decode, rejects, reads]

/-- The header of a packet that is complete or still being read is legal. -/
theorem headerReject_of_decode {r : Reject} (decoded : decode p (h :: ws) = .reject r)
    (other : r ≠ .truncated) : headerReject p h = some r := by
  cases rejects : headerReject p h with
  | some r' => simpa [decode, rejects] using decoded
  | none =>
    cases reads : decodeOperands p h ws with
    | some x => simp [decode, rejects, reads] at decoded
    | none =>
      simp only [decode, rejects, reads, Decoded.reject.injEq] at decoded
      exact absurd decoded.symm other

/-- The packet of a well-formed instruction decodes to it (R118). -/
theorem decode_encode (legal : p.Legal) (wf : i.wellFormed p = true) (rest : List Word) :
    decode p (encode p i ++ rest) = .ok i rest :=
  decode_eq_ok_iff.mpr ⟨headerReject_headerOf wf, decodeOperands_operandsOf legal wf rest⟩

/-- Everything known of a list of words that decodes. -/
theorem decoded_isPacket (legal : p.Legal) (decoded : decode p (h :: ws) = .ok i rest) :
    ∃ operands, ws = operands ++ rest ∧ IsPacketOf p h i operands.length ∧
      ∀ more, decodeOperands p h (operands ++ more) = some (i, more) := by
  obtain ⟨accepted, reads⟩ := decode_eq_ok_iff.mp decoded
  exact reads_decodeOperands legal accepted ws i rest reads

/-- A proper part of a packet, its header among the words read, is incomplete: were it complete, the
packet would decode with words left over. -/
theorem decode_proper_part (legal : p.Legal) (wf : i.wellFormed p = true) {read todo : List Word}
    (split : operandsOf p i = read ++ todo) (more : todo ≠ []) :
    decode p (headerOf i :: read) = .reject .truncated := by
  rw [decode_eq_truncated_iff]
  refine ⟨headerReject_headerOf wf, ?_⟩
  cases reads : decodeOperands p (headerOf i) read with
  | none => rfl
  | some x =>
    obtain ⟨j, left⟩ := x
    obtain ⟨front, rfl, -, again⟩ :=
      reads_decodeOperands legal (headerReject_headerOf wf) read j left reads
    have whole := decodeOperands_operandsOf legal wf []
    rw [List.append_nil, split, List.append_assoc, again] at whole
    have none_left : left ++ todo = [] := congrArg Prod.snd (Option.some.inj whole)
    exact absurd (List.append_eq_nil_iff.mp none_left).2 more

end Sys2Proof.Machine
end

section
/-! SUPPORT. The statements about the encoding (30_encoding.md R110 to R124). -/

namespace Sys2Proof.Machine

/-- Settles O39: each packet is evaluated. -/
theorem wordsDecodeAsTheTableSays : Obligations.WordsDecodeAsTheTableSays :=
  ⟨by decide, by decide, by decide, by decide, by decide, by decide, by decide, by decide,
    by decide⟩

/-- Settles O40: the header is legal, and each operand kind reads back what was written
(`decodeOperands_operandsOf`). -/
theorem decodeInvertsEncode : Obligations.DecodeInvertsEncode :=
  fun _ _ rest legal wf => decode_encode legal wf rest

/-- Settles O41: what each command reads is an instruction of that header, from as many words as it
is written with (`reads_decodeOperands`). -/
theorem decodedIsWellFormed : Obligations.DecodedIsWellFormed := by
  intro p h ws i rest legal decoded
  obtain ⟨operands, split, ⟨wf, sameHeader, count⟩, -⟩ := decoded_isPacket legal decoded
  exact ⟨wf, sameHeader, operands, split, count⟩

end Sys2Proof.Machine
end

section
/-! SUPPORT. Everything the Compute step of a command can do (60_exceptions.md R351, R356, R366):
which engine instance it writes, that it keeps legal values legal, and what it answers. -/

namespace Sys2Proof.Machine

/-! ### What is written -/

/-- From `s` to `s'` a command wrote the instance `writes` names, or none: what it wrote is legal
where the value before was. -/
structure Wrote (c : Instr) (s s' : State) : Prop where
  rest : s' = { s with lcg := s'.lcg, mt := s'.mt, bbs := s'.bbs, drbg := s'.drbg }
  lcg : ∀ i : Inst, s'.lcg[i] = s.lcg[i] ∨
    writes c = some (.lcg i) ∧ (s.lcg[i].Legal → s'.lcg[i].Legal)
  mt : ∀ i : Inst, s'.mt[i] = s.mt[i] ∨ writes c = some (.mt i) ∧ (s.mt[i].Legal → s'.mt[i].Legal)
  bbs : ∀ i : Inst, s'.bbs[i] = s.bbs[i] ∨ writes c = some (.bbs i) ∧
    (c.wellFormed s.params = true → s.bbs[i].Legal s.params.bbsW → s'.bbs[i].Legal s.params.bbsW)
  drbg : ∀ i : Inst, s'.drbg[i] = s.drbg[i] ∨
    writes c = some (.drbg i) ∧ (s.drbg[i].Legal → s'.drbg[i].Legal)

namespace Wrote

variable {c : Instr} {s s' : State} {j : Inst}

theorem refl (c : Instr) (s : State) : Wrote c s s :=
  ⟨rfl, fun _ => .inl rfl, fun _ => .inl rfl, fun _ => .inl rfl, fun _ => .inl rfl⟩

/-- A vector with entry `j` replaced: an entry is as it was, or it is the new one at `j`. -/
theorem get_set_cases {α : Type} (v : Vector α 4) (j i : Inst) (x : α) {P : Inst → α → Prop}
    (new : P j x) : (v.set j x)[i] = v[i] ∨ P i (v.set j x)[i] := by
  rw [get_set]
  split
  · next here => exact .inr (here ▸ new)
  · exact .inl rfl

theorem setLcg {x : Lcg} (target : writes c = some (.lcg j)) (legal : s.lcg[j].Legal → x.Legal) :
    Wrote c s (s.setLcg j x) :=
  ⟨rfl, fun i => get_set_cases s.lcg j i x
      (P := fun i y => writes c = some (.lcg i) ∧ (s.lcg[i].Legal → y.Legal)) ⟨target, legal⟩,
    fun _ => .inl rfl, fun _ => .inl rfl, fun _ => .inl rfl⟩

theorem setMt {x : Mt} (target : writes c = some (.mt j)) (legal : s.mt[j].Legal → x.Legal) :
    Wrote c s (s.setMt j x) :=
  ⟨rfl, fun _ => .inl rfl, fun i => get_set_cases s.mt j i x
      (P := fun i y => writes c = some (.mt i) ∧ (s.mt[i].Legal → y.Legal)) ⟨target, legal⟩,
    fun _ => .inl rfl, fun _ => .inl rfl⟩

theorem setBbs {x : Bbs} (target : writes c = some (.bbs j))
    (legal : c.wellFormed s.params = true → s.bbs[j].Legal s.params.bbsW → x.Legal s.params.bbsW) :
    Wrote c s (s.setBbs j x) :=
  ⟨rfl, fun _ => .inl rfl, fun _ => .inl rfl, fun i => get_set_cases s.bbs j i x
      (P := fun i y => writes c = some (.bbs i) ∧ (c.wellFormed s.params = true →
        s.bbs[i].Legal s.params.bbsW → y.Legal s.params.bbsW)) ⟨target, legal⟩,
    fun _ => .inl rfl⟩

theorem setDrbg {x : Drbg} (target : writes c = some (.drbg j))
    (legal : s.drbg[j].Legal → x.Legal) : Wrote c s (s.setDrbg j x) :=
  ⟨rfl, fun _ => .inl rfl, fun _ => .inl rfl, fun _ => .inl rfl,
    fun i => get_set_cases s.drbg j i x
      (P := fun i y => writes c = some (.drbg i) ∧ (s.drbg[i].Legal → y.Legal)) ⟨target, legal⟩⟩

/-- A serializer command writes the instance it draws from. -/
theorem of_srcDrew {src : Src} (target : writes c = some (targetOf src))
    (drew : SrcDrew src s s') : Wrote c s s' := by
  have drbg := drew.drbg_eq
  refine ⟨?_, fun i => ?_, fun i => ?_, fun i => ?_, fun i => .inl (by rw [drbg])⟩
  · have rest := drew.rest
    rw [rest]
  · by_cases here : src = .lcg i
    · exact .inr ⟨by rw [target, here]; rfl, (drew.lcgKeep i).2⟩
    · exact .inl (drew.lcgOther i here)
  · by_cases here : src = .mt i
    · exact .inr ⟨by rw [target, here]; rfl, (drew.mtKeep i).2⟩
    · exact .inl (drew.mtOther i here)
  · by_cases here : src = .bbs i
    · exact .inr ⟨by rw [target, here]; rfl, fun _ => (drew.bbsKeep i).2 _⟩
    · exact .inl (drew.bbsOther i here)

end Wrote

/-! ### Legal values after a command -/

theorem lcgInitial_legal (seed a c : Word64) {m : BitVec 65} (pos : 1 ≤ m.toNat)
    (bound : m.toNat ≤ 2 ^ 64) : (lcgInitial seed a c m).Legal := by
  refine fun _ => ⟨⟨pos, bound⟩, ?_⟩
  have below : seed.toNat % m.toNat < m.toNat := Nat.mod_lt _ pos
  simp only [lcgInitial, BitVec.toNat_ofNat]
  omega

theorem lcgPresetParams_bounds {preset : BitVec 4} {a c : Word64} {m : BitVec 65}
    (row : lcgPresetParams preset = some (a, c, m)) : 1 ≤ m.toNat ∧ m.toNat ≤ 2 ^ 64 := by
  unfold lcgPresetParams at row
  split at row <;> cases row <;> decide

theorem mtSeedFill_legal (seed : Word) : (mtSeedFill seed).Legal := by
  show (624#10).toNat ≤ 624
  decide

/-- Good factors within their width, and a start value below their product and coprime to it. -/
theorem bbsInitial_legal {w p q x : Nat} (good : bbsParamsOk p q = true) (pFits : p < 2 ^ (w / 2))
    (qFits : q < 2 ^ (w / 2)) (below : x < p * q) (coprime : Nat.gcd x (p * q) = 1) :
    (bbsInitial p q x).Legal w :=
  fun _ => ⟨(bbsParamsOk_iff p q).mp good, ⟨pFits, qFits⟩, rfl, below, coprime⟩

theorem factors_pos {p q : Nat} (good : bbsParamsOk p q = true) : 0 < p * q := by
  obtain ⟨pMod, qMod, -⟩ := (bbsParamsOk_iff p q).mp good
  exact Nat.mul_pos (by omega) (by omega)

theorem hmacUpdate_fill (d : Drbg) (data : List Byte) :
    ∃ v k, d.hmacUpdate data = { d with v := fill55 v, k := fill55 k } := ⟨_, _, hmacUpdate_eq d data⟩

namespace Drbg

/-- A seeded instance: CTR 1, INTERVAL kept, the tails of an HMAC instance zero (R52, R266). -/
theorem legal_of_seeded {d d' : Drbg} (legal : d.Legal) (inst : d'.inst = true)
    (ctr : d'.ctr = 1#32) (interval : d'.interval = d.interval)
    (tails : d'.variant = .hmac → ∃ v k, d'.v = fill55 v ∧ d'.k = fill55 k) : d'.Legal := by
  refine ⟨interval ▸ legal.1, by rw [ctr]; decide, fun _ => by rw [ctr]; decide,
    fun off => absurd inst (by rw [off]; decide), fun hmac j tail => ?_⟩
  obtain ⟨v, k, ev, ek⟩ := tails hmac
  rw [ev, ek]
  exact ⟨fill55_tail _ _ tail, fill55_tail _ _ tail⟩

theorem instantiate_legal {d : Drbg} (legal : d.Legal) (variant : Variant) (sm : List Byte) :
    (d.instantiate variant sm).Legal := by
  cases variant with
  | hmac =>
    obtain ⟨v, k, updated⟩ := hmacUpdate_fill { d with
      variant := .hmac, k := Vector.replicate 55 0#8, v := fill55 (Vector.replicate 32 1#8) } sm
    refine legal_of_seeded legal rfl rfl ?_ fun _ => ⟨v, k, ?_⟩
    · simp only [Drbg.instantiate, updated]
    · simp only [Drbg.instantiate, updated, and_self]
  | hash => exact legal_of_seeded legal rfl rfl rfl nofun

theorem reseed_legal {d : Drbg} (legal : d.Legal) (e a : List Byte) : (d.reseed e a).Legal := by
  unfold Drbg.reseed
  split
  · obtain ⟨v, k, updated⟩ := hmacUpdate_fill d (e ++ a)
    rw [updated]
    exact legal_of_seeded legal rfl rfl rfl fun _ => ⟨v, k, rfl, rfl⟩
  · next hash => exact legal_of_seeded legal rfl rfl rfl fun hmac => nomatch hash.symm.trans hmac

theorem setInterval_legal {d : Drbg} (legal : d.Legal) {v : Word}
    (range : 1 ≤ v.toNat ∧ v.toNat ≤ 2 ^ 31) : ({ d with interval := v } : Drbg).Legal :=
  ⟨range, legal.2⟩

end Drbg

/-! ### What is answered -/

/-- Everything the Compute step of `c` from `s` can be: OK with the data words R123 counts; a status
of its row of R351, with nothing written but for the draws R356 excepts; or the draw of a seedless
BBS_INIT begins. -/
inductive Answers (c : Instr) (s : State) : Host.Outcome State Fault Refusal → Prop
  | ok {s' : State} {data : List Word} (wrote : Wrote c s s')
      (len : data.length = okDataLength s c) : Answers c s (finish c data s')
  | fail {s' : State} {st : Status} (listed : st ∈ failures c) (wrote : Wrote c s s')
      (keeps : keepsFailedDraws c = false ∨ st = .notInstantiated ∨ st = .invalidParameter → s' = s) :
      Answers c s (raise c st s')
  | draw {i : Inst} {p q : Nat} (isInit : c = .bbsInit i p q none) (good : bbsParamsOk p q = true) :
      Answers c s (.next { s with mode := .exec, phase := .draw i p q [] })

namespace Answers

variable {c : Instr} {s : State} {o : Host.Outcome State Fault Refusal}

/-- A command refused with nothing changed. -/
theorem refuse {st : Status} (listed : (failures c).elem st = true) : Answers c s (raise c st s) :=
  .fail (List.mem_of_elem_eq_true listed) (.refl c s) fun _ => rfl

/-- A command that reads only. -/
theorem read {data : List Word} (len : data.length = okDataLength s c) :
    Answers c s (finish c data s) := .ok (.refl c s) len

/-- A check: the command is refused with nothing changed, or goes on. -/
theorem check {P : Prop} [Decidable P] {st : Status} (listed : (failures c).elem st = true)
    (passes : ¬ P → Answers c s o) : Answers c s (if P then raise c st s else o) := by
  split
  · exact refuse listed
  · next h => exact passes h

end Answers

section
variable (s : State) (j : Inst)

theorem lcgPreset_answers (preset : BitVec 4) (seed : Word64) :
    Answers (.lcgPreset j preset seed) s (execLcgPreset j preset seed s) := by
  unfold execLcgPreset
  split
  · exact .refuse rfl
  · next row =>
    obtain ⟨pos, bound⟩ := lcgPresetParams_bounds row
    exact .ok (.setLcg rfl fun _ => lcgInitial_legal _ _ _ pos bound) rfl

theorem lcgInit_answers (seed a c : Word64) (m : BitVec 96) :
    Answers (.lcgInit j seed a c m) s (execLcgInit j seed a c m s) := by
  refine .check rfl fun inRange => .ok (.setLcg rfl fun _ => ?_) rfl
  have same : (m.setWidth 65).toNat = m.toNat := by
    rw [BitVec.toNat_setWidth]
    omega
  exact lcgInitial_legal _ _ _ (by omega) (by omega)

theorem mtWrite_answers (cur : Word) (ws : Vector Word 624) :
    Answers (.mtWrite j cur ws) s (execMtWrite j cur ws s) := by
  refine .check rfl fun inRange => .ok (.setMt rfl fun _ => ?_) rfl
  show (cur.extractLsb' 0 10).toNat ≤ 624
  rw [BitVec.extractLsb'_toNat]
  omega

theorem bbsInit_answers (p q : Nat) (seed : Option Nat) :
    Answers (.bbsInit j p q seed) s (execBbsInit j p q seed s) := by
  refine .check rfl fun passes => ?_
  have good : bbsParamsOk p q = true := Bool.not_eq_false _ ▸ passes
  cases seed with
  | none => exact .draw rfl good
  | some x =>
    refine .check rfl fun coprime => .ok (.setBbs rfl fun wf _ => ?_) rfl
    simp only [Instr.wellFormed, Bool.and_eq_true, decide_eq_true_eq] at wf
    obtain ⟨⟨⟨-, pFits⟩, qFits⟩, -⟩ := wf
    refine bbsInitial_legal good pFits qFits (Nat.mod_lt _ (factors_pos good)) ?_
    rw [← Nat.gcd_rec, Nat.gcd_comm]
    exact Decidable.not_not.mp coprime

theorem drbgGenerate_answers (n : Count) (a : List Byte) :
    Answers (.drbgGenerate j n a) s (execDrbgGenerate j n a s) := by
  refine .check rfl fun inst => .check rfl fun _ => ?_
  rcases generate_cases s.params.hmacPreUpdate n.toNat a s.drbg[j] with
    ⟨-, refused⟩ | ⟨-, out, v, k, len, made⟩
  · rw [refused]
    exact .refuse rfl
  · have drew := generate_drew _ _ _ _ _ _ (Bool.not_eq_false _ ▸ inst) made
    rw [made]
    exact .ok (.setDrbg rfl drew.legal) (by rw [packBytes_length, len]; rfl)

theorem drbgGenBits_answers (n : Count) :
    Answers (.drbgGenBits j n) s (execDrbgGenBits j n s) := by
  refine .check rfl fun inst => .check rfl fun _ => ?_
  rcases bits_cases s.params.hmacPreUpdate n.toNat s.drbg[j] with
    ⟨-, refused⟩ | ⟨-, out, v, k, len, -, drawn⟩
  · rw [refused]
    exact .refuse rfl
  · have drew := bits_drew _ _ _ _ _ (Bool.not_eq_false _ ▸ inst) drawn
    have count : ((bytesBits out).take n.toNat).length = n.toNat := by
      rw [List.length_take, bytesBits_length, len, ceilDiv]
      omega
    rw [drawn]
    exact .ok (.setDrbg rfl drew.legal) (by rw [packBits_length, count]; rfl)

theorem drbgRead_answers : Answers (.drbgRead j) s (execDrbgRead j s) := by
  refine .read ?_
  unfold drbgReadWords okDataLength Drbg.vBytes Drbg.vlen
  cases kind : s.drbg[j].variant <;> simp only [Fin.getElem_fin] at kind <;> simp [ceilDiv, kind]

/-- The draws of a DRBG_RANDOM_INT, whatever it answers. -/
theorem boundedInt_drbg_drew (pre : Bool) (attempts : Nat) (a b : Word64) {d : Drbg}
    (inst : d.inst = true) : Drew d (boundedInt attempts a b (Drbg.bits pre) d).2 :=
  bounded_rel Drew (fun d => d.inst = true) Drew.refl (fun _ _ _ => Drew.trans) (Drbg.bits pre)
    (fun k d _ d' hd drawn =>
      have once := bits_drew pre k _ d d' hd drawn
      ⟨once, once.inst.trans hd⟩) attempts a b d inst

/-- The draws of a SER_INT, whatever it answers. -/
theorem boundedInt_src_drew (src : Src) (attempts : Nat) (a b : Word64) (s : State) :
    SrcDrew src s (boundedInt attempts a b (fun k t => .ok (State.srcBits t src k)) s).2 :=
  bounded_rel (SrcDrew src) (fun _ => True) (SrcDrew.refl src) (fun _ _ _ => SrcDrew.trans)
    (fun k t => .ok (State.srcBits t src k))
    (fun k t _ t' _ drawn =>
      have after : (t.srcBits src k).2 = t' := congrArg Prod.snd (Except.ok.inj drawn)
      ⟨after ▸ srcBits_drew t src k, trivial⟩) attempts a b s trivial

/-- A refused draw of bits is refused with ReseedRequired (R269). -/
theorem bits_error {pre : Bool} {k : Nat} {d : Drbg} {st : Status}
    (refused : d.bits pre k = .error st) : st = .reseedRequired := by
  rcases bits_cases pre k d with ⟨-, e⟩ | ⟨-, out, v, w, -, -, e⟩
  · exact (Except.error.inj (refused.symm.trans e))
  · exact nomatch refused.symm.trans e

theorem drbgRandomInt_answers (a b : Word64) :
    Answers (.drbgRandomInt j a b) s (execDrbgRandomInt j a b s) := by
  refine .check rfl fun inst => .check rfl fun _ => ?_
  have drew := boundedInt_drbg_drew s.params.hmacPreUpdate s.params.rangeMaxAttempts a b
    (d := s.drbg[j]) (Bool.not_eq_false _ ▸ inst)
  dsimp only
  split
  · next st failed =>
    have status := bounded_err _ _ _ _ _ st [.reseedRequired]
      (fun _ _ _ refused => List.mem_singleton.mpr (bits_error refused)) failed
    rw [List.mem_singleton] at status
    rcases status with rfl | rfl
    · exact .fail (List.mem_of_elem_eq_true rfl) (.setDrbg rfl drew.legal)
        (by rintro (h | h | h) <;> cases h)
    · exact .fail (List.mem_of_elem_eq_true rfl) (.setDrbg rfl drew.legal)
        (by rintro (h | h | h) <;> cases h)
  · exact .ok (.setDrbg rfl drew.legal) rfl

theorem serInt_answers (src : Src) (a b : Word64) :
    Answers (.serInt src a b) s (execSerInt src a b s) := by
  refine .check rfl fun _ => .check rfl fun _ => ?_
  have drew := boundedInt_src_drew src s.params.rangeMaxAttempts a b s
  dsimp only
  split
  · next st failed =>
    have status := bounded_err _ _ _ _ _ st [] (fun _ _ _ refused => by cases refused) failed
    rcases status with unlisted | rfl
    · cases unlisted
    · exact .fail (List.mem_of_elem_eq_true rfl) (.of_srcDrew rfl drew)
        (by rintro (h | h | h) <;> cases h)
  · exact .ok (.of_srcDrew rfl drew) rfl

theorem serXor_answers (ss : List (List Byte)) : Answers (.serXor ss) s (execSerXor ss s) := by
  cases ss with
  | nil => exact .refuse rfl
  | cons b rest =>
    refine .check rfl fun _ =>
      .check rfl fun same => .read ?_
    have lengths : ∀ x ∈ rest, x.length = b.length := by simpa using same
    rw [packBytes_length, xorAll_length b rest lengths]
    rfl

end

/-- The whole inversion, one line for each command of R123. -/
theorem exec_answers (c : Instr) (s : State) : Answers c s (exec c s) := by
  cases c with
  | sysNop => exact .read rfl
  | sysInfo => exact .read rfl
  | sysEcho ws => exact .read rfl
  | lcgInit j seed a c m => exact lcgInit_answers s j seed a c m
  | lcgPreset j preset seed => exact lcgPreset_answers s j preset seed
  | lcgNext j n =>
    refine .check rfl fun _ =>
      .ok (.setLcg rfl (lcgDraw lcgStep lcgStep_rel _ _).2) ?_
    rw [flatMap2_length wordsOf64 (fun _ => rfl), drawN_length, okDataLength]
  | lcgRead j => exact .read rfl
  | mtSeed j seed => exact .ok (.setMt rfl fun _ => mtSeedFill_legal seed) rfl
  | mtExtract j n =>
    exact .check rfl fun _ =>
      .ok (.setMt rfl (mtDraw mtExtract mtExtract_rel _ _).2) (drawN_length _ _ _)
  | mtTwist j =>
    exact .check rfl fun _ => .ok (.setMt rfl (mtTwist_rel _).2) rfl
  | mtTemper j ys => exact .read (List.length_map _)
  | mtUntemper j ys => exact .read (List.length_map _)
  | mtClone j os =>
    exact .check rfl fun _ => .check rfl fun _ =>
      .ok (.setMt rfl fun _ => mtCloned_legal os) rfl
  | mtRead j =>
    refine .check rfl fun _ => .read ?_
    rw [List.length_cons, Vector.length_toList, okDataLength]
  | mtWrite j cur ws => exact mtWrite_answers s j cur ws
  | bbsInit j p q seed => exact bbsInit_answers s j p q seed
  | bbsNextBit j n =>
    refine .check rfl fun _ =>
      .ok (.setBbs rfl fun _ => (bbsDraw bbsStep bbsStep_rel _ _).2 _) ?_
    rw [packBits_length, drawN_length, okDataLength]
  | bbsRead j =>
    refine .read ?_
    simp only [bbsReadWords, okDataLength, List.length_cons, List.length_append, wordsOfNat_length]
    omega
  | drbgInstantiate j variant e n ps =>
    exact .check rfl fun _ =>
      .ok (.setDrbg rfl fun legal => Drbg.instantiate_legal legal variant _) rfl
  | drbgGenerate j n a => exact drbgGenerate_answers s j n a
  | drbgReseed j e a =>
    exact .check rfl fun _ =>
      .ok (.setDrbg rfl fun legal => Drbg.reseed_legal legal e a) rfl
  | drbgGenBits j n => exact drbgGenBits_answers s j n
  | drbgRandomInt j a b => exact drbgRandomInt_answers s j a b
  | drbgSetInterval j v =>
    exact .check rfl fun inRange =>
      .ok (.setDrbg rfl fun legal => Drbg.setInterval_legal legal (by omega)) rfl
  | drbgRead j => exact drbgRead_answers s j
  | serBytes src n =>
    refine .check rfl fun _ =>
      .ok (.of_srcDrew rfl (srcBytes_drew s src _)) ?_
    rw [packBytes_length, srcBytes_length, okDataLength]
  | serBits src n =>
    refine .check rfl fun _ => .check rfl fun _ =>
      .ok (.of_srcDrew rfl (srcBits_drew s src _)) ?_
    rw [packBits_length, srcBits_length, okDataLength]
  | serFloat src n =>
    refine .check rfl fun _ =>
      .ok (.of_srcDrew rfl (srcFloats_drew s src _)) ?_
    rw [flatMap2_length wordsOf64 (fun _ => rfl), srcFloats_length, okDataLength]
  | serInt src a b => exact serInt_answers s src a b
  | serXor ss => exact serXor_answers s ss

/-- The inversion of a Compute step by its next state. -/
theorem exec_next_cases {c : Instr} {s t : State} (ran : exec c s = .next t) :
    (∃ s' data, Wrote c s s' ∧ data.length = okDataLength s c ∧
      t = s'.respond (headerOf c) .ok data) ∨
    (∃ s' st, st ∈ failures c ∧ Wrote c s s' ∧
      (keepsFailedDraws c = false ∨ st = .notInstantiated ∨ st = .invalidParameter → s' = s) ∧
      t = s'.respond (headerOf c) st []) ∨
    ∃ i p q, c = .bbsInit i p q none ∧ bbsParamsOk p q = true ∧
      t = { s with mode := .exec, phase := .draw i p q [] } := by
  have answers := exec_answers c s
  generalize exec c s = o at answers ran
  cases answers with
  | ok wrote len => cases ran; exact .inl ⟨_, _, wrote, len, rfl⟩
  | fail listed wrote keeps => cases ran; exact .inr (.inl ⟨_, _, listed, wrote, keeps, rfl⟩)
  | draw isInit good => cases ran; exact .inr (.inr ⟨_, _, _, isInit, good, rfl⟩)

end Sys2Proof.Machine
end

section
/-! SUPPORT. The statements about every command (60_exceptions.md R351, R356; 30_encoding.md R123).
-/

namespace Sys2Proof.Machine

/-- A response header and LEN fix the status and the data. -/
theorem responseWords_inj {h : Word} {st st' : Status} {data data' : List Word}
    (same : responseWords h st data = responseWords h st' data') : st = st' ∧ data = data' := by
  obtain ⟨head, tail⟩ := List.cons.inj same
  exact ⟨respHeader_inj h st st' head, (List.cons.inj tail).2⟩

/-- Settles O48: the three things a Compute step can be (`exec_answers`). -/
theorem commandsAnswerByTheTable : Obligations.CommandsAnswerByTheTable := by
  intro c s
  have answers := exec_answers c s
  generalize exec c s = o at answers
  cases answers with
  | ok wrote len => exact ⟨_, rfl, rfl, .inl ⟨_, len, rfl⟩⟩
  | fail listed wrote keeps => exact ⟨_, rfl, rfl, .inr (.inl ⟨_, listed, rfl⟩)⟩
  | draw isInit good => exact ⟨_, rfl, rfl, .inr (.inr ⟨_, _, _, isInit, rfl⟩)⟩

/-- Settles O49: a response with a status other than OK is a failure's (`exec_next_cases`), and a
failure writes nothing but for the two bounded integers. -/
theorem failedCommandsWriteNothing : Obligations.FailedCommandsWriteNothing := by
  intro c s t st data ran answered failed
  rcases exec_next_cases ran with
    ⟨s', data', wrote, len, rfl⟩ | ⟨s', st', listed, wrote, keeps, rfl⟩ | ⟨i, p, q, isInit, good, rfl⟩
  · exact absurd (responseWords_inj (Phase.response.inj answered).2).1.symm failed
  · obtain ⟨rfl, rfl⟩ := responseWords_inj (Phase.response.inj answered).2
    refine ⟨rfl, fun excepted => ?_⟩
    rw [keeps excepted]
    exact ⟨rfl, rfl, rfl, rfl⟩
  · cases answered

/-- The frame of what a command writes. -/
theorem Wrote.frame {c : Instr} {s s' : State} (wrote : Wrote c s s') (i : Inst) :
    (writes c ≠ some (.lcg i) → s'.lcg[i] = s.lcg[i]) ∧
    (writes c ≠ some (.mt i) → s'.mt[i] = s.mt[i]) ∧
    (writes c ≠ some (.bbs i) → s'.bbs[i] = s.bbs[i]) ∧
    (writes c ≠ some (.drbg i) → s'.drbg[i] = s.drbg[i]) :=
  ⟨fun other => (wrote.lcg i).resolve_right fun here => other here.1,
    fun other => (wrote.mt i).resolve_right fun here => other here.1,
    fun other => (wrote.bbs i).resolve_right fun here => other here.1,
    fun other => (wrote.drbg i).resolve_right fun here => other here.1⟩

/-- A response leaves everything but the engines it was given with, the mode and the phase. -/
theorem Wrote.frame_respond {c : Instr} {s s' : State} (wrote : Wrote c s s') (h : Word)
    (st : Status) (data : List Word) :
    let t := s'.respond h st data
    State.sameHostSide s t ∧ t.pc = s.pc ∧ t.hdr = s.hdr ∧ t.ops = s.ops := by
  rw [wrote.rest]
  exact ⟨⟨rfl, rfl, rfl, rfl, rfl, rfl, rfl, rfl, rfl, rfl⟩, rfl, rfl, rfl⟩

/-- Settles O50: what a Compute step writes (`Wrote`), in each of the three things it can be. -/
theorem commandsWriteOnlyTheirInstance : Obligations.CommandsWriteOnlyTheirInstance := by
  intro c s t ran
  rcases exec_next_cases ran with
    ⟨s', data', wrote, -, rfl⟩ | ⟨s', st', -, wrote, -, rfl⟩ | ⟨i, p, q, -, -, rfl⟩
  · obtain ⟨host, pc, hdr, ops⟩ := wrote.frame_respond (headerOf c) .ok data'
    exact ⟨host, pc, hdr, ops, wrote.frame⟩
  · obtain ⟨host, pc, hdr, ops⟩ := wrote.frame_respond (headerOf c) st' []
    exact ⟨host, pc, hdr, ops, wrote.frame⟩
  · exact ⟨⟨rfl, rfl, rfl, rfl, rfl, rfl, rfl, rfl, rfl, rfl⟩, rfl, rfl, rfl,
      fun _ => ⟨fun _ => rfl, fun _ => rfl, fun _ => rfl, fun _ => rfl⟩⟩

end Sys2Proof.Machine
end

section
/-! SUPPORT. The invariant (10_state.md R39 to R53, 60_exceptions.md R352, R357) in its four parts,
one for each group of state a step touches together, and what each operation does to them. -/

namespace Sys2Proof.Machine

/-! ### The parts of the invariant -/

/-- R41. -/
structure FifoInv (s : State) : Prop where
  cmd : s.cmd.length ≤ s.params.cmdDepth
  rsp : s.rsp.length ≤ s.params.rspDepth
  ent : s.ent.length ≤ s.params.entDepth

/-- R43 to R53. -/
structure EngineInv (s : State) : Prop where
  lcg : ∀ i : Inst, s.lcg[i].Legal
  mt : ∀ i : Inst, s.mt[i].Legal
  bbs : ∀ i : Inst, s.bbs[i].Legal s.params.bbsW
  drbg : ∀ i : Inst, s.drbg[i].Legal
  absent : ∀ i : Inst,
    (s.params.lcgNinst ≤ i.val → s.lcg[i] = Lcg.reset) ∧
    (s.params.mtNinst ≤ i.val → s.mt[i].valid = false) ∧
    (s.params.bbsNinst ≤ i.val → s.bbs[i] = Bbs.reset) ∧
    (s.params.drbgNinst ≤ i.val → s.drbg[i] = Drbg.reset)

/-- R40: what the sub-state holds. -/
structure PacketInv (s : State) : Prop where
  quiet : s.mode ≠ .exec → s.hdr = 0#32 ∧ s.ops = [] ∧ s.phase = .operands
  header : s.mode = .exec → s.phase = .operands → headerReject s.params s.hdr = none
  drawing : ∀ i p q acc, s.phase = .draw i p q acc →
    bbsParamsOk p q = true ∧ p < 2 ^ (s.params.bbsW / 2) ∧ q < 2 ^ (s.params.bbsW / 2) ∧
    i.val < s.params.bbsNinst ∧ acc.length ≤ candidateWords (p * q)
  responding : ∀ written todo, s.phase = .response written todo → todo ≠ []

/-- R37, R352, R357. -/
structure FaultInv (s : State) : Prop where
  halted : s.mode = .fault → s.fpend = false ∧ s.cmd = []
  cause : s.faultFlag = (s.err.illegal || s.err.cmdOvf)
  oneFault : (s.err.illegal && s.err.cmdOvf) = false

theorem inv_iff (s : State) :
    Inv s ↔ s.params.Legal ∧ FifoInv s ∧ EngineInv s ∧ PacketInv s ∧ FaultInv s :=
  ⟨fun h => ⟨h.params, ⟨h.cmdBound, h.rspBound, h.entBound⟩,
      ⟨h.lcg, h.mt, h.bbs, h.drbg, h.absent⟩, ⟨h.quiet, h.header, h.drawing, h.responding⟩,
      ⟨h.halted, h.cause, h.oneFault⟩⟩,
    fun ⟨legal, fifo, engine, packet, fault⟩ =>
      ⟨legal, fifo.cmd, fifo.rsp, fifo.ent, engine.lcg, engine.mt, engine.bbs, engine.drbg,
        engine.absent, packet.quiet, fault.halted, fault.cause, fault.oneFault, packet.header,
        packet.drawing, packet.responding⟩⟩

variable {s t : State}

theorem EngineInv.congr (engine : EngineInv s) (params : t.params = s.params)
    (same : State.sameEngines s t) : EngineInv t := by
  obtain ⟨lcg, mt, bbs, drbg⟩ := same
  refine ⟨fun i => ?_, fun i => ?_, fun i => ?_, fun i => ?_, fun i => ?_⟩
  · rw [lcg]; exact engine.lcg i
  · rw [mt]; exact engine.mt i
  · rw [bbs, params]; exact engine.bbs i
  · rw [drbg]; exact engine.drbg i
  · rw [lcg, mt, bbs, drbg, params]; exact engine.absent i

/-- An empty sub-state outside a packet (R40, log 8). -/
theorem PacketInv.of_empty (mode : s.mode ≠ .exec) (hdr : s.hdr = 0#32) (ops : s.ops = [])
    (phase : s.phase = .operands) : PacketInv s :=
  ⟨fun _ => ⟨hdr, ops, phase⟩, fun exec => absurd exec mode,
    fun _ _ _ _ draw => (nomatch phase.symm.trans draw),
    fun _ _ response => (nomatch phase.symm.trans response)⟩

/-- A response with words left to write. -/
theorem PacketInv.of_response {written todo : List Word} (mode : s.mode = .exec)
    (phase : s.phase = .response written todo) (left : todo ≠ []) : PacketInv s :=
  ⟨fun other => absurd mode other, fun _ operands => (nomatch phase.symm.trans operands),
    fun _ _ _ _ draw => (nomatch phase.symm.trans draw),
    fun _ _ response => (Phase.response.inj (phase.symm.trans response)).2 ▸ left⟩

/-- A packet being read, its header legal. -/
theorem PacketInv.of_operands (mode : s.mode = .exec) (phase : s.phase = .operands)
    (header : headerReject s.params s.hdr = none) : PacketInv s :=
  ⟨fun other => absurd mode other, fun _ _ => header,
    fun _ _ _ _ draw => (nomatch phase.symm.trans draw),
    fun _ _ response => (nomatch phase.symm.trans response)⟩

/-- A draw with checked factors. -/
theorem PacketInv.of_draw {i : Inst} {p q : Nat} {acc : List Word} (mode : s.mode = .exec)
    (phase : s.phase = .draw i p q acc)
    (checked : bbsParamsOk p q = true ∧ p < 2 ^ (s.params.bbsW / 2) ∧ q < 2 ^ (s.params.bbsW / 2) ∧
      i.val < s.params.bbsNinst ∧ acc.length ≤ candidateWords (p * q)) : PacketInv s :=
  ⟨fun other => absurd mode other, fun _ operands => (nomatch phase.symm.trans operands),
    fun _ _ _ _ draw => by
      obtain ⟨rfl, rfl, rfl, rfl⟩ := Phase.draw.inj (phase.symm.trans draw)
      exact checked,
    fun _ _ response => (nomatch phase.symm.trans response)⟩

/-- What a fault is recorded by, in a mode other than FAULT. -/
theorem FaultInv.of_running (mode : t.mode ≠ .fault) (pending : t.fpend = s.faultFlag)
    (err : t.err.illegal = s.err.illegal ∧ t.err.cmdOvf = s.err.cmdOvf) (fault : FaultInv s) :
    FaultInv t := by
  refine ⟨fun halted => absurd halted mode, ?_, ?_⟩
  · rw [err.1, err.2, ← fault.cause, ← pending]
    simp [State.faultFlag, mode]
  · rw [err.1, err.2, fault.oneFault]

theorem faultFlag_of_running (mode : s.mode ≠ .fault) : s.faultFlag = s.fpend := by
  simp [State.faultFlag, mode]

/-- With no fault in force ERR names none. -/
theorem FaultInv.no_cause (fault : FaultInv s) (none : s.faultFlag = false) :
    s.err.illegal = false ∧ s.err.cmdOvf = false := by
  have cause := fault.cause
  rw [none] at cause
  exact Bool.or_eq_false_iff.mp cause.symm

/-- The first fault is recorded alone (R352, R357). -/
theorem FaultInv.of_raised {c : FaultCause} (fault : FaultInv s) (none : s.faultFlag = false)
    (mode : t.mode ≠ .fault) (pending : t.fpend = true) (err : t.err = s.err.record c) :
    FaultInv t := by
  obtain ⟨notIllegal, notOvf⟩ := fault.no_cause none
  have flag : t.faultFlag = true := (faultFlag_of_running mode).trans pending
  refine ⟨fun halted => absurd halted mode, ?_, ?_⟩
  · rw [err, flag]; cases c <;> simp [Err.record]
  · rw [err]; cases c <;> simp [Err.record, notIllegal, notOvf]

/-- FAULT entered with a fault pending (R352). -/
theorem FaultInv.enterFault (fault : FaultInv s) (pending : s.fpend = true) :
    FaultInv s.enterFault := by
  have flag : s.faultFlag = true := by simp [State.faultFlag, pending]
  exact ⟨fun _ => ⟨rfl, rfl⟩, flag.symm.trans fault.cause, fault.oneFault⟩

/-! ### Reset -/

theorem lcgReset_legal : Lcg.reset.Legal := nofun

theorem bbsReset_legal (w : Nat) : Bbs.reset.Legal w := nofun

theorem mtReset_legal (w : Vector Word 624) : (Mt.reset w).Legal := by
  show (624#10).toNat ≤ 624
  decide

theorem drbgReset_legal : Drbg.reset.Legal :=
  ⟨by decide, by decide, nofun, fun _ => rfl, fun _ j _ => by simp [Drbg.reset]⟩

theorem resetOf_mt (p : Params) (i : Inst) : (State.resetOf p).mt[i] = Mt.reset p.mtRamInit[i] := by
  simp [State.resetOf]

theorem resetOf_inv {p : Params} (legal : p.Legal) : Inv (State.resetOf p) := by
  refine (inv_iff _).mpr ⟨legal, ⟨Nat.zero_le _, Nat.zero_le _, Nat.zero_le _⟩, ?_,
    .of_empty nofun rfl rfl rfl, ⟨nofun, rfl, rfl⟩⟩
  have lcg (i : Inst) : (State.resetOf p).lcg[i] = Lcg.reset := by simp [State.resetOf]
  have bbs (i : Inst) : (State.resetOf p).bbs[i] = Bbs.reset := by simp [State.resetOf]
  have drbg (i : Inst) : (State.resetOf p).drbg[i] = Drbg.reset := by simp [State.resetOf]
  refine ⟨fun i => ?_, fun i => ?_, fun i => ?_, fun i => ?_, fun i => ?_⟩
  · rw [lcg]; exact lcgReset_legal
  · rw [resetOf_mt]; exact mtReset_legal _
  · rw [bbs]; exact bbsReset_legal _
  · rw [drbg]; exact drbgReset_legal
  · rw [lcg, bbs, drbg, resetOf_mt]; exact ⟨fun _ => rfl, fun _ => rfl, fun _ => rfl, fun _ => rfl⟩

/-- The ports and IE stand in no clause of the invariant. -/
theorem Inv.ports (inv : Inv s) (bus : List BusEvent) (busOut : List BusReply) (ie : Bool) :
    Inv { s with bus := bus, busOut := busOut, ie := ie } := by
  obtain ⟨legal, fifo, engine, packet, fault⟩ := (inv_iff s).mp inv
  exact (inv_iff _).mpr ⟨legal, ⟨fifo.cmd, fifo.rsp, fifo.ent⟩,
    engine.congr rfl ⟨rfl, rfl, rfl, rfl⟩,
    ⟨packet.quiet, packet.header, packet.drawing, packet.responding⟩,
    ⟨fault.halted, fault.cause, fault.oneFault⟩⟩

theorem hardReset_inv (inv : Inv s) : Inv s.hardReset :=
  (resetOf_inv inv.params).ports s.bus s.busOut false

theorem softReset_inv (inv : Inv s) (v : Word) : Inv (s.softReset v) := by
  obtain ⟨legal, fifo, engine, packet, fault⟩ := (inv_iff _).mp (hardReset_inv inv)
  have mt (i : Inst) : (s.softReset v).mt[i] = Mt.reset s.mt[i].w := by simp
  refine (inv_iff _).mpr ⟨legal, ⟨fifo.cmd, fifo.rsp, fifo.ent⟩, ?_,
    ⟨packet.quiet, packet.header, packet.drawing, packet.responding⟩,
    ⟨fault.halted, fault.cause, fault.oneFault⟩⟩
  refine ⟨engine.lcg, fun i => ?_, engine.bbs, engine.drbg, fun i => ?_⟩
  · rw [mt]; exact mtReset_legal _
  · obtain ⟨lcg, -, bbs, drbg⟩ := engine.absent i
    exact ⟨lcg, fun _ => by rw [mt]; rfl, bbs, drbg⟩

/-! ### The host's accesses -/

theorem readReg_inv (inv : Inv s) (off : Nat) : Inv (s.readReg off).2 := by
  obtain ⟨legal, fifo, engine, packet, fault⟩ := (inv_iff s).mp inv
  obtain ⟨keeps, shorter⟩ := read_keeps s off
  rw [keeps]
  exact (inv_iff _).mpr ⟨legal, ⟨fifo.cmd, shorter.trans fifo.rsp, fifo.ent⟩,
    engine.congr rfl ⟨rfl, rfl, rfl, rfl⟩,
    ⟨packet.quiet, packet.header, packet.drawing, packet.responding⟩,
    ⟨fault.halted, fault.cause, fault.oneFault⟩⟩

theorem writeCmd_inv (inv : Inv s) (v : Word) : Inv (s.writeCmd v) := by
  obtain ⟨legal, fifo, engine, packet, fault⟩ := (inv_iff s).mp inv
  by_cases discarded : s.mode = .fault ∨ s.fpend = true
  · rw [writeCmd_of_fault v discarded]; exact inv
  have none : s.faultFlag = false := Bool.not_eq_true _ ▸ mt faultFlag_iff.mp discarded
  have running : s.mode ≠ .fault := fun halted => discarded (.inl halted)
  by_cases full : s.params.cmdDepth ≤ s.cmd.length
  · rw [writeCmd_of_full v discarded full]
    exact (inv_iff _).mpr ⟨legal, ⟨fifo.cmd, fifo.rsp, fifo.ent⟩,
      engine.congr rfl ⟨rfl, rfl, rfl, rfl⟩,
      ⟨packet.quiet, packet.header, packet.drawing, packet.responding⟩,
      fault.of_raised (c := .cmdOvf) none running rfl rfl⟩
  · have room : s.cmd.length < s.params.cmdDepth := Nat.lt_of_not_le full
    rw [writeCmd_of_room v discarded room]
    exact (inv_iff _).mpr ⟨legal, ⟨by simpa using room, fifo.rsp, fifo.ent⟩,
      engine.congr rfl ⟨rfl, rfl, rfl, rfl⟩,
      ⟨packet.quiet, packet.header, packet.drawing, packet.responding⟩,
      .of_running running (faultFlag_of_running running).symm ⟨rfl, rfl⟩ fault⟩

theorem writeEnt_inv (inv : Inv s) (v : Word) : Inv (s.writeEnt v) := by
  obtain ⟨legal, fifo, engine, packet, fault⟩ := (inv_iff s).mp inv
  by_cases full : s.params.entDepth ≤ s.ent.length
  · rw [writeEnt_of_full v full]
    exact (inv_iff _).mpr ⟨legal, ⟨fifo.cmd, fifo.rsp, fifo.ent⟩,
      engine.congr rfl ⟨rfl, rfl, rfl, rfl⟩,
      ⟨packet.quiet, packet.header, packet.drawing, packet.responding⟩,
      ⟨fault.halted, fault.cause, fault.oneFault⟩⟩
  · have room : s.ent.length < s.params.entDepth := Nat.lt_of_not_le full
    rw [writeEnt_of_room v room]
    exact (inv_iff _).mpr ⟨legal, ⟨fifo.cmd, fifo.rsp, by simpa using room⟩,
      engine.congr rfl ⟨rfl, rfl, rfl, rfl⟩,
      ⟨packet.quiet, packet.header, packet.drawing, packet.responding⟩,
      ⟨fault.halted, fault.cause, fault.oneFault⟩⟩

theorem writeErr_inv (inv : Inv s) (v : Word) : Inv (s.writeErr v) := by
  obtain ⟨legal, fifo, engine, packet, fault⟩ := (inv_iff s).mp inv
  exact (inv_iff _).mpr ⟨legal, ⟨fifo.cmd, fifo.rsp, fifo.ent⟩,
    engine.congr rfl ⟨rfl, rfl, rfl, rfl⟩,
    ⟨packet.quiet, packet.header, packet.drawing, packet.responding⟩,
    ⟨fault.halted, fault.cause, fault.oneFault⟩⟩

theorem writeReg_inv (inv : Inv s) (off : Nat) (v : Word) : Inv (s.writeReg off v) := by
  rcases write_cases s off v with
    ⟨-, -, e⟩ | ⟨-, -, e⟩ | ⟨-, e⟩ | e | e | e <;> rw [e]
  · exact softReset_inv inv v
  · exact inv.ports s.bus s.busOut _
  · exact writeCmd_inv inv v
  · exact writeEnt_inv inv v
  · exact writeErr_inv inv v
  · exact inv

theorem busAccess_inv (inv : Inv s) {a : Access} (done : busAccess a s = .next t) : Inv t := by
  rcases bus_cases a s t done with ⟨x, rfl⟩ | ⟨off, rfl⟩ | ⟨off, v, rfl, -⟩
  · exact inv.ports s.bus _ s.ie
  · exact (readReg_inv inv off).ports _ _ _
  · exact (writeReg_inv inv off v).ports _ _ _

/-! ### The engines -/

/-- An instance that exists, given legal values. -/
theorem EngineInv.setBbs (engine : EngineInv s) {i : Inst} (present : i.val < s.params.bbsNinst)
    {x : Bbs} (legal : x.Legal s.params.bbsW) : EngineInv (s.setBbs i x) := by
  refine ⟨engine.lcg, engine.mt, fun k => ?_, engine.drbg, fun k => ?_⟩
  · rw [State.setBbs_bbs, get_set]
    split
    · exact legal
    · exact engine.bbs k
  · obtain ⟨lcg, mt, bbs, drbg⟩ := engine.absent k
    refine ⟨lcg, mt, fun above => ?_, drbg⟩
    have other : i ≠ k := fun same => absurd present (Nat.not_lt_of_le (same ▸ above))
    rw [State.setBbs_bbs, get_set, if_neg other]
    exact bbs above

/-- The engine instance exists (R10, R122). -/
def Target.Present (p : Params) : Target → Prop
  | .lcg i => i.val < p.lcgNinst
  | .mt i => i.val < p.mtNinst
  | .bbs i => i.val < p.bbsNinst
  | .drbg i => i.val < p.drbgNinst

theorem targetOf_present {p : Params} {src : Src} (wf : src.wellFormed p = true) :
    (targetOf src).Present p := by
  cases src with
  | lcg j => exact (of_decide_eq_true wf : j.val < p.lcgNinst)
  | mt j => exact (of_decide_eq_true wf : j.val < p.mtNinst)
  | bbs j => exact (of_decide_eq_true wf : j.val < p.bbsNinst)

/-- A well-formed command writes an instance that exists. -/
theorem writes_present {p : Params} {c : Instr} {x : Target} (wf : c.wellFormed p = true)
    (target : writes c = some x) : x.Present p := by
  cases c <;> simp only [Instr.wellFormed, Bool.and_eq_true, decide_eq_true_eq] at wf
  case bbsInit i pp q seed =>
    obtain ⟨-, rfl⟩ : seed.isSome = true ∧ .bbs i = x := by simpa [writes] using target
    obtain ⟨⟨⟨present, -⟩, -⟩, -⟩ := wf
    exact present
  all_goals cases target
  case serBytes | serBits | serFloat | serInt => exact targetOf_present wf
  case drbgInstantiate =>
    obtain ⟨⟨⟨present, -⟩, -⟩, -⟩ := wf
    exact present
  case drbgReseed => exact wf.1.1
  case mtClone | drbgGenerate => exact wf.1
  all_goals exact wf

/-- What a well-formed command writes is legal, and no absent instance (R43 to R53). -/
theorem EngineInv.of_wrote {c : Instr} (engine : EngineInv s) (wrote : Wrote c s t)
    (wf : c.wellFormed s.params = true) : EngineInv t := by
  have params : t.params = s.params := (congrArg State.params wrote.rest :)
  refine ⟨fun i => ?_, fun i => ?_, fun i => ?_, fun i => ?_, fun i => ?_⟩
  · rcases wrote.lcg i with same | ⟨-, legal⟩
    · exact same ▸ engine.lcg i
    · exact legal (engine.lcg i)
  · rcases wrote.mt i with same | ⟨-, legal⟩
    · exact same ▸ engine.mt i
    · exact legal (engine.mt i)
  · rw [params]
    rcases wrote.bbs i with same | ⟨-, legal⟩
    · exact same ▸ engine.bbs i
    · exact legal wf (engine.bbs i)
  · rcases wrote.drbg i with same | ⟨-, legal⟩
    · exact same ▸ engine.drbg i
    · exact legal (engine.drbg i)
  · obtain ⟨lcg, mt, bbs, drbg⟩ := engine.absent i
    obtain ⟨lcgFrame, mtFrame, bbsFrame, drbgFrame⟩ := wrote.frame i
    have target {x : Target} (absent : ¬ x.Present s.params) : writes c ≠ some x :=
      fun here => absent (writes_present wf here)
    rw [params]
    exact ⟨fun above => (lcgFrame (target (Nat.not_lt_of_le above))).trans (lcg above),
      fun above => (congrArg Mt.valid (mtFrame (target (Nat.not_lt_of_le above)))).trans (mt above),
      fun above => (bbsFrame (target (Nat.not_lt_of_le above))).trans (bbs above),
      fun above => (drbgFrame (target (Nat.not_lt_of_le above))).trans (drbg above)⟩

/-! ### The processor's steps -/

/-- The end of a packet in EXEC: FAULT with a fault pending, else IDLE. -/
theorem endPacket_inv (legal : s.params.Legal) (fifo : FifoInv s) (engine : EngineInv s)
    (fault : FaultInv s) (running : s.mode ≠ .fault) : Inv s.endPacket := by
  unfold State.endPacket
  split
  · next pending =>
    exact (inv_iff _).mpr ⟨legal, ⟨Nat.zero_le _, fifo.rsp, fifo.ent⟩,
      engine.congr rfl ⟨rfl, rfl, rfl, rfl⟩, .of_empty nofun rfl rfl rfl,
      fault.enterFault pending⟩
  · exact (inv_iff _).mpr ⟨legal, ⟨fifo.cmd, fifo.rsp, fifo.ent⟩,
      engine.congr rfl ⟨rfl, rfl, rfl, rfl⟩, .of_empty nofun rfl rfl rfl,
      .of_running nofun (faultFlag_of_running running).symm ⟨rfl, rfl⟩ fault⟩

theorem readHeader_inv (inv : Inv s) (idle : s.mode = .idle) : Inv s.readHeader := by
  obtain ⟨legal, fifo, engine, packet, fault⟩ := (inv_iff s).mp inv
  have running : s.mode ≠ .fault := by rw [idle]; nofun
  unfold State.readHeader
  split
  · next pending =>
    exact (inv_iff _).mpr ⟨legal, ⟨Nat.zero_le _, fifo.rsp, fifo.ent⟩,
      engine.congr rfl ⟨rfl, rfl, rfl, rfl⟩, .of_empty nofun rfl rfl rfl,
      fault.enterFault pending⟩
  · next pending =>
    have none : s.faultFlag = false := by
      rw [faultFlag_of_running running]; exact Bool.not_eq_true _ ▸ pending
    split
    · exact inv
    · next h rest queue =>
      have shorter : rest.length ≤ s.params.cmdDepth := by
        have bound := fifo.cmd
        rw [queue] at bound
        exact (Nat.le_succ _).trans bound
      unfold State.openPacket
      split
      · exact (inv_iff _).mpr ⟨legal, ⟨shorter, fifo.rsp, fifo.ent⟩,
          engine.congr rfl ⟨rfl, rfl, rfl, rfl⟩, .of_response rfl rfl (List.cons_ne_nil _ _),
          fault.of_raised (c := .illegal) none nofun rfl rfl⟩
      · next accepted =>
        exact (inv_iff _).mpr ⟨legal, ⟨shorter, fifo.rsp, fifo.ent⟩,
          engine.congr rfl ⟨rfl, rfl, rfl, rfl⟩, .of_operands rfl rfl accepted,
          .of_running nofun (faultFlag_of_running running).symm ⟨rfl, rfl⟩ fault⟩

section
variable (inv : Inv s) (mode : s.mode = .exec)
include inv mode

theorem readOperand_inv (phase : s.phase = .operands) : Inv s.readOperand := by
  obtain ⟨legal, fifo, engine, packet, fault⟩ := (inv_iff s).mp inv
  have running : s.mode ≠ .fault := by rw [mode]; nofun
  unfold State.readOperand
  split
  · exact inv
  · next w rest queue =>
    have shorter : rest.length ≤ s.params.cmdDepth := by
      have bound := fifo.cmd
      rw [queue] at bound
      exact (Nat.le_succ _).trans bound
    exact (inv_iff _).mpr ⟨legal, ⟨shorter, fifo.rsp, fifo.ent⟩,
      engine.congr rfl ⟨rfl, rfl, rfl, rfl⟩, .of_operands mode phase (packet.header mode phase),
      .of_running running (faultFlag_of_running running).symm ⟨rfl, rfl⟩ fault⟩

theorem writeResponse_inv {written todo : List Word} (phase : s.phase = .response written todo) :
    Inv (s.writeResponse written todo) := by
  obtain ⟨legal, fifo, engine, packet, fault⟩ := (inv_iff s).mp inv
  have running : s.mode ≠ .fault := by rw [mode]; nofun
  unfold State.writeResponse
  split
  · exact endPacket_inv legal fifo engine fault running
  · next w rest =>
    split
    · exact inv
    · next room =>
      have longer : (s.rsp ++ [w]).length ≤ s.params.rspDepth := by
        simpa [State.rspFull] using room
      split
      · exact endPacket_inv legal ⟨fifo.cmd, longer, fifo.ent⟩
          (engine.congr rfl ⟨rfl, rfl, rfl, rfl⟩) ⟨fault.halted, fault.cause, fault.oneFault⟩
          running
      · exact (inv_iff _).mpr ⟨legal, ⟨fifo.cmd, longer, fifo.ent⟩,
          engine.congr rfl ⟨rfl, rfl, rfl, rfl⟩, .of_response mode rfl (List.cons_ne_nil _ _),
          ⟨fault.halted, fault.cause, fault.oneFault⟩⟩

theorem drawStep_inv {i : Inst} {p q : Nat} {acc : List Word} (phase : s.phase = .draw i p q acc) :
    Inv (s.drawStep i p q acc) := by
  obtain ⟨legal, fifo, engine, packet, fault⟩ := (inv_iff s).mp inv
  have running : s.mode ≠ .fault := by rw [mode]; nofun
  obtain ⟨good, pFits, qFits, present, -⟩ := packet.drawing i p q acc phase
  unfold State.drawStep
  split
  · next lacking =>
    split
    · exact inv
    · next w rest queue =>
      have shorter : rest.length ≤ s.params.entDepth := by
        have bound := fifo.ent
        rw [queue] at bound
        exact (Nat.le_succ _).trans bound
      exact (inv_iff _).mpr ⟨legal, ⟨fifo.cmd, fifo.rsp, shorter⟩,
        engine.congr rfl ⟨rfl, rfl, rfl, rfl⟩,
        .of_draw mode rfl ⟨good, pFits, qFits, present, by simpa using lacking⟩,
        ⟨fault.halted, fault.cause, fault.oneFault⟩⟩
  · unfold State.bbsTryCandidate
    split
    · next accepted =>
      simp only [bbsAccepts, Bool.and_eq_true, decide_eq_true_eq] at accepted
      obtain ⟨⟨-, top⟩, coprime⟩ := accepted
      have below : bbsCandidate (p * q) acc < p * q := by
        have pos := factors_pos good
        omega
      have written := engine.setBbs present (bbsInitial_legal good pFits qFits below coprime)
      exact (inv_iff _).mpr ⟨legal, ⟨fifo.cmd, fifo.rsp, fifo.ent⟩,
        written.congr rfl ⟨rfl, rfl, rfl, rfl⟩, .of_response rfl rfl (List.cons_ne_nil _ _),
        .of_running nofun (faultFlag_of_running running).symm ⟨rfl, rfl⟩ fault⟩
    · exact (inv_iff _).mpr ⟨legal, ⟨fifo.cmd, fifo.rsp, fifo.ent⟩,
        engine.congr rfl ⟨rfl, rfl, rfl, rfl⟩,
        .of_draw rfl rfl ⟨good, pFits, qFits, present, Nat.zero_le _⟩,
        .of_running nofun (faultFlag_of_running running).symm ⟨rfl, rfl⟩ fault⟩

/-- The Compute step of a well-formed command. -/
theorem exec_inv {c : Instr} (wf : c.wellFormed s.params = true) (ran : exec c s = .next t) :
    Inv t := by
  obtain ⟨legal, fifo, engine, packet, fault⟩ := (inv_iff s).mp inv
  have running : s.mode ≠ .fault := by rw [mode]; nofun
  have answered {s' : State} (wrote : Wrote c s s') (st : Status) (data : List Word) :
      Inv (s'.respond (headerOf c) st data) := by
    have after := engine.of_wrote wrote wf
    have rest := wrote.rest
    generalize s'.lcg = lcg, s'.mt = mt, s'.bbs = bbs, s'.drbg = drbg at rest
    subst rest
    exact (inv_iff _).mpr ⟨legal, ⟨fifo.cmd, fifo.rsp, fifo.ent⟩,
      after.congr rfl ⟨rfl, rfl, rfl, rfl⟩, .of_response rfl rfl (List.cons_ne_nil _ _),
      .of_running nofun (faultFlag_of_running running).symm ⟨rfl, rfl⟩ fault⟩
  rcases exec_next_cases ran with
    ⟨s', data, wrote, -, rfl⟩ | ⟨s', st, -, wrote, -, rfl⟩ | ⟨i, p, q, rfl, good, rfl⟩
  · exact answered wrote .ok data
  · exact answered wrote st []
  · simp only [Instr.wellFormed, Bool.and_eq_true, decide_eq_true_eq] at wf
    obtain ⟨⟨⟨present, pFits⟩, qFits⟩, -⟩ := wf
    exact (inv_iff _).mpr ⟨legal, ⟨fifo.cmd, fifo.rsp, fifo.ent⟩,
      engine.congr rfl ⟨rfl, rfl, rfl, rfl⟩,
      .of_draw rfl rfl ⟨good, pFits, qFits, present, Nat.zero_le _⟩,
      .of_running nofun (faultFlag_of_running running).symm ⟨rfl, rfl⟩ fault⟩

end

/-- Every step of the processor: a packet that is complete decodes to a well-formed command. -/
theorem procCase_inv (inv : Inv s) (ran : ProcCase s t) : Inv t := by
  cases ran with
  | fault mode same => rw [same]; exact inv
  | idle mode same => rw [same]; exact readHeader_inv inv mode
  | run c rest mode phase decoded ran =>
    obtain ⟨_, -, ⟨wf, -⟩, -⟩ := decoded_isPacket inv.params decoded
    exact exec_inv inv mode wf ran
  | opnd mode phase same => rw [same]; exact readOperand_inv inv mode phase
  | rej r mode phase decoded other same =>
    have rejected := headerReject_of_decode decoded other
    exact nomatch (inv.header mode phase).symm.trans rejected
  | draw i p q acc mode phase same => rw [same]; exact drawStep_inv inv mode phase
  | resp written todo mode phase same => rw [same]; exact writeResponse_inv inv mode phase

end Sys2Proof.Machine
end

section
/-! SUPPORT. The statements about the invariant. -/

namespace Sys2Proof.Machine

/-- Settles O58: the reset state of any legal parameters meets it (`resetOf_inv`). -/
theorem resetMeetsInvariant : Obligations.ResetMeetsInvariant := resetOf_inv (by decide)

/-- Settles O59: each kind of step keeps the four parts of the invariant. -/
theorem stepKeepsInvariant : Obligations.StepKeepsInvariant := by
  intro s t inv stepped
  have atRest (rest : List BusEvent) : Inv { s with bus := rest } := inv.ports rest s.busOut s.ie
  rcases step_cases s t stepped with
    ⟨rest, -, ran⟩ | ⟨a, rest, -, done⟩ | ⟨rest, -, rfl⟩
  · exact procCase_inv (atRest rest) ran
  · exact busAccess_inv (atRest rest) done
  · exact hardReset_inv (atRest rest)

end Sys2Proof.Machine
end

section
/-! SUPPORT. Why the words of a bank that is not valid cannot be seen (10_state.md R46, R47): every
operation of a step takes two states that differ only in them to two such states. -/

namespace Sys2Proof.Machine

/-! ### States that differ in unseen words -/

/-- Banks that agree but for the words of those that are not valid. -/
def SameSeen (v m : Vector Mt 4) : Prop :=
  ∀ i : Inst, m[i].valid = v[i].valid ∧ m[i].cur = v[i].cur ∧ (v[i].valid = true → m[i].w = v[i].w)

/-- A valid bank is seen whole. -/
theorem SameSeen.get {v m : Vector Mt 4} (seen : SameSeen v m) {i : Inst}
    (valid : v[i].valid = true) : m[i] = v[i] := by
  obtain ⟨sameValid, sameCur, sameWords⟩ := seen i
  have words := sameWords valid
  cases x : m[i]
  cases y : v[i]
  simp_all

theorem SameSeen.set {v m : Vector Mt 4} (seen : SameSeen v m) (j : Inst) (x : Mt) :
    SameSeen (v.set j x) (m.set j x) := by
  intro i
  rw [get_set, get_set]
  split
  · exact ⟨rfl, rfl, fun _ => rfl⟩
  · exact seen i

/-- `s` with other banks, and other words for a hard reset to load. -/
def State.withUnseen (s : State) (m : Vector Mt 4) (r : Vector (Vector Word 624) 4) : State :=
  { s with mt := m, params := { s.params with mtRamInit := r } }

section
variable (s : State) (m : Vector Mt 4) (r : Vector (Vector Word 624) 4)

@[simp] theorem State.withUnseen_params :
    (s.withUnseen m r).params = { s.params with mtRamInit := r } := rfl
@[simp] theorem State.withUnseen_mode : (s.withUnseen m r).mode = s.mode := rfl
@[simp] theorem State.withUnseen_hdr : (s.withUnseen m r).hdr = s.hdr := rfl
@[simp] theorem State.withUnseen_ops : (s.withUnseen m r).ops = s.ops := rfl
@[simp] theorem State.withUnseen_phase : (s.withUnseen m r).phase = s.phase := rfl
@[simp] theorem State.withUnseen_fpend : (s.withUnseen m r).fpend = s.fpend := rfl
@[simp] theorem State.withUnseen_cmd : (s.withUnseen m r).cmd = s.cmd := rfl
@[simp] theorem State.withUnseen_rsp : (s.withUnseen m r).rsp = s.rsp := rfl
@[simp] theorem State.withUnseen_ent : (s.withUnseen m r).ent = s.ent := rfl
@[simp] theorem State.withUnseen_mt : (s.withUnseen m r).mt = m := rfl
@[simp] theorem State.withUnseen_drbg : (s.withUnseen m r).drbg = s.drbg := rfl
@[simp] theorem State.withUnseen_bus : (s.withUnseen m r).bus = s.bus := rfl

theorem State.blockBase_withUnseen :
    (s.withUnseen m r).params.blockBase = s.params.blockBase := rfl

end

theorem sameButUnseenWords_iff {s t : State} :
    s.sameButUnseenWords t ↔ ∃ m r, t = s.withUnseen m r ∧ SameSeen s.mt m :=
  ⟨fun ⟨rest, seen⟩ => ⟨t.mt, t.params.mtRamInit, rest, seen⟩,
    fun ⟨_, _, same, seen⟩ => same ▸ ⟨rfl, seen⟩⟩

/-- Where the first goes on, so does the second, to a state that differs in unseen words at most. -/
def Alike (o o' : Host.Outcome State Fault Refusal) : Prop :=
  ∀ s', o = .next s' → ∃ t', o' = .next t' ∧ s'.sameButUnseenWords t'

namespace Alike

variable {s t : State} {o₁ o₂ o₁' o₂' : Host.Outcome State Fault Refusal}

theorem next (same : s.sameButUnseenWords t) : Alike (.next s) (.next t) := by
  rintro s' ⟨⟩
  exact ⟨t, rfl, same⟩

theorem respond (same : s.sameButUnseenWords t) (h : Word) (st : Status) (data : List Word) :
    (s.respond h st data).sameButUnseenWords (t.respond h st data) := by
  obtain ⟨m, r, rfl, seen⟩ := sameButUnseenWords_iff.mp same
  exact ⟨rfl, seen⟩

theorem finish (c : Instr) (data : List Word) (same : s.sameButUnseenWords t) :
    Alike (finish c data s) (finish c data t) := next (respond same _ _ _)

theorem raise (c : Instr) (st : Status) (same : s.sameButUnseenWords t) :
    Alike (raise c st s) (raise c st t) := next (respond same _ _ _)

theorem ite {P : Prop} [Decidable P] (yes : P → Alike o₁ o₁') (no : ¬ P → Alike o₂ o₂') :
    Alike (if P then o₁ else o₂) (if P then o₁' else o₂') := by
  split
  · next h => exact yes h
  · next h => exact no h

end Alike

/-! ### The draws of the serializer -/

section
variable {s t : State} (same : s.sameButUnseenWords t) (src : Src)
include same

theorem srcValid_same : t.srcValid src = s.srcValid src := by
  obtain ⟨m, r, rfl, seen⟩ := sameButUnseenWords_iff.mp same
  cases src with
  | lcg j => rfl
  | mt j => exact (seen j).1
  | bbs j => rfl

variable {src} (valid : s.srcValid src = true) (n : Nat)
include valid

theorem srcBytes_same :
    (t.srcBytes src n).1 = (s.srcBytes src n).1 ∧
    (s.srcBytes src n).2.sameButUnseenWords (t.srcBytes src n).2 := by
  obtain ⟨m, r, rfl, seen⟩ := sameButUnseenWords_iff.mp same
  cases src with
  | lcg j => exact ⟨rfl, rfl, seen⟩
  | mt j =>
    have bank : (s.withUnseen m r).mt[j] = s.mt[j] := seen.get valid
    simp only [State.srcBytes, bank, true_and]
    exact ⟨rfl, seen.set _ _⟩
  | bbs j => exact ⟨rfl, rfl, seen⟩

theorem srcBits_same :
    (t.srcBits src n).1 = (s.srcBits src n).1 ∧
    (s.srcBits src n).2.sameButUnseenWords (t.srcBits src n).2 := by
  cases src with
  | lcg j =>
    obtain ⟨bytes, left⟩ := srcBytes_same same (src := .lcg j) valid (ceilDiv n 8)
    exact ⟨congrArg (fun b => (bytesBits b).take n) bytes, left⟩
  | mt j =>
    obtain ⟨bytes, left⟩ := srcBytes_same same (src := .mt j) valid (ceilDiv n 8)
    exact ⟨congrArg (fun b => (bytesBits b).take n) bytes, left⟩
  | bbs j =>
    obtain ⟨m, r, rfl, seen⟩ := sameButUnseenWords_iff.mp same
    exact ⟨rfl, rfl, seen⟩

theorem srcFloats_same :
    (t.srcFloats src n).1 = (s.srcFloats src n).1 ∧
    (s.srcFloats src n).2.sameButUnseenWords (t.srcFloats src n).2 := by
  obtain ⟨m, r, rfl, seen⟩ := sameButUnseenWords_iff.mp same
  cases src with
  | lcg j => exact ⟨rfl, rfl, seen⟩
  | mt j =>
    have bank : (s.withUnseen m r).mt[j] = s.mt[j] := seen.get valid
    simp only [State.srcFloats, bank, true_and]
    exact ⟨rfl, seen.set _ _⟩
  | bbs j => exact ⟨rfl, rfl, seen⟩

end

/-- Draws keep what makes a source valid. -/
theorem SrcDrew.srcValid {src : Src} {s t : State} (drew : SrcDrew src s t) :
    t.srcValid src = s.srcValid src := by
  cases src with
  | lcg j => exact (drew.lcgKeep j).1
  | mt j => exact (drew.mtKeep j).1
  | bbs j => exact (drew.bbsKeep j).1

/-- Two runs of the attempt loop from related sources, their draws alike, end alike. -/
theorem boundedAttempts_related {σ : Type} (R : σ → σ → Prop) {r k : Nat}
    {bits : Nat → σ → Except Status (List Bool × σ)}
    (draws : ∀ a b, R a b → ∃ bs a' b', bits k a = .ok (bs, a') ∧ bits k b = .ok (bs, b') ∧ R a' b')
    (n : Nat) {a b : σ} (start : R a b) :
    (boundedAttempts r k bits n b).1 = (boundedAttempts r k bits n a).1 ∧
    R (boundedAttempts r k bits n a).2 (boundedAttempts r k bits n b).2 := by
  induction n generalizing a b with
  | zero => exact ⟨rfl, start⟩
  | succ n ih =>
    obtain ⟨bs, a', b', drawnA, drawnB, after⟩ := draws a b start
    simp only [boundedAttempts, drawnA, drawnB]
    split
    · exact ⟨rfl, after⟩
    · exact ih after

theorem boundedInt_src_same {s t : State} {src : Src} (same : s.sameButUnseenWords t)
    (valid : s.srcValid src = true) (attempts : Nat) (a b : Word64) :
    let bits := fun k t => Except.ok (State.srcBits t src k)
    (boundedInt attempts a b bits t).1 = (boundedInt attempts a b bits s).1 ∧
    (boundedInt attempts a b bits s).2.sameButUnseenWords (boundedInt attempts a b bits t).2 := by
  have loop (r k : Nat) := boundedAttempts_related
    (fun a b : State => a.sameButUnseenWords b ∧ a.srcValid src = true) (r := r) (k := k)
    (bits := fun k t => .ok (State.srcBits t src k))
    (fun a b ⟨same, valid⟩ =>
      have drawn := srcBits_same same valid k
      ⟨_, _, (b.srcBits src k).2, rfl, congrArg Except.ok (Prod.ext drawn.1 rfl),
        drawn.2,
        (srcBits_drew a src k).srcValid.trans valid⟩)
    attempts ⟨same, valid⟩
  simp only [boundedInt]
  split
  · exact ⟨rfl, same⟩
  · exact ⟨by rw [(loop _ _).1], (loop _ _).2.1⟩

/-! ### Word offsets of the window -/

theorem windowOffset_lt {p : Params} {addr off : Nat} (inside : windowOffset p addr = some off) :
    off < 0x20 := by
  unfold windowOffset at inside
  split at inside
  · cases inside; omega
  · cases inside

theorem windowOffset_congr {p q : Params} (base : q.blockBase = p.blockBase) (addr : Nat) :
    windowOffset q addr = windowOffset p addr := by
  unfold windowOffset
  rw [base]

/-- The eight registers (R30). -/
theorem wordOffset_cases {off : Nat} (lt : off < 0x20) (aligned : off % 4 = 0) :
    off = 0x00 ∨ off = 0x04 ∨ off = 0x08 ∨ off = 0x0C ∨ off = 0x10 ∨ off = 0x14 ∨ off = 0x18 ∨
      off = 0x1C := by
  omega

/-- An access outside the window is not described (R82). -/
theorem busAccess_of_outside {s : State} {a : Access}
    (outside : windowOffset s.params a.addr = none) :
    busAccess a s = .fault (.outsideWindow a.addr) := by
  simp only [busAccess, outside]

/-- An access of another width or alignment gets the bus error and does nothing (R80). -/
theorem busAccess_of_refused {s : State} {a : Access} {off : Nat}
    (inside : windowOffset s.params a.addr = some off) (bad : ¬ (a.bits = 32 ∧ off % 4 = 0)) :
    busAccess a s = .next (s.reply (.error a.addr)) := by
  simp only [busAccess, inside, if_neg bad]

/-! ### The commands -/

section
variable {s : State} {m : Vector Mt 4} (seen : SameSeen s.mt m)
  (r : Vector (Vector Word 624) 4)
include seen

theorem withUnseen_same : s.sameButUnseenWords (s.withUnseen m r) := ⟨rfl, seen⟩

/-- A command of a valid bank: where the bank is not valid both are refused, else the banks are
equal. -/
theorem Alike.ofBank (j : Inst) {f : Mt → State → Host.Outcome State Fault Refusal} {c : Instr}
    (acts : Alike (f s.mt[j] s) (f s.mt[j] (s.withUnseen m r))) :
    Alike (if s.mt[j].valid = false then Machine.raise c .notInstantiated s else f s.mt[j] s)
      (if m[j].valid = false then Machine.raise c .notInstantiated (s.withUnseen m r)
        else f m[j] (s.withUnseen m r)) := by
  rw [(seen j).1]
  refine .ite (fun _ => .raise _ _ (withUnseen_same seen r)) fun valid => ?_
  rw [seen.get (Bool.not_eq_false _ ▸ valid)]
  exact acts

theorem setMt_same (j : Inst) (x : Mt) :
    (s.setMt j x).sameButUnseenWords ((s.withUnseen m r).setMt j x) := ⟨rfl, seen.set j x⟩

theorem execSerInt_alike (src : Src) (a b : Word64) :
    Alike (execSerInt src a b s) (execSerInt src a b (s.withUnseen m r)) := by
  have same := withUnseen_same seen r
  unfold execSerInt
  rw [srcValid_same same]
  refine .ite (fun _ => .raise _ _ same) fun valid => .ite (fun _ => .raise _ _ same) fun _ => ?_
  obtain ⟨answer, left⟩ := boundedInt_src_same same (Bool.not_eq_false _ ▸ valid)
    s.params.rangeMaxAttempts a b
  dsimp only [State.withUnseen_params] at answer left ⊢
  rw [answer]
  split
  · exact .raise _ _ left
  · exact .finish _ _ left

theorem execBbsInit_alike (j : Inst) (p q : Nat) (seed : Option Nat) :
    Alike (execBbsInit j p q seed s) (execBbsInit j p q seed (s.withUnseen m r)) := by
  refine .ite (fun _ => .raise _ _ ⟨rfl, seen⟩) fun _ => ?_
  cases seed with
  | none => exact .next ⟨rfl, seen⟩
  | some x => exact .ite (fun _ => .raise _ _ ⟨rfl, seen⟩) fun _ => .finish _ _ ⟨rfl, seen⟩

theorem execDrbgGenerate_alike (j : Inst) (n : Count) (a : List Byte) :
    Alike (execDrbgGenerate j n a s) (execDrbgGenerate j n a (s.withUnseen m r)) := by
  have same := withUnseen_same seen r
  refine .ite (fun _ => .raise _ _ same) fun _ => .ite (fun _ => .raise _ _ same) fun _ => ?_
  dsimp only [State.withUnseen_params, State.withUnseen_drbg]
  split
  · exact .raise _ _ same
  · exact .finish _ _ ⟨rfl, seen⟩

theorem execDrbgGenBits_alike (j : Inst) (n : Count) :
    Alike (execDrbgGenBits j n s) (execDrbgGenBits j n (s.withUnseen m r)) := by
  have same := withUnseen_same seen r
  refine .ite (fun _ => .raise _ _ same) fun _ => .ite (fun _ => .raise _ _ same) fun _ => ?_
  dsimp only [State.withUnseen_params, State.withUnseen_drbg]
  split
  · exact .raise _ _ same
  · exact .finish _ _ ⟨rfl, seen⟩

theorem execDrbgRandomInt_alike (j : Inst) (a b : Word64) :
    Alike (execDrbgRandomInt j a b s) (execDrbgRandomInt j a b (s.withUnseen m r)) := by
  have same := withUnseen_same seen r
  refine .ite (fun _ => .raise _ _ same) fun _ => .ite (fun _ => .raise _ _ same) fun _ => ?_
  dsimp only [State.withUnseen_params, State.withUnseen_drbg]
  split
  · exact .raise _ _ ⟨rfl, seen⟩
  · exact .finish _ _ ⟨rfl, seen⟩

theorem execSerBytes_alike (src : Src) (n : Count) :
    Alike (execSerBytes src n s) (execSerBytes src n (s.withUnseen m r)) := by
  have same := withUnseen_same seen r
  unfold execSerBytes
  rw [srcValid_same same]
  refine .ite (fun _ => .raise _ _ same) fun valid => ?_
  obtain ⟨bytes, left⟩ := srcBytes_same same (Bool.not_eq_false _ ▸ valid) n.toNat
  dsimp only
  rw [bytes]
  exact .finish _ _ left

theorem execSerBits_alike (src : Src) (n : Count) :
    Alike (execSerBits src n s) (execSerBits src n (s.withUnseen m r)) := by
  have same := withUnseen_same seen r
  unfold execSerBits
  rw [srcValid_same same]
  refine .ite (fun _ => .raise _ _ same) fun valid => .ite (fun _ => .raise _ _ same) fun _ => ?_
  obtain ⟨bits, left⟩ := srcBits_same same (Bool.not_eq_false _ ▸ valid) n.toNat
  dsimp only
  rw [bits]
  exact .finish _ _ left

theorem execSerFloat_alike (src : Src) (n : Count) :
    Alike (execSerFloat src n s) (execSerFloat src n (s.withUnseen m r)) := by
  have same := withUnseen_same seen r
  unfold execSerFloat
  rw [srcValid_same same]
  refine .ite (fun _ => .raise _ _ same) fun valid => ?_
  obtain ⟨floats, left⟩ := srcFloats_same same (Bool.not_eq_false _ ▸ valid) n.toNat
  dsimp only
  rw [floats]
  exact .finish _ _ left

/-- A command does the same to both, whatever the unseen words are. -/
theorem exec_alike (c : Instr) : Alike (exec c s) (exec c (s.withUnseen m r)) := by
  have same := withUnseen_same seen r
  cases c with
  | sysNop => exact .finish _ _ same
  | sysInfo => exact .finish _ _ same
  | sysEcho ws => exact .finish _ _ same
  | lcgInit j seed a c m => exact .ite (fun _ => .raise _ _ same) fun _ => .finish _ _ ⟨rfl, seen⟩
  | lcgPreset j preset seed =>
    simp only [exec, execLcgPreset]
    split
    · exact .raise _ _ same
    · exact .finish _ _ ⟨rfl, seen⟩
  | lcgNext j n => exact .ite (fun _ => .raise _ _ same) fun _ => .finish _ _ ⟨rfl, seen⟩
  | lcgRead j => exact .finish _ _ same
  | mtSeed j seed => exact .finish _ _ (setMt_same seen r j _)
  | mtExtract j n =>
    exact .ofBank seen r j (f := fun b s => finish (.mtExtract j n) (drawN mtExtract n.toNat b).1
      (s.setMt j (drawN mtExtract n.toNat b).2)) (.finish _ _ (setMt_same seen r j _))
  | mtTwist j =>
    exact .ofBank seen r j (f := fun b s => finish (.mtTwist j) [] (s.setMt j (mtTwist b)))
      (.finish _ _ (setMt_same seen r j _))
  | mtTemper j ys => exact .finish _ _ same
  | mtUntemper j ys => exact .finish _ _ same
  | mtClone j os =>
    exact .ite (fun _ => .raise _ _ same) fun _ => .ite (fun _ => .raise _ _ same) fun _ =>
      .finish _ _ (setMt_same seen r j _)
  | mtRead j =>
    exact .ofBank seen r j
      (f := fun b s => finish (.mtRead j) (b.cur.setWidth 32 :: b.w.toList) s) (.finish _ _ same)
  | mtWrite j cur ws =>
    exact .ite (fun _ => .raise _ _ same) fun _ => .finish _ _ (setMt_same seen r j _)
  | bbsInit j p q seed => exact execBbsInit_alike seen r j p q seed
  | bbsNextBit j n => exact .ite (fun _ => .raise _ _ same) fun _ => .finish _ _ ⟨rfl, seen⟩
  | bbsRead j => exact .finish _ _ same
  | drbgInstantiate j variant e n ps =>
    exact .ite (fun _ => .raise _ _ same) fun _ => .finish _ _ ⟨rfl, seen⟩
  | drbgGenerate j n a => exact execDrbgGenerate_alike seen r j n a
  | drbgReseed j e a => exact .ite (fun _ => .raise _ _ same) fun _ => .finish _ _ ⟨rfl, seen⟩
  | drbgGenBits j n => exact execDrbgGenBits_alike seen r j n
  | drbgRandomInt j a b => exact execDrbgRandomInt_alike seen r j a b
  | drbgSetInterval j v => exact .ite (fun _ => .raise _ _ same) fun _ => .finish _ _ ⟨rfl, seen⟩
  | drbgRead j => exact .finish _ _ same
  | serBytes src n => exact execSerBytes_alike seen r src n
  | serBits src n => exact execSerBits_alike seen r src n
  | serFloat src n => exact execSerFloat_alike seen r src n
  | serInt src a b => exact execSerInt_alike seen r src a b
  | serXor ss =>
    cases ss with
    | nil => exact .raise _ _ same
    | cons b rest =>
      exact .ite (fun _ => .raise _ _ same) fun _ =>
        .ite (fun _ => .raise _ _ same) fun _ => .finish _ _ same

/-! ### The processor's steps -/

omit seen in
theorem ite_same {P : Prop} [Decidable P] {a b a' b' : State} (yes : P → a.sameButUnseenWords a')
    (no : ¬ P → b.sameButUnseenWords b') :
    (if P then a else b).sameButUnseenWords (if P then a' else b') := by
  split
  · next h => exact yes h
  · next h => exact no h

theorem enterFault_same : s.enterFault.sameButUnseenWords (s.withUnseen m r).enterFault :=
  ⟨rfl, seen⟩

theorem endPacket_same : s.endPacket.sameButUnseenWords (s.withUnseen m r).endPacket :=
  ite_same (fun _ => enterFault_same seen r) fun _ => ⟨rfl, seen⟩

theorem openPacket_same (h : Word) :
    (s.openPacket h).sameButUnseenWords ((s.withUnseen m r).openPacket h) := by
  have sameCheck : headerReject (s.withUnseen m r).params h = headerReject s.params h := rfl
  simp only [State.openPacket, sameCheck]
  split <;> exact ⟨rfl, seen⟩

theorem readHeader_same : s.readHeader.sameButUnseenWords (s.withUnseen m r).readHeader := by
  refine ite_same (fun _ => enterFault_same seen r) fun _ => ?_
  simp only [State.withUnseen_cmd]
  split
  · exact ⟨rfl, seen⟩
  · next h rest _ => exact openPacket_same (s := { s with cmd := rest, pc := s.pc + 1 }) seen r h

theorem readOperand_same : s.readOperand.sameButUnseenWords (s.withUnseen m r).readOperand := by
  simp only [State.readOperand, State.withUnseen_cmd]
  split <;> exact ⟨rfl, seen⟩

theorem drawStep_same (i : Inst) (p q : Nat) (acc : List Word) :
    (s.drawStep i p q acc).sameButUnseenWords ((s.withUnseen m r).drawStep i p q acc) := by
  refine ite_same (fun _ => ?_) fun _ => ite_same (fun _ => ⟨rfl, seen⟩) fun _ => ⟨rfl, seen⟩
  simp only [State.withUnseen_ent]
  split <;> exact ⟨rfl, seen⟩

theorem writeResponse_same (written todo : List Word) :
    (s.writeResponse written todo).sameButUnseenWords
      ((s.withUnseen m r).writeResponse written todo) := by
  cases todo with
  | nil => exact endPacket_same seen r
  | cons w rest =>
    refine ite_same (fun _ => ⟨rfl, seen⟩) fun _ => ?_
    cases rest with
    | nil => exact endPacket_same (s := { s with rsp := s.rsp ++ [w] }) seen r
    | cons _ _ => exact ⟨rfl, seen⟩

theorem procStep_alike : Alike (procStep exec s) (procStep exec (s.withUnseen m r)) := by
  have sameDecode (ws : List Word) : decode (s.withUnseen m r).params ws = decode s.params ws := rfl
  simp only [procStep, State.withUnseen_mode, State.withUnseen_phase, State.withUnseen_hdr,
    State.withUnseen_ops, sameDecode]
  split
  · exact .next ⟨rfl, seen⟩
  · exact .next (readHeader_same seen r)
  · split
    · split
      · exact exec_alike seen r _
      · exact .next (readOperand_same seen r)
      · exact .next ⟨rfl, seen⟩
    · exact .next (drawStep_same seen r _ _ _ _)
    · exact .next (writeResponse_same seen r _ _)

/-! ### The host's accesses and resets -/

omit seen in
theorem hardReset_same : s.hardReset.sameButUnseenWords (s.withUnseen m r).hardReset := by
  refine ⟨rfl, fun i => ?_⟩
  have bank (s : State) : s.hardReset.mt[i] = Mt.reset s.params.mtRamInit[i] :=
    resetOf_mt s.params i
  rw [bank, bank]
  exact ⟨rfl, rfl, nofun⟩

omit seen in
theorem softReset_same (v : Word) :
    (s.softReset v).sameButUnseenWords ((s.withUnseen m r).softReset v) := by
  refine ⟨rfl, fun i => ?_⟩
  have bank (s : State) : (s.softReset v).mt[i] = Mt.reset s.mt[i].w := by simp
  rw [bank, bank]
  exact ⟨rfl, rfl, nofun⟩

theorem writeCtrl_same (v : Word) :
    (s.writeCtrl v).sameButUnseenWords ((s.withUnseen m r).writeCtrl v) :=
  ite_same (fun _ => softReset_same r v) fun _ => ⟨rfl, seen⟩

theorem writeCmd_same (v : Word) :
    (s.writeCmd v).sameButUnseenWords ((s.withUnseen m r).writeCmd v) :=
  ite_same (fun _ => ⟨rfl, seen⟩) fun _ => ite_same (fun _ => ⟨rfl, seen⟩) fun _ => ⟨rfl, seen⟩

theorem writeEnt_same (v : Word) :
    (s.writeEnt v).sameButUnseenWords ((s.withUnseen m r).writeEnt v) :=
  ite_same (fun _ => ⟨rfl, seen⟩) fun _ => ⟨rfl, seen⟩

theorem writeReg_same {off : Nat} (lt : off < 0x20) (aligned : off % 4 = 0) (v : Word) :
    (s.writeReg off v).sameButUnseenWords ((s.withUnseen m r).writeReg off v) := by
  rcases wordOffset_cases lt aligned with rfl | rfl | rfl | rfl | rfl | rfl | rfl | rfl
  · exact ⟨rfl, seen⟩
  · exact writeCtrl_same seen r v
  · exact ⟨rfl, seen⟩
  · exact writeCmd_same seen r v
  · exact ⟨rfl, seen⟩
  · exact writeEnt_same seen r v
  · exact ⟨rfl, seen⟩
  · exact ⟨rfl, seen⟩

theorem readReg_same {off : Nat} (lt : off < 0x20) (aligned : off % 4 = 0) :
    ((s.withUnseen m r).readReg off).1 = (s.readReg off).1 ∧
    (s.readReg off).2.sameButUnseenWords ((s.withUnseen m r).readReg off).2 := by
  rcases wordOffset_cases lt aligned with rfl | rfl | rfl | rfl | rfl | rfl | rfl | rfl
  case inr.inr.inr.inr.inl =>
    show (s.withUnseen m r).readRsp.1 = s.readRsp.1 ∧ s.readRsp.2.sameButUnseenWords _
    simp only [State.readReg, State.readRsp, State.withUnseen_rsp]
    split <;> exact ⟨rfl, rfl, seen⟩
  all_goals exact ⟨rfl, rfl, seen⟩

omit seen in
/-- A reply that is the same on both sides. -/
theorem reply_same {s t : State} (same : s.sameButUnseenWords t) (x : BusReply) :
    (s.reply x).sameButUnseenWords (t.reply x) := by
  obtain ⟨m, r, rfl, seen⟩ := sameButUnseenWords_iff.mp same
  exact ⟨rfl, seen⟩

theorem busAccess_alike (a : Access) : Alike (busAccess a s) (busAccess a (s.withUnseen m r)) := by
  have sameWindow : windowOffset (s.withUnseen m r).params a.addr = windowOffset s.params a.addr :=
    windowOffset_congr rfl _
  cases inside : windowOffset s.params a.addr with
  | none =>
    intro s' performed
    rw [busAccess_of_outside inside] at performed
    cases performed
  | some off =>
    have lt := windowOffset_lt inside
    have addr := win_some inside
    rw [inside] at sameWindow
    by_cases performed : a.bits = 32 ∧ off % 4 = 0
    · cases a with
      | read bits _ =>
        obtain ⟨rfl, aligned⟩ := performed
        obtain ⟨value, after⟩ := readReg_same seen r lt aligned
        obtain rfl : _ = s.params.blockBase + off := addr
        rw [busAccess_read s lt aligned, ← State.blockBase_withUnseen s m r,
          busAccess_read (s.withUnseen m r) lt aligned, value]
        exact .next (reply_same after _)
      | write bits _ v =>
        obtain ⟨rfl, aligned⟩ := performed
        obtain rfl : _ = s.params.blockBase + off := addr
        rw [busAccess_write s v lt aligned, ← State.blockBase_withUnseen s m r,
          busAccess_write (s.withUnseen m r) v lt aligned]
        exact .next (reply_same (writeReg_same seen r lt aligned v) _)
    · rw [busAccess_of_refused inside performed, busAccess_of_refused sameWindow performed]
      exact .next (reply_same (withUnseen_same seen r) _)

end

theorem step_alike {s t : State} (same : s.sameButUnseenWords t) : Alike (step s) (step t) := by
  obtain ⟨m, r, rfl, seen⟩ := sameButUnseenWords_iff.mp same
  simp only [step, stepWith, State.withUnseen_bus]
  split
  · exact procStep_alike seen r
  · next rest _ => exact procStep_alike (s := { s with bus := rest }) seen r
  · next a rest _ => exact busAccess_alike (s := { s with bus := rest }) seen r a
  · next rest _ => exact .next (hardReset_same (s := { s with bus := rest }) r)

end Sys2Proof.Machine
end

section
/-! SUPPORT. The statement about unseen words (10_state.md R46, R47). -/

namespace Sys2Proof.Machine

/-- Settles O60: every operation of a step does the same to both states (`step_alike`), and what the
host sees stands in none of the words. -/
theorem unseenWordsStayUnseen : Obligations.UnseenWordsStayUnseen := by
  refine ⟨resetOf_mt, fun s t s' same stepped => ?_⟩
  obtain ⟨t', stepped', after⟩ := step_alike same s' stepped
  refine ⟨t', stepped', after, ?_⟩
  obtain ⟨m, r, rfl, -⟩ := sameButUnseenWords_iff.mp after
  exact ⟨rfl, rfl, rfl⟩

end Sys2Proof.Machine
end

section
/-! SUPPORT. STATUS bit by bit (10_state.md R33). -/

namespace Sys2Proof.Machine

theorem flagBit_getLsbD (b : Bool) (k : Nat) {j : Nat} (lt : j < 32) :
    (flagBit b k).getLsbD j = (decide (j = k) && b) := by
  rw [flagBit, BitVec.getLsbD_shiftLeft, BitVec.getLsbD_setWidth, BitVec.getLsbD_ofBool]
  by_cases same : j = k
  · subst same; simp [lt]
  · by_cases below : j < k
    · simp [below, same]
    · have : j - k ≠ 0 := by omega
      simp [same, this]

/-- A field of STATUS: bit `j` of `x` moved up `k` places. -/
theorem field_getLsbD {w : Nat} (x : BitVec w) (k : Nat) {j : Nat} (lt : j < 32) :
    (x.setWidth 32 <<< k).getLsbD j = (decide (k ≤ j) && x.getLsbD (j - k)) := by
  rw [BitVec.getLsbD_shiftLeft, BitVec.getLsbD_setWidth]
  have fits : j - k < 32 := by omega
  by_cases above : k ≤ j
  · simp [lt, fits, above, Nat.not_lt.2 above]
  · simp [above, Nat.lt_of_not_le above]

theorem isEmpty_eq_decide (ws : List Word) : ws.isEmpty = decide (ws = []) := by
  cases ws <;> rfl

variable (s : State)

/-- Bit `j` of STATUS, field by field (R33). -/
theorem statusWord_getLsbD {j : Nat} (lt : j < 32) :
    s.statusWord.getLsbD j =
      (decide (j = 0) && s.busy || decide (j = 1) && s.cmdFull || decide (j = 2) && s.rspValid ||
      decide (j = 3) && s.entWait || decide (j = 4) && s.faultFlag || decide (j = 5) && s.entFull ||
      decide (8 ≤ j) && s.drbg[0].state.code.getLsbD (j - 8) ||
      decide (16 ≤ j) &&
        (BitVec.ofNat 8 (min 255 (s.params.cmdDepth - s.cmd.length))).getLsbD (j - 16) ||
      decide (24 ≤ j) && (BitVec.ofNat 8 (min 255 s.rsp.length)).getLsbD (j - 24)) := by
  simp only [State.statusWord, BitVec.getLsbD_or, flagBit_getLsbD _ _ lt, field_getLsbD _ _ lt]

theorem entWait_iff : s.entWait = true ↔ s.mode = .exec ∧ s.ent = [] ∧
    ∃ i p q acc, s.phase = .draw i p q acc ∧ acc.length < candidateWords (p * q) := by
  rw [State.entWait, State.inEntRead]
  cases s.mode <;> cases s.phase <;> simp [and_comm]

theorem statusWord_entWait : s.statusWord.getLsbD 3 = s.entWait := by
  rw [statusWord_getLsbD s (by decide)]
  simp

theorem statusWord_drbgState : s.statusWord.extractLsb' 8 2 = s.drbg[0].state.code := by
  apply BitVec.eq_of_getLsbD_eq
  intro j lt
  have below : ¬ 16 ≤ 8 + j ∧ ¬ 24 ≤ 8 + j := by omega
  rw [BitVec.getLsbD_extractLsb', statusWord_getLsbD s (by omega)]
  simp [lt, below]
  omega

theorem statusWord_reserved_low : s.statusWord.extractLsb' 6 2 = 0#2 := by
  apply BitVec.eq_of_getLsbD_eq
  intro j lt
  have below : ¬ 8 ≤ 6 + j ∧ ¬ 16 ≤ 6 + j ∧ ¬ 24 ≤ 6 + j := by omega
  rw [BitVec.getLsbD_extractLsb', statusWord_getLsbD s (by omega)]
  simp [below]
  omega

theorem statusWord_reserved_high : s.statusWord.extractLsb' 10 6 = 0#6 := by
  apply BitVec.eq_of_getLsbD_eq
  intro j lt
  have below : ¬ 16 ≤ 10 + j ∧ ¬ 24 ≤ 10 + j := by omega
  have beyond : s.drbg[0].state.code.getLsbD (10 + j - 8) = false :=
    BitVec.getLsbD_of_ge _ _ (by omega)
  rw [BitVec.getLsbD_extractLsb', statusWord_getLsbD s (by omega)]
  simp [below, beyond]
  omega

theorem statusWord_cmdFree : s.statusWord.extractLsb' 16 8 =
    BitVec.ofNat 8 (min 255 (s.params.cmdDepth - s.cmd.length)) := by
  apply BitVec.eq_of_getLsbD_eq
  intro j lt
  have below : ¬ 24 ≤ 16 + j := by omega
  have beyond : s.drbg[0].state.code.getLsbD (16 + j - 8) = false :=
    BitVec.getLsbD_of_ge _ _ (by omega)
  rw [BitVec.getLsbD_extractLsb', statusWord_getLsbD s (by omega), Nat.add_sub_cancel_left]
  simp [lt, below, beyond]
  omega

theorem statusWord_rspCount :
    s.statusWord.extractLsb' 24 8 = BitVec.ofNat 8 (min 255 s.rsp.length) := by
  apply BitVec.eq_of_getLsbD_eq
  intro j lt
  have beyond : s.drbg[0].state.code.getLsbD (24 + j - 8) = false :=
    BitVec.getLsbD_of_ge _ _ (by omega)
  have free (x : Byte) : x.getLsbD (24 + j - 16) = false := BitVec.getLsbD_of_ge _ _ (by omega)
  rw [BitVec.getLsbD_extractLsb', statusWord_getLsbD s (by omega), Nat.add_sub_cancel_left]
  simp only [free, beyond]
  simp [lt]
  omega

theorem drbgState_code (d : Drbg) : d.state.code =
    if d.inst = false then 0#2 else if d.interval.toNat < d.ctr.toNat then 2#2 else 1#2 := by
  rw [Drbg.state, Drbg.exhausted]
  split
  · rfl
  · simp only [decide_eq_true_eq]
    split <;> rfl

end Sys2Proof.Machine
end

section
/-! SUPPORT. The statement about STATUS. -/

namespace Sys2Proof.Machine

/-- Settles O55: each field is its own lemma above. -/
theorem statusFields : Obligations.StatusFields := by
  intro s
  have bit (j : Nat) (lt : j < 32) := statusWord_getLsbD s lt
  refine ⟨?_, ?_, ?_, ?_, ?_, ?_, statusWord_reserved_low s, ?_, statusWord_reserved_high s, ?_, ?_,
    ?_⟩
  · rw [bit 0 (by decide)]
    cases h : s.mode <;> simp [State.busy, h, isEmpty_eq_decide]
  · rw [bit 1 (by decide)]
    simp [State.cmdFull]
  · rw [bit 2 (by decide)]
    simp [State.rspValid, isEmpty_eq_decide]
  · rw [statusWord_entWait]
    exact entWait_iff s
  · rw [bit 4 (by decide)]
    simp [State.faultFlag]
  · rw [bit 5 (by decide)]
    simp [State.entFull]
  · rw [statusWord_drbgState, drbgState_code]
  · rw [statusWord_cmdFree, BitVec.toNat_ofNat]
    exact Nat.mod_eq_of_lt (by omega)
  · rw [statusWord_rspCount, BitVec.toNat_ofNat]
    exact Nat.mod_eq_of_lt (by omega)
  · rw [bit 2 (by decide), bit 4 (by decide), State.irq]
    simp

end Sys2Proof.Machine
end

section
/-! SUPPORT. The processor's step at each place it can stand (60_exceptions.md R366). -/

namespace Sys2Proof.Machine

variable {s : State}

/-! ### The step by mode and phase -/

theorem procStep_of_fault (mode : s.mode = .fault) : procStep exec s = .next s := by
  simp only [procStep, mode]

theorem procStep_of_idle (mode : s.mode = .idle) : procStep exec s = .next s.readHeader := by
  simp only [procStep, mode]

theorem procStep_of_complete {i : Instr} {rest : List Word} (mode : s.mode = .exec)
    (phase : s.phase = .operands) (complete : decode s.params (s.hdr :: s.ops) = .ok i rest) :
    procStep exec s = exec i s := by
  simp only [procStep, mode, phase, complete]

theorem procStep_of_incomplete (mode : s.mode = .exec) (phase : s.phase = .operands)
    (incomplete : decode s.params (s.hdr :: s.ops) = .reject .truncated) :
    procStep exec s = .next s.readOperand := by
  simp only [procStep, mode, phase, incomplete]

theorem procStep_of_draw {i : Inst} {p q : Nat} {acc : List Word} (mode : s.mode = .exec)
    (phase : s.phase = .draw i p q acc) : procStep exec s = .next (s.drawStep i p q acc) := by
  simp only [procStep, mode, phase]

theorem procStep_of_response {written todo : List Word} (mode : s.mode = .exec)
    (phase : s.phase = .response written todo) :
    procStep exec s = .next (s.writeResponse written todo) := by
  simp only [procStep, mode, phase]

/-! ### Reading CMD -/

theorem readHeader_of_pending (pending : s.fpend = true) : s.readHeader = s.enterFault :=
  if_pos pending

theorem readHeader_of_nil (calm : s.fpend = false) (empty : s.cmd = []) : s.readHeader = s := by
  simp only [State.readHeader, calm, empty, Bool.false_eq_true, if_false]

theorem readHeader_of_cons (calm : s.fpend = false) {w : Word} {rest : List Word}
    (head : s.cmd = w :: rest) :
    s.readHeader = { s with cmd := rest, pc := s.pc + 1 }.openPacket w := by
  simp only [State.readHeader, calm, head, Bool.false_eq_true, if_false]

theorem openPacket_of_legal {w : Word} (legal : headerReject s.params w = none) :
    s.openPacket w = { s with mode := .exec, hdr := w, ops := [], phase := .operands } := by
  simp only [State.openPacket, legal]

theorem openPacket_of_illegal {w : Word} (illegal : headerReject s.params w ≠ none) :
    s.openPacket w = s.raiseIllegal w := by
  rw [State.openPacket]
  split
  · rfl
  · next legal => exact absurd legal illegal

theorem readOperand_of_nil (empty : s.cmd = []) : s.readOperand = s := by
  simp only [State.readOperand, empty]

theorem readOperand_of_cons {w : Word} {rest : List Word} (head : s.cmd = w :: rest) :
    s.readOperand = { s with cmd := rest, pc := s.pc + 1, ops := s.ops ++ [w] } := by
  simp only [State.readOperand, head]

/-! ### Writing RSP -/

theorem writeResponse_of_full {written todo : List Word} (left : todo ≠ [])
    (full : s.params.rspDepth ≤ s.rsp.length) : s.writeResponse written todo = s := by
  cases todo with
  | nil => exact absurd rfl left
  | cons w rest => exact if_pos (decide_eq_true full)

theorem not_rspFull (room : s.rsp.length < s.params.rspDepth) : ¬ s.rspFull = true :=
  fun full => Nat.not_le_of_lt room (of_decide_eq_true full)

theorem writeResponse_last (written : List Word) (w : Word)
    (room : s.rsp.length < s.params.rspDepth) :
    s.writeResponse written [w] = { s with rsp := s.rsp ++ [w] }.endPacket :=
  if_neg (not_rspFull room)

theorem writeResponse_more (written : List Word) (w : Word) {rest : List Word} (more : rest ≠ [])
    (room : s.rsp.length < s.params.rspDepth) :
    s.writeResponse written (w :: rest) =
      { s with rsp := s.rsp ++ [w], phase := .response (written ++ [w]) rest } := by
  cases rest with
  | nil => exact absurd rfl more
  | cons x xs => exact if_neg (not_rspFull room)

/-! ### A draw -/

theorem drawStep_of_nil (i : Inst) (p q : Nat) {acc : List Word} (empty : s.ent = [])
    (lacks : acc.length < candidateWords (p * q)) : s.drawStep i p q acc = s := by
  rw [State.drawStep, if_pos lacks, empty]

theorem drawStep_of_cons (i : Inst) (p q : Nat) {acc : List Word} {w : Word} {rest : List Word}
    (head : s.ent = w :: rest) (lacks : acc.length < candidateWords (p * q)) :
    s.drawStep i p q acc = { s with ent := rest, phase := .draw i p q (acc ++ [w]) } := by
  rw [State.drawStep, if_pos lacks, head]

theorem drawStep_of_whole (i : Inst) (p q : Nat) {acc : List Word}
    (whole : candidateWords (p * q) ≤ acc.length) :
    s.drawStep i p q acc = s.bbsTryCandidate i p q acc :=
  if_neg (Nat.not_lt.2 whole)

/-! ### Runs -/

theorem step_empty (quiet : s.bus = []) : step s = procStep exec s := by
  simp only [step, stepWith, quiet]

/-- A run begins with its first step. -/
theorem run_succ {s t : State} (stepped : step s = .next t) (n : Nat) :
    Host.Core.run Sys2Proof.core (n + 1) s = Host.Core.run Sys2Proof.core n t := by
  rw [Nat.add_comm]
  exact run_add 1 n s t (run_one s t stepped)

end Sys2Proof.Machine
end

section
/-! SUPPORT. The statements about single steps and runs of the processor. -/

namespace Sys2Proof.Machine

/-- Settles O46: each place where the processor waits, by the equation of its step. -/
theorem processorHolds : Obligations.ProcessorHolds := by
  intro s later quiet
  have stepped := step_quiet s later quiet
  let u : State := { s with bus := later }
  refine ⟨fun mode calm empty => ?_, fun mode phase empty incomplete => ?_,
    fun i p q acc mode phase empty lacks => ⟨?_, ?_⟩, fun mode => ?_, fun mode pending => ?_⟩
  · exact stepped.trans <| (procStep_of_idle (s := u) mode).trans <|
      congrArg _ (readHeader_of_nil (s := u) calm empty)
  · exact stepped.trans <| (procStep_of_incomplete (s := u) mode phase incomplete).trans <|
      congrArg _ (readOperand_of_nil (s := u) empty)
  · exact stepped.trans <| (procStep_of_draw (s := u) mode phase).trans <|
      congrArg _ (drawStep_of_nil (s := u) _ _ _ empty lacks)
  · rw [statusWord_entWait, entWait_iff]
    exact ⟨mode, empty, i, p, q, acc, phase, lacks⟩
  · exact stepped.trans (procStep_of_fault (s := u) mode)
  · exact stepped.trans <| (procStep_of_idle (s := u) mode).trans <|
      congrArg _ (readHeader_of_pending (s := u) pending)

/-- Settles O43: a complete packet is computed, and `withFetchWord` places one at quiet ports. -/
theorem stepRunsDecoded : Obligations.StepRunsDecoded := by
  intro s i rest
  refine ⟨fun mode phase complete => ⟨fun quiet => ?_, fun later quiet => ?_⟩,
    fun nbits w complete => ?_⟩
  · rw [step_empty quiet, procStep_of_complete mode phase complete]
  · rw [step_quiet s later (.inl quiet)]
    exact procStep_of_complete (s := { s with bus := later }) mode phase complete
  · rw [State.withFetchWord]
    cases packet : packetOfBits s.params nbits w with
    | nil => rw [packet] at complete; cases complete
    | cons h ops =>
      rw [packet] at complete
      rw [step_empty rfl]
      exact procStep_of_complete (s := s.withPacket (h :: ops)) rfl rfl complete

end Sys2Proof.Machine
end

section
/-! SUPPORT. Packets and responses word by word (30_encoding.md R117, R118, 20_memory.md R85). -/

namespace Sys2Proof.Machine

/-! ### Reading a packet -/

/-- `s` inside the packet of `i`, with the operand words `read` read and `cmd` left in CMD. -/
def State.reading (s : State) (i : Instr) (read cmd : List Word) : State :=
  { s with mode := .exec, hdr := headerOf i, ops := read, cmd := cmd, pc := s.pc + (1 + read.length) }

section
variable {s : State}

/-- From IDLE a legal header opens its packet (R366 step 1). -/
theorem step_of_header {later : List BusEvent} {w : Word} {rest : List Word}
    (quiet : s.quietThen later) (head : s.cmd = w :: rest) (mode : s.mode = .idle)
    (calm : s.fpend = false) (legal : headerReject s.params w = none) :
    step s = .next { s with
      bus := later, mode := .exec, hdr := w, ops := [], phase := .operands, cmd := rest
      pc := s.pc + 1 } := by
  let u : State := { s with bus := later }
  let v : State := { u with cmd := rest, pc := s.pc + 1 }
  calc step s = procStep exec u := step_quiet s later quiet
    _ = .next u.readHeader := procStep_of_idle (s := u) mode
    _ = .next (v.openPacket w) := congrArg _ (readHeader_of_cons (s := u) calm head)
    _ = _ := congrArg _ (openPacket_of_legal (s := v) legal)

/-- Inside an incomplete packet the head word of CMD is its next operand word (R366 step 2). -/
theorem step_of_operand {later : List BusEvent} {w : Word} {rest : List Word}
    (quiet : s.quietThen later) (head : s.cmd = w :: rest) (mode : s.mode = .exec)
    (phase : s.phase = .operands)
    (incomplete : decode s.params (s.hdr :: s.ops) = .reject .truncated) :
    step s = .next { s with bus := later, ops := s.ops ++ [w], cmd := rest, pc := s.pc + 1 } := by
  let u : State := { s with bus := later }
  calc step s = procStep exec u := step_quiet s later quiet
    _ = .next u.readOperand := procStep_of_incomplete (s := u) mode phase incomplete
    _ = _ := congrArg _ (readOperand_of_cons (s := u) head)

/-- The operand words left of a packet are read one a step. -/
theorem run_reading {i : Instr} (legal : s.params.Legal) (wf : i.wellFormed s.params = true)
    (quiet : s.bus = []) (phase : s.phase = .operands) (rest : List Word) :
    ∀ todo read, operandsOf s.params i = read ++ todo →
      Host.Core.run Sys2Proof.core todo.length (s.reading i read (todo ++ rest)) =
        .next (s.reading i (read ++ todo) rest) := by
  intro todo
  induction todo with
  | nil =>
    intro read _
    rw [List.append_nil]
    rfl
  | cons w todo ih =>
    intro read split
    have incomplete : decode s.params (headerOf i :: read) = .reject .truncated :=
      decode_proper_part legal wf split nofun
    have stepped : step (s.reading i read (w :: todo ++ rest)) =
        .next (s.reading i (read ++ [w]) (todo ++ rest)) := by
      rw [step_of_operand (s := s.reading i read (w :: todo ++ rest)) (.inr ⟨quiet, rfl⟩) rfl rfl
        phase incomplete]
      simp only [State.reading, List.length_append, List.length_singleton, ← quiet, Nat.add_assoc]
      rfl
    rw [List.length_cons, run_succ stepped, ih _ (by rw [split, List.append_assoc]; rfl),
      List.append_assoc]
    rfl

/-- A whole packet at the head of CMD is read in as many steps as it has words. -/
theorem run_packet {i : Instr} {rest : List Word} (legal : s.params.Legal)
    (wf : i.wellFormed s.params = true) (quiet : s.bus = []) (mode : s.mode = .idle)
    (calm : s.fpend = false) (phase : s.phase = .operands)
    (packet : s.cmd = encode s.params i ++ rest) :
    Host.Core.run Sys2Proof.core (encode s.params i).length s =
      .next (s.reading i (operandsOf s.params i) rest) := by
  have opened : step s = .next (s.reading i [] (operandsOf s.params i ++ rest)) := by
    rw [step_of_header (.inr ⟨quiet, rfl⟩) packet mode calm (headerReject_headerOf wf)]
    simp only [State.reading, ← quiet, ← phase, List.length_nil]
    rfl
  rw [encode, List.length_cons, run_succ opened]
  exact run_reading legal wf quiet phase rest _ [] rfl

end

/-! ### Writing a response -/

section
variable {s : State}

theorem step_of_response {later : List BusEvent} {written todo : List Word}
    (quiet : s.quietThen later) (mode : s.mode = .exec) (phase : s.phase = .response written todo) :
    step s = .next (State.writeResponse { s with bus := later } written todo) :=
  (step_quiet s later quiet).trans (procStep_of_response (s := { s with bus := later }) mode phase)

/-- With room for all of it a response is written in as many steps as it has words left. -/
theorem run_response (w : Word) (todo : List Word) :
    ∀ (s : State) (written : List Word), s.bus = [] → s.mode = .exec →
      s.phase = .response written (w :: todo) →
      s.rsp.length + (w :: todo).length ≤ s.params.rspDepth →
      Host.Core.run Sys2Proof.core (w :: todo).length s =
        .next { s with rsp := s.rsp ++ w :: todo }.endPacket := by
  induction todo generalizing w with
  | nil =>
    intro s written quiet mode phase room
    refine run_one _ _ ?_
    rw [step_empty quiet, procStep_of_response mode phase,
      writeResponse_last _ _ (by simpa using room)]
  | cons x todo ih =>
    intro s written quiet mode phase room
    let t : State := { s with rsp := s.rsp ++ [w], phase := .response (written ++ [w]) (x :: todo) }
    have stepped : step s = .next t := by
      rw [step_empty quiet, procStep_of_response mode phase,
        writeResponse_more _ _ (List.cons_ne_nil x todo) (by simp at room; omega)]
    refine (run_succ stepped _).trans ((ih x t _ quiet mode rfl ?_).trans ?_)
    · simp [t] at room ⊢; omega
    simp only [t, State.endPacket, State.enterFault, List.append_assoc, List.singleton_append]

end

end Sys2Proof.Machine
end

section
/-! SUPPORT. The statements about packets and responses. -/

namespace Sys2Proof.Machine

/-- Settles O44: single steps by the equations of the step, the run by induction on the operand
words left (`run_reading`). -/
theorem packetIsFetchedWhole : Obligations.PacketIsFetchedWhole := by
  refine ⟨fun s later w rest quiet head => ⟨step_of_header quiet head, step_of_operand quiet head⟩,
    fun p i read todo legal wf split started more => ?_,
    fun s i rest legal wf quiet mode calm phase _ packet => ?_⟩
  · obtain ⟨w, read, rfl⟩ := List.exists_cons_of_ne_nil started
    obtain ⟨rfl, operands⟩ := List.cons.inj split
    exact ⟨headerReject_headerOf wf, decode_proper_part legal wf operands more⟩
  · have counted : 1 + (operandsOf s.params i).length = (encode s.params i).length :=
      Nat.add_comm _ _
    have run := run_packet legal wf quiet mode calm phase packet
    rw [State.reading, counted] at run
    have complete := decode_encode legal wf []
    rw [List.append_nil] at complete
    intro fetched
    exact ⟨run,
      (step_empty (s := fetched) quiet).trans (procStep_of_complete rfl phase complete)⟩

/-- Settles O45: single steps by the equations of `writeResponse`, the run by `run_response`. -/
theorem responseIsWrittenWhole : Obligations.ResponseIsWrittenWhole := by
  intro s written todo mode phase left
  refine ⟨fun later quiet => ?_, fun quiet room => ?_⟩
  · have stepped := step_of_response quiet mode phase
    refine ⟨fun full => ?_, ?_⟩
    · exact stepped.trans
        (congrArg _ (writeResponse_of_full (s := { s with bus := later }) left full))
    · rintro w rest room rfl
      refine ⟨fun more => ?_, ?_⟩
      · exact stepped.trans
          (congrArg _ (writeResponse_more (s := { s with bus := later }) written w more room))
      · rintro rfl
        exact stepped.trans
          (congrArg _ (writeResponse_last (s := { s with bus := later }) written w room))
  · obtain ⟨w, rest, rfl⟩ := List.exists_cons_of_ne_nil left
    exact run_response w rest s written quiet mode phase room

end Sys2Proof.Machine
end

section
/-! SUPPORT. What any step does to `pc` and CMD (10_state.md R39), what FAULT freezes
(60_exceptions.md R353), and that every step goes on. -/

namespace Sys2Proof.Machine

variable {s t : State}

/-! ### The processor and the words of CMD -/

/-- What a step of the processor does to CMD and `pc`. -/
inductive CmdUse (s t : State) : Prop
  | took (w : Word) : t.pc = s.pc + 1 → s.mode ≠ .fault → s.cmd = w :: t.cmd → CmdUse s t
  | kept : t.pc = s.pc → t.cmd = s.cmd → CmdUse s t
  | emptied : t.pc = s.pc → t.cmd = [] → s.fpend = true → s.mode ≠ .fault → t.mode = .fault →
      CmdUse s t

theorem openPacket_cmd_pc (s : State) (w : Word) :
    (s.openPacket w).cmd = s.cmd ∧ (s.openPacket w).pc = s.pc := by
  rw [State.openPacket]
  split <;> exact ⟨rfl, rfl⟩

theorem readHeader_cmdUse (mode : s.mode = .idle) : CmdUse s s.readHeader := by
  have running : s.mode ≠ .fault := by rw [mode]; nofun
  cases pending : s.fpend with
  | true =>
    rw [readHeader_of_pending pending]
    exact .emptied rfl rfl pending running rfl
  | false =>
    cases head : s.cmd with
    | nil => rw [readHeader_of_nil pending head]; exact .kept rfl rfl
    | cons w rest =>
      rw [readHeader_of_cons pending head]
      obtain ⟨sameCmd, samePc⟩ := openPacket_cmd_pc { s with cmd := rest, pc := s.pc + 1 } w
      exact .took w samePc running (by rw [sameCmd, head])

theorem readOperand_cmdUse (mode : s.mode = .exec) : CmdUse s s.readOperand := by
  cases head : s.cmd with
  | nil => rw [readOperand_of_nil head]; exact .kept rfl rfl
  | cons w rest =>
    rw [readOperand_of_cons head]
    exact .took w rfl (by rw [mode]; nofun) head

theorem endPacket_cmdUse (running : s.mode ≠ .fault) : CmdUse s s.endPacket := by
  rw [State.endPacket]
  split
  · next pending => exact .emptied rfl rfl pending running rfl
  · exact .kept rfl rfl

theorem writeResponse_cmdUse (running : s.mode ≠ .fault) (written todo : List Word) :
    CmdUse s (s.writeResponse written todo) := by
  by_cases full : s.params.rspDepth ≤ s.rsp.length
  · cases todo with
    | nil => exact endPacket_cmdUse running
    | cons w rest => rw [writeResponse_of_full (List.cons_ne_nil w rest) full]; exact .kept rfl rfl
  · have room := Nat.lt_of_not_le full
    cases todo with
    | nil => exact endPacket_cmdUse running
    | cons w rest =>
      cases rest with
      | nil =>
        rw [writeResponse_last written w room]
        exact match endPacket_cmdUse (s := { s with rsp := s.rsp ++ [w] }) running with
          | .took v pc mode head => .took v pc mode head
          | .kept pc cmd => .kept pc cmd
          | .emptied pc cmd pending mode halted => .emptied pc cmd pending mode halted
      | cons x xs =>
        rw [writeResponse_more written w (List.cons_ne_nil x xs) room]
        exact .kept rfl rfl

theorem drawStep_cmdUse (i : Inst) (p q : Nat) (acc : List Word) :
    CmdUse s (s.drawStep i p q acc) := by
  by_cases lacks : acc.length < candidateWords (p * q)
  · cases head : s.ent with
    | nil => rw [drawStep_of_nil i p q head lacks]; exact .kept rfl rfl
    | cons w rest => rw [drawStep_of_cons i p q head lacks]; exact .kept rfl rfl
  · rw [drawStep_of_whole i p q (Nat.not_lt.1 lacks), State.bbsTryCandidate]
    split <;> exact .kept rfl rfl

theorem procCase_cmdUse (ran : ProcCase s t) : CmdUse s t := by
  cases ran with
  | fault mode same => rw [same]; exact .kept rfl rfl
  | idle mode same => rw [same]; exact readHeader_cmdUse mode
  | run c rest mode phase decoded ran =>
    obtain ⟨⟨-, cmd, -⟩, pc, -⟩ := commandsWriteOnlyTheirInstance c s t ran
    exact .kept pc cmd
  | opnd mode phase same => rw [same]; exact readOperand_cmdUse mode
  | rej r mode phase decoded other same => rw [same]; exact .kept rfl rfl
  | draw i p q acc mode phase same => rw [same]; exact drawStep_cmdUse i p q acc
  | resp written todo mode phase same =>
    rw [same]
    exact writeResponse_cmdUse (by rw [mode]; nofun) written todo

/-- In FAULT the processor holds. -/
theorem ProcCase.eq_of_fault (ran : ProcCase s t) (mode : s.mode = .fault) : t = s := by
  cases ran with
  | fault _ same => exact same
  | idle idle => exact absurd (mode.symm.trans idle) nofun
  | run c rest exec => exact absurd (mode.symm.trans exec) nofun
  | opnd exec => exact absurd (mode.symm.trans exec) nofun
  | rej r exec => exact absurd (mode.symm.trans exec) nofun
  | draw i p q acc exec => exact absurd (mode.symm.trans exec) nofun
  | resp written todo exec => exact absurd (mode.symm.trans exec) nofun

/-! ### The host and the words of CMD -/

/-- A write of CTRL with bit 0 set is the soft reset (R32, R391). -/
theorem busAccess_softReset (s : State) {v : Word} (srst : v.getLsbD 0 = true) :
    busAccess (.write 32 (s.params.blockBase + 0x04) v) s = .next ((s.softReset v).reply .done) := by
  rw [busAccess_write s v (by decide) (by decide)]
  exact congrArg (fun t : State => Host.Outcome.next (t.reply .done)) (if_pos srst)

theorem writeCmd_cmd (s : State) (v : Word) :
    (s.writeCmd v).pc = s.pc ∧ ((s.writeCmd v).cmd = s.cmd ∨ (s.writeCmd v).cmd = s.cmd ++ [v]) := by
  rw [State.writeCmd]
  split
  · exact ⟨rfl, .inl rfl⟩
  · split
    · exact ⟨rfl, .inl rfl⟩
    · exact ⟨rfl, .inr rfl⟩

theorem writeEnt_keeps (s : State) (v : Word) :
    s.writeEnt v = { s with ent := (s.writeEnt v).ent
                            err := { s.err with entOvf := (s.writeEnt v).err.entOvf } } := by
  rw [State.writeEnt]
  split <;> rfl

/-- What an access that resets nothing can do: only a write to CMD reaches CMD or raises a fault. -/
inductive HostUse (a : Access) (s t : State) : Prop
  | wroteCmd (v : Word) : a = .write 32 (s.params.blockBase + 0x0C) v →
      t = { s.writeCmd v with busOut := t.busOut } → HostUse a s t
  | other (rsp ent : List Word) (ie udf ovf : Bool) (out : List BusReply) :
      t = { s with rsp := rsp, ent := ent, ie := ie, busOut := out
                   err := { s.err with rspUdf := udf, entOvf := ovf } } → HostUse a s t

theorem busAccess_hostUse {a : Access} (performed : busAccess a s = .next t)
    (noReset : ¬ isSoftReset s.params a) : HostUse a s t := by
  rcases bus_cases a s t performed with ⟨x, rfl⟩ | ⟨off, rfl⟩ | ⟨off, v, rfl, rfl⟩
  · exact .other s.rsp s.ent s.ie s.err.rspUdf s.err.entOvf _ rfl
  · obtain ⟨keeps, -⟩ := read_keeps s off
    rw [keeps]
    exact .other _ s.ent s.ie _ s.err.entOvf _ rfl
  · rcases write_cases s off v with
      ⟨rfl, srst, -⟩ | ⟨-, -, same⟩ | ⟨rfl, same⟩ | same | same | same
    · exact absurd ⟨v, rfl, srst⟩ noReset
    · rw [same]
      exact .other s.rsp s.ent _ s.err.rspUdf s.err.entOvf _ rfl
    · rw [same]
      exact .wroteCmd v rfl rfl
    · rw [same, writeEnt_keeps]
      exact .other s.rsp _ s.ie s.err.rspUdf _ _ rfl
    · rw [same]
      exact .other s.rsp s.ent s.ie _ _ _ rfl
    · rw [same]
      exact .other s.rsp s.ent s.ie s.err.rspUdf s.err.entOvf _ rfl

/-! ### Steps go on -/

theorem procStep_goesOn (s : State) : goesOn (procStep exec s) := by
  unfold procStep
  split
  · exact ⟨_, rfl⟩
  · exact ⟨_, rfl⟩
  · split
    · split
      · next c rest decoded =>
        obtain ⟨t, ran, -⟩ := commandsAnswerByTheTable c s
        exact ⟨t, ran⟩
      · exact ⟨_, rfl⟩
      · exact ⟨_, rfl⟩
    · exact ⟨_, rfl⟩
    · exact ⟨_, rfl⟩

theorem busAccess_goesOn {a : Access} (inside : windowOffset s.params a.addr ≠ none) :
    goesOn (busAccess a s) := by
  unfold busAccess
  split
  · next outside => exact absurd outside inside
  · split
    · split <;> exact ⟨_, rfl⟩
    · exact ⟨_, rfl⟩

end Sys2Proof.Machine
end

section
/-! SUPPORT. The statements about every step. -/

namespace Sys2Proof.Machine

/-- Settles O47: a reset is one of the two resets, and every other step uses CMD as `CmdUse` or
`HostUse` says. -/
theorem pcCountsWords : Obligations.PcCountsWords := by
  intro s t stepped
  rcases step_cases s t stepped with
    ⟨rest, quiet, ran⟩ | ⟨a, rest, access, performed⟩ | ⟨rest, reset, rfl⟩
  · refine ⟨?_, fun _ => ?_⟩
    · rintro ⟨later, reset | ⟨a, access, -⟩⟩ <;> simp_all
    · cases procCase_cmdUse ran with
      | took w pc mode head => exact .inl ⟨pc, mode, w, head⟩
      | kept pc cmd => exact .inr ⟨pc, .inl cmd⟩
      | emptied pc cmd pending mode halted =>
        exact .inr ⟨pc, .inr (.inr ⟨cmd, pending, mode, halted⟩)⟩
  · refine ⟨?_, fun noReset => ?_⟩
    · rintro ⟨later, reset | ⟨b, access', v, rfl, srst⟩⟩
      · rw [access] at reset; cases reset
      · rw [access] at access'
        cases access'
        cases (busAccess_softReset { s with bus := rest } srst).symm.trans performed
        exact ⟨rfl, rfl⟩
    · have noReset : ¬ isSoftReset s.params a := fun soft => noReset ⟨rest, .inr ⟨a, access, soft⟩⟩
      cases busAccess_hostUse performed noReset with
      | wroteCmd v write same =>
        obtain ⟨pc, cmd⟩ := writeCmd_cmd { s with bus := rest } v
        rw [same]
        refine .inr ⟨pc, cmd.imp_right fun grown => .inl ⟨v, rest, ?_, grown⟩⟩
        rw [access, write]
      | other rsp ent ie udf ovf out same =>
        rw [same]
        exact .inr ⟨rfl, .inl rfl⟩
  · exact ⟨fun _ => ⟨rfl, rfl⟩, fun noReset => absurd ⟨rest, .inl reset⟩ noReset⟩

/-- Settles O56: in FAULT the processor holds, and no access but a reset reaches what is frozen. -/
theorem onlyResetLeavesFault : Obligations.OnlyResetLeavesFault := by
  intro s t mode stepped noReset
  rcases step_cases s t stepped with
    ⟨rest, quiet, ran⟩ | ⟨a, rest, access, performed⟩ | ⟨rest, reset, rfl⟩
  · have held := ran.eq_of_fault mode
    rw [held]
    exact ⟨mode, ⟨rfl, rfl, rfl, rfl⟩, rfl, rfl, rfl, rfl, rfl, fun _ _ => rfl⟩
  · have noReset : ¬ isSoftReset s.params a := fun soft => noReset ⟨rest, .inr ⟨a, access, soft⟩⟩
    have busy {P : Prop} (later : List BusEvent)
        (quiet : s.bus = [] ∨ s.bus = .quiet :: later) : P := by
      rw [access] at quiet
      rcases quiet with quiet | quiet <;> cases quiet
    cases busAccess_hostUse performed noReset with
    | wroteCmd v write same =>
      rw [same, writeCmd_of_fault (s := { s with bus := rest }) v (.inl mode)]
      exact ⟨mode, ⟨rfl, rfl, rfl, rfl⟩, rfl, rfl, rfl, rfl, rfl, busy⟩
    | other rsp ent ie udf ovf out same =>
      rw [same]
      exact ⟨mode, ⟨rfl, rfl, rfl, rfl⟩, rfl, rfl, rfl, rfl, rfl, busy⟩
  · exact absurd ⟨rest, .inl reset⟩ noReset

/-- Settles O57: the processor's step always goes on, and an access does inside the window. -/
theorem stepsGoOn : Obligations.StepsGoOn := by
  intro s keeps
  rw [step, stepWith]
  split
  · exact procStep_goesOn s
  · exact procStep_goesOn _
  · next a rest access => exact busAccess_goesOn (keeps _ _ access)
  · exact ⟨_, rfl⟩

end Sys2Proof.Machine
end

section
/-! SUPPORT. The seven conditions of an illegal header in terms of numbers (30_encoding.md R122),
and the three steps it takes. -/

namespace Sys2Proof.Machine

/-! ### The opcode map's rows by their forms -/

theorem formOf_eq_none_iff : ∀ e < 6, ∀ o < 16,
    (formOf e o = none ↔ [3, 4, 8, 3, 7, 5].getD e 0 ≤ o) := by
  decide

/-- The operations whose ARG must be 0. -/
def zeroArgOps : List (Nat × Nat) :=
  [(0, 0), (0, 1), (1, 0), (1, 3), (2, 0), (2, 2), (2, 6), (2, 7), (3, 2), (4, 2), (4, 4), (4, 5),
    (4, 6), (5, 3)]

theorem formOf_eq_z_iff : ∀ e < 6, ∀ o < 16, (formOf e o = some .z ↔ (e, o) ∈ zeroArgOps) := by
  decide

theorem formOf_eq_p_iff : ∀ e < 6, ∀ o < 16, (formOf e o = some .p ↔ (e, o) = (1, 1)) := by
  decide

theorem formOf_eq_flag_iff : ∀ e < 6, ∀ o < 16,
    (formOf e o = some .s ∨ formOf e o = some .v ↔ (e, o) ∈ [(3, 0), (4, 0)]) := by
  decide

/-! ### Fields as numbers -/

theorem extract_high_eq_zero_iff {w k n : Nat} (x : BitVec w) (whole : w = k + n) :
    x.extractLsb' k n = 0#n ↔ x.toNat / 2 ^ k = 0 := by
  have small : x.toNat / 2 ^ k < 2 ^ n := by
    rw [Nat.div_lt_iff_lt_mul (by positivity), ← pow_add, Nat.add_comm, ← whole]
    exact x.isLt
  rw [BitVec.toNat_eq, BitVec.extractLsb'_toNat, Nat.shiftRight_eq_div_pow, Nat.mod_eq_of_lt small,
    BitVec.toNat_ofNat, Nat.zero_mod]

theorem eq_zero_iff_toNat {w : Nat} (x : BitVec w) : x = 0#w ↔ x.toNat = 0 := by
  rw [BitVec.toNat_eq, BitVec.toNat_ofNat, Nat.zero_mod]

theorem argKeepsForm_eq_false_iff (f : Form) (arg : BitVec 20) :
    argKeepsForm f arg = false ↔
      f = .z ∧ arg.toNat ≠ 0 ∨ f = .p ∧ arg.toNat / 2 ^ 4 ≠ 0 ∨
        (f = .s ∨ f = .v) ∧ arg.toNat / 2 ≠ 0 := by
  have preset := extract_high_eq_zero_iff (k := 4) (n := 16) arg rfl
  have flag := extract_high_eq_zero_iff (k := 1) (n := 19) arg rfl
  rw [pow_one] at flag
  cases f with
  | c => exact ⟨nofun, by simp⟩
  | z | p | s | v => simp [argKeepsForm, eq_zero_iff_toNat, preset, flag]

theorem not_instLegal_iff (p : Params) {e : Nat} (lt : e < 6) (o : Nat) (inst : BitVec 4) :
    ¬ instLegal p e o inst ↔
      (e = 0 ∧ inst.toNat ≠ 0) ∨
      (1 ≤ e ∧ e ≤ 4 ∧
        [0, p.lcgNinst, p.mtNinst, p.bbsNinst, p.drbgNinst].getD e 0 ≤ inst.toNat) ∨
      (e = 5 ∧ o ≠ 4 ∧ (inst.toNat / 4 = 3 ∨
        [p.lcgNinst, p.mtNinst, p.bbsNinst].getD (inst.toNat / 4) 0 ≤ inst.toNat % 4)) ∨
      (e = 5 ∧ o = 4 ∧ inst.toNat ≠ 0) := by
  have engine : inst.toNat / 4 < 4 := by omega
  have source : ¬ inst.toNat % 4 < srcInstCount p (inst.toNat / 4) ↔ (inst.toNat / 4 = 3 ∨
      [p.lcgNinst, p.mtNinst, p.bbsNinst].getD (inst.toNat / 4) 0 ≤ inst.toNat % 4) := by
    generalize inst.toNat / 4 = k at *
    interval_cases k <;> simp [srcInstCount]
  simp only [instLegal, eq_zero_iff_toNat]
  interval_cases e
  · simp
  · simp [instCount]
  · simp [instCount]
  · simp [instCount]
  · simp [instCount]
  · by_cases xor : o = 4
    · simp [xor]
    · simpa [xor] using source

theorem engOf_toNat (h : Word) : (engOf h).toNat = h.toNat / 2 ^ 28 := by
  rw [engOf, BitVec.extractLsb'_toNat, Nat.shiftRight_eq_div_pow]
  omega

theorem opOf_toNat (h : Word) : (opOf h).toNat = h.toNat / 2 ^ 24 % 2 ^ 4 := by
  rw [opOf, BitVec.extractLsb'_toNat, Nat.shiftRight_eq_div_pow]

theorem instOf_toNat (h : Word) : (instOf h).toNat = h.toNat / 2 ^ 20 % 2 ^ 4 := by
  rw [instOf, BitVec.extractLsb'_toNat, Nat.shiftRight_eq_div_pow]

theorem argOf_toNat (h : Word) : (argOf h).toNat = h.toNat % 2 ^ 20 := by
  rw [argOf, BitVec.extractLsb'_toNat, Nat.shiftRight_zero]

/-- A header is illegal for one of four reasons: its engine, its operation, its ARG or its INST. -/
theorem headerReject_ne_none_iff (p : Params) (h : Word) :
    headerReject p h ≠ none ↔
      6 ≤ (engOf h).toNat ∨
      [3, 4, 8, 3, 7, 5].getD (engOf h).toNat 0 ≤ (opOf h).toNat ∨
      ((((engOf h).toNat, (opOf h).toNat) ∈ zeroArgOps ∧ (argOf h).toNat ≠ 0) ∨
        (((engOf h).toNat, (opOf h).toNat) = (1, 1) ∧ (argOf h).toNat / 2 ^ 4 ≠ 0) ∨
        (((engOf h).toNat, (opOf h).toNat) ∈ [(3, 0), (4, 0)] ∧ (argOf h).toNat / 2 ≠ 0)) ∨
      ¬ instLegal p (engOf h).toNat (opOf h).toNat (instOf h) := by
  rw [Ne, headerReject_eq_none_iff]
  by_cases reserved : 6 ≤ (engOf h).toNat
  · simp [reserved]
  have eng := Nat.lt_of_not_le reserved
  have op : (opOf h).toNat < 16 := (opOf h).isLt
  rw [← formOf_eq_none_iff _ eng _ op, ← formOf_eq_z_iff _ eng _ op, ← formOf_eq_p_iff _ eng _ op,
    ← formOf_eq_flag_iff _ eng _ op]
  cases formOf (engOf h).toNat (opOf h).toNat with
  | none => simp
  | some f =>
    simp only [Option.some.injEq, exists_eq_left', reserved, eng, true_and, false_or, reduceCtorEq,
      ← argKeepsForm_eq_false_iff, not_and_or, Bool.not_eq_true]

/-! ### The three steps -/

/-- From IDLE an illegal header raises the fault and its response stands ready (R352). -/
theorem step_of_illegal {s : State} {h : Word} {rest : List Word} (quiet : s.bus = [])
    (head : s.cmd = h :: rest) (mode : s.mode = .idle) (calm : s.fpend = false)
    (illegal : headerReject s.params h ≠ none) :
    step s = .next (State.raiseIllegal { s with cmd := rest, pc := s.pc + 1 } h) := by
  rw [step_empty quiet, procStep_of_idle mode, readHeader_of_cons calm head,
    openPacket_of_illegal (s := { s with cmd := rest, pc := s.pc + 1 }) illegal]

theorem run_of_illegal {s : State} {h : Word} {rest : List Word} (quiet : s.bus = [])
    (head : s.cmd = h :: rest) (mode : s.mode = .idle) (calm : s.fpend = false)
    (illegal : headerReject s.params h ≠ none) (room : s.rsp.length + 2 ≤ s.params.rspDepth) :
    Host.Core.run Sys2Proof.core 3 s =
      .next { s with
        mode := .fault, hdr := 0#32, ops := [], phase := .operands, pc := s.pc + 1, cmd := []
        rsp := s.rsp ++ responseWords h .illegalCommand []
        err := { s.err with illegal := true }, faultInfo := h, fpend := false } :=
  (run_succ (step_of_illegal quiet head mode calm illegal) 2).trans
    (run_response _ [_] (State.raiseIllegal { s with cmd := rest, pc := s.pc + 1 } h) [] quiet rfl rfl
      room)

end Sys2Proof.Machine
end

section
/-! SUPPORT. The statement about illegal headers. -/

namespace Sys2Proof.Machine

/-- Settles O42: the conditions by `headerReject_ne_none_iff`, the three steps by `run_of_illegal`.
-/
theorem illegalHeaderFaults : Obligations.IllegalHeaderFaults := by
  intro s h rest eng op inst arg ninst illegal
  have reject : headerReject s.params h ≠ none ↔ illegal := by
    have rules := headerReject_ne_none_iff s.params h
    by_cases lt : (engOf h).toNat < 6
    · rw [not_instLegal_iff s.params lt] at rules
      simp only [engOf_toNat, opOf_toNat, instOf_toNat, argOf_toNat] at rules
      rw [rules, or_assoc, or_assoc]
      rfl
    · have reserved : 6 ≤ eng := by
        rw [engOf_toNat] at lt
        exact Nat.le_of_not_lt lt
      exact iff_of_true (rules.mpr (.inl (Nat.le_of_not_lt lt))) (.inl reserved)
  exact ⟨reject, fun bad quiet mode calm head room =>
    run_of_illegal quiet head mode calm (reject.mpr bad) room⟩

end Sys2Proof.Machine
end

section
/-! SUPPORT. BBS_INIT with and without a seed, its draw, and BBS_READ (43_bbs.md R230 to R234). -/

namespace Sys2Proof.Machine

/-! ### The packets -/

theorem encode_bbsInit_seeded (p : Params) (i : Inst) (a b x : Nat) :
    encode p (.bbsInit i a b (some x)) =
      (0x30000001#32 ||| BitVec.ofNat 32 i.val <<< 20) ::
        (wordsOfNat (p.bbsW / 64) a ++ wordsOfNat (p.bbsW / 64) b ++
          wordsOfNat (p.bbsW / 32) x) := by
  have opened : headerOf (.bbsInit i a b (some x)) =
      0x30000001#32 ||| BitVec.ofNat 32 i.val <<< 20 := by
    change header 3 0 (instNibble i) 1#20 = _
    revert i; decide
  rw [encode, opened]
  rfl

theorem encode_bbsInit_seedless (p : Params) (i : Inst) (a b : Nat) :
    encode p (.bbsInit i a b none) =
      (0x30000000#32 ||| BitVec.ofNat 32 i.val <<< 20) ::
        (wordsOfNat (p.bbsW / 64) a ++ wordsOfNat (p.bbsW / 64) b) := by
  rw [encode, operandsOf, List.append_nil]
  exact congrArg (· :: _) (header_inst_noArg 3 0 i)

theorem encode_bbsRead (p : Params) (i : Inst) :
    encode p (.bbsRead i) = [0x32000000#32 ||| BitVec.ofNat 32 i.val <<< 20] :=
  congrArg (· :: []) (header_inst_noArg 3 2 i)

/-! ### BBS_INIT -/

section
variable (s : State) (i : Inst) {p q x : Nat}

theorem exec_bbsInit_of_bad (bad : ¬ (p % 4 = 3 ∧ q % 4 = 3 ∧ p ≠ q)) (seed : Option Nat) :
    exec (.bbsInit i p q seed) s =
      .next (s.answered (responseHeader 3 0 (instNibble i) 0x01#8) []) := by
  have fails : bbsParamsOk p q = false := by
    rw [← Bool.not_eq_true, bbsParamsOk_iff]; exact bad
  refine (if_pos fails).trans ?_
  cases seed with
  | none => exact raise_of_header rfl .invalidParameter s
  | some y => exact raise_of_header rfl .invalidParameter s

theorem exec_bbsInit_of_badSeed (good : p % 4 = 3 ∧ q % 4 = 3 ∧ p ≠ q)
    (shared : Nat.gcd x (p * q) ≠ 1) :
    exec (.bbsInit i p q (some x)) s =
      .next (s.answered (responseHeader 3 0 (instNibble i) 0x02#8) []) := by
  have passes : ¬ bbsParamsOk p q = false := by rw [(bbsParamsOk_iff p q).mpr good]; decide
  exact (if_neg passes).trans ((if_pos shared).trans (raise_of_header rfl .invalidSeed s))

theorem exec_bbsInit_seedless (good : p % 4 = 3 ∧ q % 4 = 3 ∧ p ≠ q) :
    exec (.bbsInit i p q none) s = .next { s with mode := .exec, phase := .draw i p q [] } := by
  have passes : ¬ bbsParamsOk p q = false := by rw [(bbsParamsOk_iff p q).mpr good]; decide
  exact if_neg passes

end

/-! ### The draw -/

theorem bbsAccepts_iff (n c : Nat) :
    bbsAccepts n c = true ↔ 2 ≤ c ∧ c ≤ n - 1 ∧ Nat.gcd c n = 1 := by
  simp [bbsAccepts, and_assoc]

section
variable {s : State} (i : Inst) (p q : Nat) {acc : List Word}

theorem bbsTryCandidate_of_rejected
    (rejected : ¬ bbsAccepts (p * q) (bbsCandidate (p * q) acc) = true) :
    s.bbsTryCandidate i p q acc = { s with mode := .exec, phase := .draw i p q [] } :=
  if_neg rejected

theorem bbsTryCandidate_of_accepted
    (accepted : bbsAccepts (p * q) (bbsCandidate (p * q) acc) = true) :
    s.bbsTryCandidate i p q acc =
      (s.setBbs i (bbsInitial p q (bbsCandidate (p * q) acc))).answered
        (responseHeader 3 0 (instNibble i) 0x00#8) [] :=
  (if_pos accepted).trans <|
    Host.Outcome.next.inj <| finish_of_header (c := .bbsInit i p q none) (a := 0) rfl [] _

/-- `s` in a draw: the words `acc` of the candidate are read and `ent` is left in ENT. -/
def State.drawing (s : State) (i : Inst) (p q : Nat) (acc ent : List Word) : State :=
  { s with mode := .exec, phase := .draw i p q acc, ent := ent }

theorem step_drawing (quiet : s.bus = []) (acc ent : List Word) :
    step (s.drawing i p q acc ent) = .next ((s.drawing i p q acc ent).drawStep i p q acc) :=
  (step_empty (s := s.drawing i p q acc ent) quiet).trans (procStep_of_draw rfl rfl)

/-- The words a candidate lacks are read one a step. -/
theorem run_drawing (quiet : s.bus = []) (rest : List Word) :
    ∀ todo acc, acc.length + todo.length = candidateWords (p * q) →
      Host.Core.run Sys2Proof.core todo.length (s.drawing i p q acc (todo ++ rest)) =
        .next (s.drawing i p q (acc ++ todo) rest) := by
  intro todo
  induction todo with
  | nil => intro acc _; rw [List.append_nil]; rfl
  | cons w todo ih =>
    intro acc whole
    rw [List.length_cons] at whole
    have stepped : step (s.drawing i p q acc (w :: todo ++ rest)) =
        .next (s.drawing i p q (acc ++ [w]) (todo ++ rest)) := by
      rw [step_drawing i p q quiet,
        drawStep_of_cons (s := s.drawing i p q acc (w :: todo ++ rest)) i p q rfl (by omega)]
      rfl
    refine (run_succ stepped _).trans ((ih (acc ++ [w]) ?_).trans ?_)
    · rw [List.length_append, List.length_singleton]; omega
    · rw [List.append_assoc]; rfl

/-- The words of one candidate and its test. -/
theorem run_candidate (quiet : s.bus = []) (rest : List Word) {ws : List Word}
    (whole : ws.length = candidateWords (p * q)) :
    Host.Core.run Sys2Proof.core (ws.length + 1) (s.drawing i p q [] (ws ++ rest)) =
      .next ((s.drawing i p q ws rest).bbsTryCandidate i p q ws) := by
  have read := run_drawing i p q quiet rest ws [] ((Nat.zero_add _).trans whole)
  refine (run_add _ 1 _ _ read).trans (run_one _ _ ?_)
  rw [List.nil_append, step_drawing i p q quiet, drawStep_of_whole _ _ _ whole.ge]

/-- Rejected candidates are lost one after the other. -/
theorem run_rejected (quiet : s.bus = []) (rest : List Word) :
    ∀ rejected : List (List Word),
      (∀ ws ∈ rejected, ws.length = candidateWords (p * q) ∧
        ¬ bbsAccepts (p * q) (bbsCandidate (p * q) ws) = true) →
      Host.Core.run Sys2Proof.core (rejected.length * (candidateWords (p * q) + 1))
          (s.drawing i p q [] (rejected.flatten ++ rest)) =
        .next (s.drawing i p q [] rest) := by
  intro rejected
  induction rejected with
  | nil => intro _; rw [List.length_nil, Nat.zero_mul]; rfl
  | cons ws more ih =>
    intro lost
    obtain ⟨whole, refused⟩ := lost ws List.mem_cons_self
    have first := run_candidate i p q quiet (more.flatten ++ rest) whole
    rw [bbsTryCandidate_of_rejected i p q refused, whole] at first
    rw [List.length_cons, Nat.add_mul, Nat.one_mul, Nat.add_comm, List.flatten_cons,
      List.append_assoc]
    exact (run_add _ _ _ _ first).trans (ih fun vs mem => lost vs (List.mem_cons_of_mem _ mem))

end

end Sys2Proof.Machine
end

section
/-! SUPPORT. The statements about BBS_INIT, its draw and BBS_READ. -/

namespace Sys2Proof.Machine

/-- Settles O15: each branch of the command is its own lemma. -/
theorem bbsInitResult : Obligations.BbsInitResult := fun s i p q x =>
  ⟨⟨encode_bbsInit_seeded s.params i p q x, encode_bbsInit_seedless s.params i p q⟩,
    exec_bbsInit_of_bad s i, fun good => ⟨exec_bbsInit_of_badSeed s i good,
      exec_bbsInit_of_coprime s i good, exec_bbsInit_seedless s i good⟩⟩

/-- Settles O16: single steps by the equations of `drawStep`; the run by induction on the rejected
candidates (`run_rejected`), then the accepted one (`run_candidate`). -/
theorem seedlessDrawRuns : Obligations.SeedlessDrawRuns := by
  intro s i p q n nw candidate accepted initialised
  have accepts (ws : List Word) :
      bbsAccepts (p * q) (bbsCandidate (p * q) ws) = true ↔ accepted ws := bbsAccepts_iff _ _
  refine ⟨fun acc later quiet mode phase => ?_,
    fun rejected good rest factors lost whole fine quiet held => ?_⟩
  · let u : State := { s with bus := later }
    have stepped : step s = .next (u.drawStep i p q acc) :=
      (step_quiet s later quiet).trans (procStep_of_draw (s := u) mode phase)
    refine ⟨fun w rest lacks head => ?_, fun complete refused => ?_, fun complete fine => ?_⟩
    · exact stepped.trans (congrArg _ (drawStep_of_cons (s := u) i p q head lacks))
    · rw [stepped, drawStep_of_whole i p q complete,
        bbsTryCandidate_of_rejected i p q (mt (accepts acc).mp refused), ← mode]
    · rw [stepped, drawStep_of_whole i p q complete,
        bbsTryCandidate_of_accepted i p q ((accepts acc).mpr fine)]
      rfl
  · have lost' : ∀ ws ∈ rejected, ws.length = candidateWords (p * q) ∧
        ¬ bbsAccepts (p * q) (bbsCandidate (p * q) ws) = true := fun ws mem =>
      ⟨(lost ws mem).1, mt (accepts ws).mp (lost ws mem).2⟩
    have before := run_rejected i p q quiet (good ++ rest) rejected lost'
    have last := run_candidate i p q quiet rest whole
    rw [bbsTryCandidate_of_accepted i p q ((accepts good).mpr fine), whole] at last
    refine ⟨s.drawing i p q [] (rejected.flatten ++ (good ++ rest)), ?_, ?_⟩
    · rw [exec_bbsInit_seedless s i factors, ← List.append_assoc, State.drawing, ← held]
    · rw [Nat.add_mul, Nat.one_mul]
      exact (run_add _ _ _ _ before).trans last

/-- Settles O18: each of the four strings holds its number (`natOfWords_wordsOfNat`), which its
width bounds in a valid instance. -/
theorem bbsReadResult : Obligations.BbsReadResult := by
  intro s i
  refine ⟨encode_bbsRead s.params i, wordsOfNat (s.params.bbsW / 32) s.bbs[i].x,
    wordsOfNat (s.params.bbsW / 32) s.bbs[i].n, wordsOfNat (s.params.bbsW / 64) s.bbs[i].p,
    wordsOfNat (s.params.bbsW / 64) s.bbs[i].q, ?_, ?_, fun params valid legal => ?_, fun reset => ?_⟩
  · refine (finish_of_header rfl _ _).trans ?_
    rw [bbsReadWords]
    cases s.bbs[i].valid <;> rfl
  · simp
  · obtain ⟨-, ⟨pFits, qFits⟩, product, below, -⟩ := legal valid
    obtain ⟨-, -, -, -, -, ⟨multiple, -⟩, -⟩ := params
    have half : s.params.bbsW / 2 = 32 * (s.params.bbsW / 64) := by omega
    have full : s.params.bbsW = 32 * (s.params.bbsW / 32) := by omega
    have nFits : s.bbs[i].n < 2 ^ s.params.bbsW := by
      rw [product]
      calc s.bbs[i].p * s.bbs[i].q < 2 ^ (s.params.bbsW / 2) * 2 ^ (s.params.bbsW / 2) :=
            Nat.mul_lt_mul'' pFits qFits
        _ = 2 ^ s.params.bbsW := by rw [← pow_add]; congr 1; omega
    simp only [natOfWords_wordsOfNat, ← half, ← full]
    exact ⟨Nat.mod_eq_of_lt (below.trans nFits), Nat.mod_eq_of_lt nFits, Nat.mod_eq_of_lt pFits,
      Nat.mod_eq_of_lt qFits⟩
  · simp [natOfWords_wordsOfNat, reset, Bbs.reset]

end Sys2Proof.Machine
end

section
/-! SUPPORT. The packets and answers of the system commands, of LCG_INIT, LCG_PRESET and LCG_READ,
and of MT_CLONE, MT_READ and MT_WRITE (40_system.md, 41_lcg.md R160, R161, R163, 42_mt19937.md R201
to R203). -/

namespace Sys2Proof.Machine

/-! ### Words from numbers -/

/-- A number in bits below `k` and another from bit `k` on. -/
theorem ofNat_or_shiftLeft {low k : Nat} (high : Nat) (fits : low < 2 ^ k) :
    BitVec.ofNat 32 low ||| BitVec.ofNat 32 high <<< k = BitVec.ofNat 32 (low + high * 2 ^ k) := by
  have shifted : BitVec.ofNat 32 high <<< k = BitVec.ofNat 32 (high <<< k) := by
    apply BitVec.eq_of_toNat_eq
    simp [Nat.shiftLeft_eq]
  rw [shifted, ← BitVec.ofNat_or, Nat.or_comm, ← Nat.shiftLeft_add_eq_or_of_lt fits,
    Nat.shiftLeft_eq, Nat.add_comm]

theorem extract_eq_ofNat {w : Nat} (x : BitVec w) (k n : Nat) :
    x.extractLsb' k n = BitVec.ofNat n (x.toNat / 2 ^ k) := by
  apply BitVec.eq_of_toNat_eq
  rw [BitVec.extractLsb'_toNat, BitVec.toNat_ofNat, Nat.shiftRight_eq_div_pow]

theorem ofNat_toNat_bool (b : Bool) : BitVec.ofNat 32 b.toNat = if b then 1#32 else 0#32 := by
  cases b <;> rfl

/-! ### System commands -/

theorem infoCounts_eq {p : Params} (legal : p.Legal) :
    infoCounts p = BitVec.ofNat 32 (p.lcgNinst + p.mtNinst * 2 ^ 4 + p.bbsNinst * 2 ^ 8 +
      p.drbgNinst * 2 ^ 12 + p.hmacPreUpdate.toNat * 2 ^ 16) := by
  obtain ⟨-, ⟨-, lcg⟩, ⟨-, mt⟩, ⟨-, bbs⟩, ⟨-, drbg⟩, -⟩ := legal
  rw [infoCounts, ofNat_or_shiftLeft _ (by omega), ofNat_or_shiftLeft _ (by omega),
    ofNat_or_shiftLeft _ (by omega), ofNat_or_shiftLeft _ (by omega)]

theorem exec_sysInfo {s : State} (legal : s.params.Legal) :
    exec .sysInfo s = .next (s.answered 0x01000000#32
      [0x54585207#32,
        BitVec.ofNat 32 (s.params.lcgNinst + s.params.mtNinst * 2 ^ 4 + s.params.bbsNinst * 2 ^ 8 +
          s.params.drbgNinst * 2 ^ 12 + s.params.hmacPreUpdate.toNat * 2 ^ 16),
        BitVec.ofNat 32 s.params.bbsW, BitVec.ofNat 32 s.params.maxStrBytes,
        BitVec.ofNat 32 s.params.rangeMaxAttempts, BitVec.ofNat 32 s.params.cmdDepth,
        BitVec.ofNat 32 s.params.rspDepth, BitVec.ofNat 32 s.params.entDepth]) := by
  rw [← infoCounts_eq legal]
  exact finish_of_header (c := .sysInfo) rfl _ _

theorem encode_sysEcho (p : Params) {ws : List Word} (fits : ws.length < 2 ^ 20) :
    encode p (.sysEcho ws) = (0x02000000#32 ||| BitVec.ofNat 32 ws.length) :: ws := by
  rw [← countOf_setWidth ws fits]
  rfl

theorem exec_sysEcho (s : State) (ws : List Word) :
    exec (.sysEcho ws) s = .next (s.answered 0x02000000#32 ws) :=
  finish_of_header (c := .sysEcho ws) rfl _ _

/-! ### LCG -/

section
variable (s : State) (i : Inst) (seed a c : Word64) (m : BitVec 96)

theorem encode_lcgInit (p : Params) :
    encode p (.lcgInit i seed a c m) =
      (0x10000000#32 ||| BitVec.ofNat 32 i.val <<< 20) ::
        (wordsOf64 seed ++ wordsOf64 a ++ wordsOf64 c ++
          [m.extractLsb' 64 32, m.extractLsb' 32 32, m.extractLsb' 0 32]) := by
  rw [encode, operandsOf, write64_eq, write64_eq, write64_eq, writeM65_eq]
  exact congrArg (· :: _) (header_inst_noArg 1 0 i)

theorem exec_lcgInit_of_bad (bad : m.toNat = 0 ∨ 2 ^ 64 < m.toNat) :
    exec (.lcgInit i seed a c m) s =
      .next (s.answered (responseHeader 1 0 (instNibble i) 0x01#8) []) :=
  (if_pos bad).trans (raise_of_header rfl .invalidParameter s)

theorem exec_lcgInit_of_good (good : 0 < m.toNat ∧ m.toNat ≤ 2 ^ 64) :
    exec (.lcgInit i seed a c m) s =
      .next ((s.setLcg i (lcgInitial seed a c (BitVec.ofNat 65 m.toNat))).answered
        (responseHeader 1 0 (instNibble i) 0x00#8) []) := by
  have narrowed : m.setWidth 65 = BitVec.ofNat 65 m.toNat := by
    apply BitVec.eq_of_toNat_eq
    rw [BitVec.toNat_setWidth, BitVec.toNat_ofNat]
  rw [← narrowed]
  exact (if_neg (by omega)).trans (finish_of_header rfl _ _)

theorem encode_lcgPreset (p : Params) (preset : BitVec 4) :
    encode p (.lcgPreset i preset seed) =
      (0x11000000#32 ||| BitVec.ofNat 32 i.val <<< 20 ||| preset.setWidth 32) ::
        wordsOf64 seed := by
  have widened : (preset.setWidth 20).setWidth 32 = preset.setWidth 32 := by
    revert preset; decide
  rw [encode, operandsOf, write64_eq, headerOf, header_inst, widened]
  rfl

theorem lcgPresetParams_eq_none {preset : BitVec 4} (other : 3 ≤ preset.toNat) :
    lcgPresetParams preset = none := by
  rw [lcgPresetParams]
  split
  · omega
  · omega
  · omega
  · rfl

theorem exec_lcgPreset_of_other {preset : BitVec 4} (other : 3 ≤ preset.toNat) :
    exec (.lcgPreset i preset seed) s =
      .next (s.answered (responseHeader 1 1 (instNibble i) 0x01#8) []) := by
  have fails : exec (.lcgPreset i preset seed) s =
      raise (.lcgPreset i preset seed) .invalidParameter s := by
    rw [exec, execLcgPreset, lcgPresetParams_eq_none other]
  rw [fails]
  exact raise_of_header rfl .invalidParameter s

theorem exec_lcgPreset_of_row {preset : BitVec 4} {m : BitVec 65}
    (row : lcgPresetParams preset = some (a, c, m)) :
    exec (.lcgPreset i preset seed) s =
      .next ((s.setLcg i (lcgInitial seed a c m)).answered
        (responseHeader 1 1 (instNibble i) 0x00#8) []) := by
  have completes : exec (.lcgPreset i preset seed) s =
      finish (.lcgPreset i preset seed) [] (s.setLcg i (lcgInitial seed a c m)) := by
    rw [exec, execLcgPreset, row]
  rw [completes]
  exact finish_of_header rfl _ _

theorem encode_lcgRead (p : Params) :
    encode p (.lcgRead i) = [0x13000000#32 ||| BitVec.ofNat 32 i.val <<< 20] :=
  congrArg (· :: []) (header_inst_noArg 1 3 i)

theorem lcgReadWords_eq (l : Lcg) :
    lcgReadWords l = (if l.valid then 1#32 else 0#32) ::
      (wordsOf64 l.value ++ wordsOf64 l.a ++ wordsOf64 l.c ++
        [BitVec.ofNat 32 (l.m.toNat / 2 ^ 64), BitVec.ofNat 32 (l.m.toNat / 2 ^ 32),
          BitVec.ofNat 32 l.m.toNat]) := by
  have top : (l.m.extractLsb' 64 1).setWidth 32 = BitVec.ofNat 32 (l.m.toNat / 2 ^ 64) := by
    apply BitVec.eq_of_toNat_eq
    rw [BitVec.toNat_setWidth, BitVec.extractLsb'_toNat, BitVec.toNat_ofNat,
      Nat.shiftRight_eq_div_pow]
    have := l.m.isLt
    omega
  rw [lcgReadWords, ofNat_toNat_bool, top, extract_eq_ofNat, extract_eq_ofNat _ 0, pow_zero,
    Nat.div_one]

theorem exec_lcgRead :
    exec (.lcgRead i) s =
      .next (s.answered (responseHeader 1 3 (instNibble i) 0x00#8) (lcgReadWords s.lcg[i])) :=
  finish_of_header rfl _ _

end

/-! ### MT19937 -/

section
variable (s : State) (i : Inst)

theorem encode_mtClone (p : Params) {os : List Word} (fits : os.length < 2 ^ 20) :
    encode p (.mtClone i os) =
      (0x25000000#32 ||| BitVec.ofNat 32 i.val <<< 20 ||| BitVec.ofNat 32 os.length) :: os :=
  congrArg (· :: os) (header_inst_countOf 2 5 i os fits)

theorem exec_mtClone_of_short {os : List Word} (short : os.length < 624) :
    exec (.mtClone i os) s = .next (s.answered (responseHeader 2 5 (instNibble i) 0x06#8) []) :=
  (if_pos short).trans (raise_of_header rfl .insufficientData s)

theorem exec_mtClone_of_long {os : List Word} (long : 624 < os.length) :
    exec (.mtClone i os) s = .next (s.answered (responseHeader 2 5 (instNibble i) 0x01#8) []) :=
  (if_neg (Nat.lt_asymm long)).trans <|
    (if_pos long).trans (raise_of_header rfl .invalidParameter s)

theorem encode_mtRead (p : Params) :
    encode p (.mtRead i) = [0x26000000#32 ||| BitVec.ofNat 32 i.val <<< 20] :=
  congrArg (· :: []) (header_inst_noArg 2 6 i)

theorem encode_mtWrite (p : Params) (cur : Word) (ws : Vector Word 624) :
    encode p (.mtWrite i cur ws) =
      (0x27000000#32 ||| BitVec.ofNat 32 i.val <<< 20) :: cur :: ws.toList :=
  congrArg (· :: cur :: ws.toList) (header_inst_noArg 2 7 i)

variable {s i}

theorem exec_mtRead_of_invalid (invalid : s.mt[i].valid = false) :
    exec (.mtRead i) s = .next (s.answered (responseHeader 2 6 (instNibble i) 0x08#8) []) :=
  (if_pos invalid).trans (raise_of_header rfl .notInstantiated s)

theorem exec_mtRead_of_valid (valid : s.mt[i].valid = true) :
    exec (.mtRead i) s = .next (s.answered (responseHeader 2 6 (instNibble i) 0x00#8)
      (BitVec.ofNat 32 s.mt[i].cur.toNat :: s.mt[i].w.toList)) := by
  rw [BitVec.ofNat_toNat]
  exact (if_neg (by rw [valid]; decide)).trans (finish_of_header rfl _ _)

variable (s i)

theorem exec_mtWrite_of_bad {cur : Word} (ws : Vector Word 624) (bad : 624 < cur.toNat) :
    exec (.mtWrite i cur ws) s =
      .next (s.answered (responseHeader 2 7 (instNibble i) 0x01#8) []) :=
  (if_pos bad).trans (raise_of_header rfl .invalidParameter s)

theorem exec_mtWrite_of_good {cur : Word} (ws : Vector Word 624) (good : cur.toNat ≤ 624) :
    exec (.mtWrite i cur ws) s =
      .next ((s.setMt i { valid := true, w := ws, cur := BitVec.ofNat 10 cur.toNat }).answered
        (responseHeader 2 7 (instNibble i) 0x00#8) []) := by
  have cursor : cur.extractLsb' 0 10 = BitVec.ofNat 10 cur.toNat := by
    rw [extract_eq_ofNat, pow_zero, Nat.div_one]
  rw [← cursor]
  exact (if_neg (Nat.not_lt_of_le good)).trans (finish_of_header rfl _ _)

end

end Sys2Proof.Machine
end

section
/-! SUPPORT. The statements about these commands. -/

namespace Sys2Proof.Machine

/-- Settles O1: three commands that answer what they are given or the parameters. -/
theorem systemCommandsAnswer : Obligations.SystemCommandsAnswer := fun s =>
  ⟨⟨rfl, finish_of_header (c := .sysNop) rfl [] s⟩, ⟨rfl, exec_sysInfo⟩, fun ws fits =>
    ⟨encode_sysEcho s.params fits, exec_sysEcho s ws⟩⟩

/-- Settles O2: the check and the replacement. -/
theorem lcgInitResult : Obligations.LcgInitResult := by
  intro s i seed a c m
  refine ⟨encode_lcgInit i seed a c m s.params, exec_lcgInit_of_bad s i seed a c m, fun good => ?_⟩
  have below : m.toNat < 2 ^ 65 := by omega
  rw [exec_lcgInit_of_good s i seed a c m good, lcgInitial, BitVec.toNat_ofNat,
    Nat.mod_eq_of_lt below]
  rfl

/-- Settles O3: each of the three presets is a row of `lcgPresetParams`. -/
theorem lcgPresetResult : Obligations.LcgPresetResult := by
  intro s i seed
  refine ⟨fun preset => ⟨encode_lcgPreset i seed s.params preset, exec_lcgPreset_of_other s i seed⟩,
    fun row listed => ?_⟩
  simp only [List.mem_cons, List.not_mem_nil, or_false] at listed
  rcases listed with rfl | rfl | rfl
  · exact exec_lcgPreset_of_row s i seed _ _ (preset := 0#4) rfl
  · exact exec_lcgPreset_of_row s i seed _ _ (preset := 1#4) rfl
  · exact exec_lcgPreset_of_row s i seed _ _ (preset := 2#4) rfl

/-- Settles O6: the ten words by `lcgReadWords_eq`. -/
theorem lcgReadResult : Obligations.LcgReadResult := by
  intro s i
  refine ⟨encode_lcgRead i s.params, ?_, fun reset => ?_⟩
  · rw [exec_lcgRead, lcgReadWords_eq]
  · rw [exec_lcgRead, reset]
    rfl

/-- Settles O12: the two length checks, and the bank of `mtCloned`. -/
theorem mtCloneResult : Obligations.MtCloneResult := by
  intro s i os fits
  refine ⟨encode_mtClone i s.params fits, exec_mtClone_of_short s i, exec_mtClone_of_long s i,
    fun whole => ?_⟩
  have words : (Vector.ofFn fun k : Fin 624 => untemper (os.getD k.val 0#32)) =
      Vector.ofFn fun k => untemper (os[k.val]'(by omega)) := by
    congr 1
    funext k
    rw [List.getD_eq_getElem]
  rw [exec_mtClone_of_length s i os whole, mtCloned, words]
  rfl

/-- Settles O13: the answer of MT_READ names the cursor and the words, so MT_WRITE of it is a bank
with the same three fields. -/
theorem mtReadWriteResults : Obligations.MtReadWriteResults := by
  intro s t i j cur ws
  refine ⟨encode_mtRead i s.params, encode_mtWrite i s.params cur ws, exec_mtRead_of_invalid,
    exec_mtRead_of_valid, exec_mtWrite_of_bad s i ws, exec_mtWrite_of_good s i ws,
    fun valid legal read => ?_⟩
  have same := Host.Outcome.next.inj ((exec_mtRead_of_valid valid).symm.trans read)
  obtain ⟨cursor, words⟩ := List.cons.inj (congrArg State.responseData same)
  have number : cur.toNat = s.mt[i].cur.toNat := by
    rw [← cursor, BitVec.toNat_ofNat]
    exact Nat.mod_eq_of_lt (by omega)
  have bank : s.mt[i] = { valid := true, w := ws, cur := BitVec.ofNat 10 cur.toNat } := by
    rw [number, BitVec.ofNat_toNat, BitVec.setWidth_eq, ← Vector.toList_inj.mp words, ← valid]
  rw [exec_mtWrite_of_good t j ws (by rw [number]; exact legal), ← bank]
  rfl

end Sys2Proof.Machine
end

section
/-! SUPPORT. The two resets and the accesses to the host's registers (70_reset_and_hazards.md R390,
R391, 20_memory.md R80, R81). -/

namespace Sys2Proof.Machine

/-! ### Registers as words -/

theorem ctrlWord_eq (s : State) : s.ctrlWord = if s.ie then 2#32 else 0#32 := by
  rw [State.ctrlWord]
  cases s.ie <;> rfl

theorem errWord_eq (e : Err) : e.word =
    BitVec.ofNat 32 (e.cmdOvf.toNat + 2 * e.rspUdf.toNat + 4 * e.entOvf.toNat +
      8 * e.illegal.toNat) := by
  obtain ⟨cmdOvf, rspUdf, entOvf, illegal⟩ := e
  cases cmdOvf <;> cases rspUdf <;> cases entOvf <;> cases illegal <;> rfl

theorem errWord_reset : Err.reset.word = 0#32 := by decide

/-- STATUS where nothing is to report: CMD_FREE alone. -/
theorem statusWord_of_rest {s : State} (mode : s.mode = .idle) (calm : s.fpend = false)
    (cmd : s.cmd = []) (rsp : s.rsp = []) (ent : s.ent = []) (fresh : s.drbg[0].inst = false)
    (cmdDepth : 1 ≤ s.params.cmdDepth) (entDepth : 1 ≤ s.params.entDepth) :
    s.statusWord = BitVec.ofNat 32 (min 255 s.params.cmdDepth * 2 ^ 16) := by
  have free : (BitVec.ofNat 8 (min 255 s.params.cmdDepth)).setWidth 32 <<< 16 =
      BitVec.ofNat 32 (min 255 s.params.cmdDepth * 2 ^ 16) := by
    apply BitVec.eq_of_toNat_eq
    rw [BitVec.toNat_shiftLeft, BitVec.toNat_setWidth, BitVec.toNat_ofNat, BitVec.toNat_ofNat,
      Nat.shiftLeft_eq]
    omega
  have cmdFull : s.cmdFull = false := by simp [State.cmdFull, cmd]; omega
  have entFull : s.entFull = false := by simp [State.entFull, ent]; omega
  have busy : s.busy = false := by simp [State.busy, cmd, mode]
  have entWait : s.entWait = false := by simp [State.entWait, State.inEntRead, mode]
  have faultFlag : s.faultFlag = false := by simp [State.faultFlag, mode, calm]
  have rspValid : s.rspValid = false := by simp [State.rspValid, rsp]
  have unused : s.drbg[0].state = .uninstantiated := if_pos fresh
  rw [← free, State.statusWord, cmdFull, entFull, busy, entWait, faultFlag, rspValid, unused, cmd,
    rsp]
  simp [flagBit, DrbgState.code]

/-! ### Accesses -/

theorem step_access {s : State} {a : Access} {later : List BusEvent}
    (next : s.bus = .access a :: later) : step s = busAccess a { s with bus := later } := by
  simp only [step, stepWith, next]

theorem base_windowOffset (s : State) {off : Nat} (inside : off < 0x20) :
    windowOffset s.params (s.params.blockBase + off) = some off :=
  windowOffset_base_add s.params inside

/-- What a read of a register but RSP returns (R80). -/
theorem readReg_of_ne_rsp (s : State) {off : Nat} (inside : off < 0x20) (aligned : off % 4 = 0)
    (notRsp : off ≠ 0x10) :
    s.readReg off = (
      if off = 0x00 then 0x54585207#32
      else if off = 0x04 then (if s.ie then 2#32 else 0#32)
      else if off = 0x08 then s.statusWord
      else if off = 0x18 then
        BitVec.ofNat 32 (s.err.cmdOvf.toNat + 2 * s.err.rspUdf.toNat + 4 * s.err.entOvf.toNat +
          8 * s.err.illegal.toNat)
      else if off = 0x1C then s.faultInfo
      else 0#32, s) := by
  rw [← errWord_eq, ← ctrlWord_eq]
  rcases wordOffset_cases inside aligned with rfl | rfl | rfl | rfl | rfl | rfl | rfl | rfl
  case inr.inr.inr.inr.inl => exact absurd rfl notRsp
  all_goals rfl

/-- The registers a write does not reach (R80). -/
theorem writeReg_of_readOnly (s : State) (v : Word) {off : Nat}
    (readOnly : off ∈ [0x00, 0x08, 0x10, 0x1C]) : s.writeReg off v = s := by
  simp only [List.mem_cons, List.not_mem_nil, or_false] at readOnly
  rcases readOnly with rfl | rfl | rfl | rfl <;> rfl

/-! ### The two resets -/

theorem hardReset_get (s : State) (i : Inst) :
    s.hardReset.lcg[i] = Lcg.reset ∧ s.hardReset.mt[i] = Mt.reset s.params.mtRamInit[i] ∧
    s.hardReset.bbs[i] = Bbs.reset ∧ s.hardReset.drbg[i] = Drbg.reset := by
  simp [State.hardReset, State.resetOf]

end Sys2Proof.Machine
end

section
/-! SUPPORT. The statements about resets and register accesses. -/

namespace Sys2Proof.Machine

/-- Settles O51: the reset state, register by register. -/
theorem hardResetLeaves : Obligations.HardResetLeaves := by
  intro s later next
  have stepped : step s = .next (State.hardReset { s with bus := later }) := by
    simp only [step, stepWith, next]
  refine ⟨_, stepped, rfl, rfl, rfl, rfl, rfl, rfl, rfl, rfl, rfl, rfl, rfl, rfl, rfl, rfl,
    fun legal => ?_, errWord_reset, rfl, fun i => ?_⟩
  · obtain ⟨-, -, -, -, -, -, -, -, ⟨cmdDepth, -⟩, -, ⟨entDepth, -⟩⟩ := legal
    exact statusWord_of_rest rfl rfl rfl rfl rfl rfl cmdDepth entDepth
  · obtain ⟨lcg, mt, bbs, drbg⟩ := hardReset_get { s with bus := later } i
    exact ⟨lcg, mt, bbs, drbg, by rw [drbg]; rfl⟩

/-- Settles O52: the write is the soft reset (`busAccess_softReset`). -/
theorem softResetLeaves : Obligations.SoftResetLeaves := by
  intro s v later next srst
  have banks : (s.mt.map fun b => Mt.reset b.w) =
      Vector.ofFn fun i : Fin 4 => { valid := false, w := s.mt[i].w, cur := 624#10 } := by
    ext k hk : 1
    simp [Mt.reset]
  rw [step_access next, busAccess_softReset { s with bus := later } srst, ← banks]
  rfl

/-- Settles O53: refused accesses by `busAccess_of_refused`, performed ones register by register. -/
theorem registerAccesses : Obligations.RegisterAccesses := by
  intro s off bits v inside base after
  have window := base_windowOffset s inside
  refine ⟨fun a later next => step_access next, fun bad => ⟨?_, ?_⟩, fun aligned notRsp => ?_,
    fun readOnly => ?_, ?_, ?_⟩
  · exact busAccess_of_refused (a := .read bits base) window (by rw [Access.bits]; tauto)
  · exact busAccess_of_refused (a := .write bits base v) window (by rw [Access.bits]; tauto)
  · refine (busAccess_read s inside aligned).trans ?_
    rw [readReg_of_ne_rsp s inside aligned notRsp]
    rfl
  · have aligned : off % 4 = 0 := by
      simp only [List.mem_cons, List.not_mem_nil, or_false] at readOnly
      omega
    refine (busAccess_write s v inside aligned).trans ?_
    rw [writeReg_of_readOnly s v readOnly]
    rfl
  · rintro rfl noReset
    refine (busAccess_write s v inside rfl).trans ?_
    rw [State.writeReg, State.writeCtrl, if_neg (by rw [noReset]; decide)]
    rfl
  · rintro rfl
    exact busAccess_write s v inside rfl

end Sys2Proof.Machine
end

section
/-! SUPPORT. Byte strings in words (20_memory.md R90, R93, R116). -/

namespace Sys2Proof.Machine

/-- The bytes of a packed string are the string and zeros after it (R93). -/
theorem packBytes_bytes (b : List Byte) :
    ∃ pad, (packBytes b).flatMap wordBytes = b ++ List.replicate pad 0#8 := by
  induction b using packBytes.induct with
  | case1 => exact ⟨0, rfl⟩
  | case2 a => exact ⟨3, by simp [packBytes, wordBytes_word4, List.replicate]⟩
  | case3 a b => exact ⟨2, by simp [packBytes, wordBytes_word4, List.replicate]⟩
  | case4 a b c => exact ⟨1, by simp [packBytes, wordBytes_word4, List.replicate]⟩
  | case5 a b c d rest ih =>
    obtain ⟨pad, bytes⟩ := ih
    exact ⟨pad, by simp [packBytes, wordBytes_word4, bytes]⟩

/-- Byte `p` of a packed string (R90). -/
theorem packBytes_get (b : List Byte) {p : Nat} (inside : p < 4 * ceilDiv b.length 4) :
    ((packBytes b).getD (p / 4) 0#32).extractLsb' (24 - 8 * (p % 4)) 8 = b.getD p 0#8 := by
  obtain ⟨pad, bytes⟩ := packBytes_bytes b
  rw [← wordsBytes_get _ _ (by rw [packBytes_length]; exact inside), bytes]
  by_cases within : p < b.length
  · rw [List.getD_append _ _ _ _ within]
  · rw [List.getD_append_right _ _ _ _ (Nat.le_of_not_lt within),
      List.getD_eq_default _ _ (Nat.le_of_not_lt within), List.getD_eq_getElem?_getD,
      List.getElem?_replicate]
    split <;> rfl

/-- Words whose first bytes are a string, whatever is behind them, unpack to it (R116). -/
theorem unpackBytes_of_get {b : List Byte} {ws : List Word}
    (enough : b.length ≤ 4 * ws.length)
    (same : ∀ p, p < b.length →
      (ws.getD (p / 4) 0#32).extractLsb' (24 - 8 * (p % 4)) 8 = b.getD p 0#8) :
    unpackBytes b.length ws = b := by
  refine List.ext_getElem ?_ fun p inWords inside => ?_
  · rw [unpackBytes, List.length_take, flatMap_wordBytes_length, Nat.min_eq_left enough]
  · have byte := same p inside
    rw [← wordsBytes_get _ _ (inside.trans_le enough), List.getD_eq_getElem _ _ inside,
      List.getD_eq_getElem _ _ (by rw [flatMap_wordBytes_length]; omega)] at byte
    rw [← byte]
    exact List.getElem_take

end Sys2Proof.Machine
end

section
/-! SUPPORT. The statement about byte strings. -/

namespace Sys2Proof.Machine

/-- Settles O21: byte by byte both ways. -/
theorem byteStringPacking : Obligations.ByteStringPacking := by
  intro b
  refine ⟨packBytes_length b, fun p => packBytes_get b, fun ws rest fits count same => ?_⟩
  have length : (BitVec.ofNat 32 b.length).toNat = b.length := by
    rw [BitVec.toNat_ofNat]
    exact Nat.mod_eq_of_lt fits
  have enough : b.length ≤ 4 * ws.length := by rw [count, ceilDiv]; omega
  rw [readStr, length, ← count, readWords_append, Option.map_some, unpackBytes_of_get enough same]

end Sys2Proof.Machine
end

section
/-! SUPPORT. What the DRBG commands answer, in closed form (44_drbg.md R260 to R262, R265, R269,
R271), and how many Generates an interval allows (R274). -/

namespace Sys2Proof.Machine

/-! ### The packets -/

section
variable (p : Params) (i : Inst)

theorem encode_drbgInstantiate (variant : Variant) (e n ps : List Byte) :
    encode p (.drbgInstantiate i variant e n ps) =
      (0x40000000#32 ||| BitVec.ofNat 32 i.val <<< 20 ||| BitVec.ofNat 32 (variantBit variant)) ::
        ((BitVec.ofNat 32 e.length :: packBytes e) ++ (BitVec.ofNat 32 n.length :: packBytes n) ++
          (BitVec.ofNat 32 ps.length :: packBytes ps)) := by
  cases variant with
  | hmac => exact congrArg (· :: _) (header_inst 4 0 i 0#20)
  | hash => exact congrArg (· :: _) (header_inst 4 0 i 1#20)

theorem encode_drbgGenerate (n : Count) (a : List Byte) :
    encode p (.drbgGenerate i n a) =
      (0x41000000#32 ||| BitVec.ofNat 32 i.val <<< 20 ||| n.setWidth 32) ::
        BitVec.ofNat 32 a.length :: packBytes a :=
  congrArg (· :: _) (header_inst 4 1 i n)

theorem encode_drbgReseed (e a : List Byte) :
    encode p (.drbgReseed i e a) =
      (0x42000000#32 ||| BitVec.ofNat 32 i.val <<< 20) ::
        ((BitVec.ofNat 32 e.length :: packBytes e) ++
          (BitVec.ofNat 32 a.length :: packBytes a)) :=
  congrArg (· :: _) (header_inst_noArg 4 2 i)

theorem encode_drbgSetInterval (v : Word) :
    encode p (.drbgSetInterval i v) = [0x45000000#32 ||| BitVec.ofNat 32 i.val <<< 20, v] :=
  congrArg (· :: [v]) (header_inst_noArg 4 5 i)

theorem encode_drbgRead :
    encode p (.drbgRead i) = [0x46000000#32 ||| BitVec.ofNat 32 i.val <<< 20] :=
  congrArg (· :: []) (header_inst_noArg 4 6 i)

end

/-! ### What the operations leave of an instance -/

theorem low32_replicate (x : Byte) : low32 (Vector.replicate 55 x) = Vector.replicate 32 x := by
  ext k hk
  simp [low32]

theorem instantiate_hmac (d : Drbg) (sm : List Byte) :
    let kv := updatedKeyV (Vector.replicate 32 0x00#8) (Vector.replicate 32 0x01#8) sm
    d.instantiate .hmac sm =
      { inst := true, variant := .hmac, v := fill55 kv.2, k := fill55 kv.1, ctr := 1#32
        interval := d.interval } := by
  simp only [Drbg.instantiate, hmacUpdate_eq, low32_replicate, low32_fill55]
  rfl

theorem instantiate_hash (d : Drbg) (sm : List Byte) :
    d.instantiate .hash sm =
      { inst := true, variant := .hash, v := field55 (hashDfBytes sm)
        k := field55 (hashDfBytes ([0x00#8] ++ hashDfBytes sm)), ctr := 1#32
        interval := d.interval } := by
  rw [Drbg.instantiate, hashDf55_eq, hashDf55_eq]
  rfl

section
variable {d : Drbg}

theorem reseed_hmac (variant : d.variant = .hmac) (e a : List Byte) :
    let kv := updatedKeyV (low32 d.k) (low32 d.v) (e ++ a)
    d.reseed e a = { d with v := fill55 kv.2, k := fill55 kv.1, ctr := 1#32, inst := true } := by
  simp only [Drbg.reseed, variant, hmacUpdate_eq]
  rfl

theorem reseed_hash (variant : d.variant = .hash) (e a : List Byte) :
    let v := hashDfBytes ([0x01#8] ++ d.v.toList ++ e ++ a)
    d.reseed e a =
      { d with v := field55 v, k := field55 (hashDfBytes ([0x00#8] ++ v)), ctr := 1#32
               inst := true } := by
  simp only [Drbg.reseed, variant, hashDf55_eq, List.cons_append]
  rfl

theorem reseed_inst_ctr (d : Drbg) (e a : List Byte) :
    (d.reseed e a).inst = true ∧ (d.reseed e a).ctr = 1#32 := by
  cases variant : d.variant with
  | hmac => rw [reseed_hmac variant]; exact ⟨rfl, rfl⟩
  | hash => rw [reseed_hash variant]; exact ⟨rfl, rfl⟩

theorem not_exhausted (within : d.ctr.toNat ≤ d.interval.toNat) : ¬ d.exhausted = true :=
  fun exhausted => Nat.not_lt_of_le within (of_decide_eq_true exhausted)

theorem generate_of_within (pre : Bool) (n : Nat) (a : List Byte)
    (within : d.ctr.toNat ≤ d.interval.toNat) :
    d.generate pre n a =
      .ok ((d.produce pre n a).1,
        { (d.produce pre n a).2 with ctr := (d.produce pre n a).2.ctr + 1 }) :=
  if_neg (not_exhausted within)

/-- Key and V before the output: after an update where HMAC_PRE_UPDATE asks for one (R269). -/
def startKeyV (pre : Bool) (d : Drbg) (a : List Byte) : Vector Byte 32 × Vector Byte 32 :=
  if pre = true ∧ a ≠ [] then updatedKeyV (low32 d.k) (low32 d.v) a else (low32 d.k, low32 d.v)

theorem preUpdate_eq (pre : Bool) (d : Drbg) (a : List Byte) :
    ∃ k v, (if pre && decide (a.length > 0) then d.hmacUpdate a else d) = { d with k := k, v := v } ∧
      (low32 k, low32 v) = startKeyV pre d a := by
  have asked : (pre && decide (a.length > 0)) = true ↔ pre = true ∧ a ≠ [] := by
    simp [List.length_pos_iff]
  rw [startKeyV]
  by_cases update : pre = true ∧ a ≠ []
  · rw [if_pos (asked.mpr update), if_pos update, hmacUpdate_eq]
    exact ⟨_, _, rfl, by rw [low32_fill55, low32_fill55]⟩
  · rw [if_neg (mt asked.mp update), if_neg update]
    exact ⟨d.k, d.v, rfl, rfl⟩

/-- The output of the HMAC variant and what it leaves (R269). -/
theorem produce_hmac (variant : d.variant = .hmac) (pre : Bool) (n : Nat) (a : List Byte) :
    let kv := startKeyV pre d a
    let blocks := ceilDiv n 32
    let after := updatedKeyV kv.1 (hmacChain kv.1 kv.2 blocks) a
    d.produce pre n a =
      (((List.range blocks).flatMap fun j => (hmacChain kv.1 kv.2 (j + 1)).toList).take n,
        { d with k := fill55 after.1, v := fill55 after.2 }) := by
  obtain ⟨k, v, started, start⟩ := preUpdate_eq pre d a
  simp only [Drbg.produce, variant, started]
  simp only [← start, hmacBlocks_eq, hmacUpdate_eq]
  by_cases none : ceilDiv n 32 = 0
  · simp [none, hmacChain]
  · simp [none, low32_fill55]

/-- V as a number, with the additional input added when there is one (R269). -/
def addedInput (d : Drbg) (a : List Byte) : Nat :=
  if a = [] then natOfBytes d.v.toList
  else (natOfBytes d.v.toList + natOfBytes (Config.hash ([0x02#8] ++ d.v.toList ++ a)).toList) %
    2 ^ 440

theorem vNat_lt (v : Vector Byte 55) : natOfBytes v.toList < 2 ^ 440 := by
  have bound := natOfBytes_lt v.toList
  have bits : 8 * 55 = 440 := rfl
  rwa [Vector.length_toList, bits] at bound

theorem addedInput_lt (d : Drbg) (a : List Byte) : addedInput d a < 2 ^ 440 := by
  rw [addedInput]
  split
  · exact vNat_lt d.v
  · exact Nat.mod_lt _ (by positivity)

theorem hashAddInput_eq (d : Drbg) (a : List Byte) :
    d.hashAddInput a = { d with v := field55 (bytesOfNat 55 (addedInput d a)) } := by
  rw [addedInput]
  cases a with
  | nil =>
    have bytes := bytesOfNat_natOfBytes d.v.toList
    rw [Vector.length_toList] at bytes
    rw [if_pos rfl, bytes, field55_vec]
    rfl
  | cons x xs =>
    rw [if_neg (List.cons_ne_nil x xs), ← bytes55_mod]
    rfl

/-- The output of the Hash variant and what it leaves (R269). -/
theorem produce_hash (variant : d.variant = .hash) (pre : Bool) (n : Nat) (a : List Byte) :
    let v1 := addedInput d a
    let h := natOfBytes (Config.hash ([0x03#8] ++ bytesOfNat 55 v1)).toList
    d.produce pre n a =
      (((List.range (ceilDiv n 32)).flatMap fun j =>
          (Config.hash (bytesOfNat 55 ((v1 + j) % 2 ^ 440))).toList).take n,
        { d with v := field55 (bytesOfNat 55
          (v1 + h + natOfBytes d.k.toList + d.ctr.toNat)) }) := by
  have small := addedInput_lt d a
  have stored : (field55 (bytesOfNat 55 (addedInput d a))).toList = bytesOfNat 55 (addedInput d a) :=
    field55_toList _ (bytesOfNat_length _ _)
  have number : natOfBytes (bytesOfNat 55 (addedInput d a)) = addedInput d a := by
    rw [natOfBytes_bytesOfNat]
    exact Nat.mod_eq_of_lt small
  simp only [Drbg.produce, variant, hashAddInput_eq, Drbg.hashPost, Drbg.setV, Drbg.vNat, Drbg.cNat,
    stored, number, hashgen_eq _ _ small, List.singleton_append, -Nat.reducePow]

end

/-! ### The commands -/

section
variable {s : State} {i : Inst}

theorem tooLong_eq_true {p : Params} {b : List Byte} (long : p.maxStrBytes < b.length) :
    tooLong p b = true :=
  decide_eq_true long

theorem exec_drbgInstantiate_of_long (variant : Variant) {e n ps : List Byte}
    (long : s.params.maxStrBytes < e.length ∨ s.params.maxStrBytes < n.length ∨
      s.params.maxStrBytes < ps.length) :
    exec (.drbgInstantiate i variant e n ps) s =
      .next (s.answered (responseHeader 4 0 (instNibble i) 0x01#8) []) :=
  (if_pos (by simpa [tooLong, or_assoc] using long)).trans
    (raise_of_header rfl .invalidParameter s)

theorem exec_drbgReseed_of_long {e a : List Byte}
    (long : s.params.maxStrBytes < e.length ∨ s.params.maxStrBytes < a.length) :
    exec (.drbgReseed i e a) s =
      .next (s.answered (responseHeader 4 2 (instNibble i) 0x01#8) []) :=
  (if_pos (by simpa [tooLong] using long)).trans (raise_of_header rfl .invalidParameter s)

theorem exec_drbgGenerate_of_long (n : Count) {a : List Byte} (inst : s.drbg[i].inst = true)
    (long : s.params.maxStrBytes < a.length) :
    exec (.drbgGenerate i n a) s =
      .next (s.answered (responseHeader 4 1 (instNibble i) 0x01#8) []) :=
  (if_neg (by rw [inst]; decide)).trans
    ((if_pos (tooLong_eq_true long)).trans (raise_of_header rfl .invalidParameter s))

theorem exec_drbgGenerate_of_exhausted (n : Count) {a : List Byte} (inst : s.drbg[i].inst = true)
    (fits : a.length ≤ s.params.maxStrBytes)
    (exhausted : s.drbg[i].interval.toNat < s.drbg[i].ctr.toNat) :
    exec (.drbgGenerate i n a) s =
      .next (s.answered (responseHeader 4 1 (instNibble i) 0x03#8) []) :=
  exec_drbgGenerate_of_error (st := .reseedRequired) inst fits (if_pos (decide_eq_true exhausted))

theorem exec_drbgSetInterval_of_illegal {v : Word} (bad : v.toNat = 0 ∨ 2 ^ 31 < v.toNat) :
    exec (.drbgSetInterval i v) s =
      .next (s.answered (responseHeader 4 5 (instNibble i) 0x01#8) []) :=
  (if_pos (by omega)).trans (raise_of_header rfl .invalidParameter s)

end

/-- The flags word of DRBG_READ (R271). -/
theorem drbgReadFlags_eq (d : Drbg) :
    (BitVec.ofNat 32 d.inst.toNat ||| BitVec.ofNat 32 (variantBit d.variant) <<< 1 |||
      d.state.code.setWidth 32 <<< 8) =
    BitVec.ofNat 32 ((if d.inst then 1 else 0) + (if d.variant = .hash then 2 else 0) +
      (if d.inst = false then 0 else if d.interval.toNat < d.ctr.toNat then 0x200 else 0x100)) := by
  rw [drbgState_code]
  by_cases exhausted : d.interval.toNat < d.ctr.toNat <;> simp only [exhausted, if_true, if_false] <;>
    cases d.inst <;> cases d.variant <;> rfl

theorem vlen_eq (d : Drbg) : d.vlen = if d.variant = .hmac then 32 else 55 := by
  rw [Drbg.vlen]
  cases d.variant <;> rfl

/-! ### The budget of an interval -/

section
variable {s : State} {i : Inst}

/-- A Generate within the interval answers OK and counts one. -/
theorem exec_drbgGenerate_counts (len : Count) (inst : s.drbg[i].inst = true)
    (legal : s.drbg[i].Legal) (within : s.drbg[i].ctr.toNat ≤ s.drbg[i].interval.toNat) :
    ∃ t, exec (.drbgGenerate i len []) s = .next t ∧ t.responseStatus = some 0x00#8 ∧
      t.drbg[i].ctr = s.drbg[i].ctr + 1#32 ∧ t.drbg[i].interval = s.drbg[i].interval ∧
      t.drbg[i].inst = true ∧ t.drbg[i].Legal ∧ t.params = s.params := by
  rcases generate_cases s.params.hmacPreUpdate len.toNat [] s.drbg[i] with
    ⟨exhausted, -⟩ | ⟨-, out, v, k, -, made⟩
  · exact absurd within (Nat.not_le_of_lt exhausted)
  · have drew := generate_drew _ _ _ _ _ _ inst made
    refine ⟨_, exec_drbgGenerate_of_ok inst (Nat.zero_le _) made, ?_, ?_⟩
    · rw [answered_responseStatus, responseHeader_status]
    · rw [answered_drbg_get, State.setDrbg_get_self]
      exact ⟨rfl, rfl, inst, drew.legal legal, rfl⟩

/-- As many Generates as the interval has left answer OK. -/
theorem generateTimes_of_budget (len : Count) (n : Nat) :
    ∀ s : State, s.drbg[i].inst = true → s.drbg[i].Legal →
      s.drbg[i].ctr.toNat + n ≤ s.drbg[i].interval.toNat + 1 →
      ∃ t, generateTimes i len n s = some t ∧ t.drbg[i].ctr.toNat = s.drbg[i].ctr.toNat + n ∧
        t.drbg[i].interval = s.drbg[i].interval ∧ t.drbg[i].inst = true ∧ t.drbg[i].Legal ∧
        t.params = s.params := by
  induction n with
  | zero => exact fun s inst legal _ => ⟨s, rfl, rfl, rfl, inst, legal, rfl⟩
  | succ n ih =>
    intro s inst legal budget
    obtain ⟨t, ran, status, ctr, interval, inst', legal', params⟩ :=
      exec_drbgGenerate_counts len inst legal (by omega)
    have counted : t.drbg[i].ctr.toNat = s.drbg[i].ctr.toNat + 1 := by
      obtain ⟨-, bound, -⟩ := legal
      rw [ctr, BitVec.toNat_add, BitVec.toNat_ofNat]
      omega
    obtain ⟨u, more, ctr', interval', rest⟩ :=
      ih t inst' legal' (by rw [counted, interval]; omega)
    refine ⟨u, ?_, by omega, interval'.trans interval, ?_⟩
    · rw [generateTimes, ran]
      exact (if_pos status).trans more
    · rwa [params] at rest

end

end Sys2Proof.Machine
end

section
/-! SUPPORT. The statements about the DRBG commands. -/

namespace Sys2Proof.Machine

/-- Settles O22: both variants from the seed material. -/
theorem drbgInstantiateResult : Obligations.DrbgInstantiateResult := by
  intro s i variant e n ps d sm
  refine ⟨fun _ _ _ => encode_drbgInstantiate s.params i variant e n ps,
    exec_drbgInstantiate_of_long variant, fun eFits nFits psFits => ?_⟩
  refine (exec_drbgInstantiate_of_fits variant eFits nFits psFits).trans ?_
  cases variant with
  | hmac => rw [instantiate_hmac]; rfl
  | hash => rw [instantiate_hash]; rfl

/-- Settles O23: the checks in order, and everything a Generate can do (`generate_cases`). -/
theorem drbgGenerateChecks : Obligations.DrbgGenerateChecks := by
  intro s i n a d
  refine ⟨fun _ => encode_drbgGenerate s.params i n a, exec_drbgGenerate_of_uninstantiated n a,
    exec_drbgGenerate_of_long n, exec_drbgGenerate_of_exhausted n, fun inst fits within => ?_⟩
  rcases generate_cases s.params.hmacPreUpdate n.toNat a d with
    ⟨exhausted, -⟩ | ⟨-, out, v, k, length, made⟩
  · exact absurd within (Nat.not_le_of_lt exhausted)
  · exact ⟨out, v, k, length, exec_drbgGenerate_of_ok inst fits made⟩

/-- Settles O24: the output and the state of the HMAC variant (`produce_hmac`). -/
theorem drbgGenerateHmac : Obligations.DrbgGenerateHmac := by
  intro s i n a d inst variant fits within
  have made := generate_of_within s.params.hmacPreUpdate n.toNat a within
  rw [produce_hmac variant] at made
  exact exec_drbgGenerate_of_ok inst fits made

/-- Settles O25: the output and the state of the Hash variant (`produce_hash`). -/
theorem drbgGenerateHash : Obligations.DrbgGenerateHash := by
  intro s i n a d inst variant fits within
  have made := generate_of_within s.params.hmacPreUpdate n.toNat a within
  rw [produce_hash variant] at made
  exact exec_drbgGenerate_of_ok inst fits made

/-- Settles O26: both variants, from any state of the instance. -/
theorem drbgReseedResult : Obligations.DrbgReseedResult := by
  intro s i e a d
  refine ⟨fun _ _ => encode_drbgReseed s.params i e a, exec_drbgReseed_of_long,
    fun eFits aFits => ?_⟩
  refine (exec_drbgReseed_of_fits eFits aFits).trans ?_
  cases variant : d.variant with
  | hmac => rw [reseed_hmac variant, variant]; rfl
  | hash => rw [reseed_hash variant, variant]; rfl

/-- Settles O30: the bounds of the interval, and the words of DRBG_READ. -/
theorem drbgIntervalAndRead : Obligations.DrbgIntervalAndRead := by
  intro s i v d vlen
  refine ⟨encode_drbgSetInterval s.params i v, encode_drbgRead s.params i,
    exec_drbgSetInterval_of_illegal, fun good => exec_drbgSetInterval_of_legal good.1 good.2, ?_⟩
  refine (finish_of_header rfl (drbgReadWords d) s).trans ?_
  rw [drbgReadWords, drbgReadFlags_eq, Drbg.vBytes, vlen_eq]

/-- Settles O32: the Generates count up to the interval (`generateTimes_of_budget`), the next finds
the counter above it, and a reseed sets it to 1. -/
theorem generateBudget : Obligations.GenerateBudget := by
  intro s i len e a inst ctr legal eFits aFits
  have one : s.drbg[i].ctr.toNat = 1 := by rw [ctr]; rfl
  obtain ⟨t, made, counted, interval, inst', legal', params⟩ :=
    generateTimes_of_budget len s.drbg[i].interval.toNat s inst legal (by omega)
  rw [← params] at eFits aFits
  refine ⟨t, made, exec_drbgGenerate_of_exhausted len inst' (Nat.zero_le _) (by rw [interval]; omega),
    ?_⟩
  have renewed := exec_drbgReseed_of_fits (i := i) eFits aFits
  have after := answered_drbg_get (t.setDrbg i (t.drbg[i].reseed e a))
    (responseHeader 4 2 (instNibble i) 0x00#8) [] i
  rw [State.setDrbg_get_self] at after
  obtain ⟨reseededInst, reseededCtr⟩ := reseed_inst_ctr t.drbg[i] e a
  have reseededLegal := Drbg.reseed_legal legal' e a
  rw [← after] at reseededInst reseededCtr reseededLegal
  obtain ⟨v, again, status, ctr', -⟩ := exec_drbgGenerate_counts len reseededInst reseededLegal
    (by rw [reseededCtr]; exact reseededLegal.1.1)
  refine ⟨_, v, renewed, ?_, reseededCtr, again, status, by rw [ctr', reseededCtr]; rfl⟩
  rw [answered_responseStatus, responseHeader_status]

end Sys2Proof.Machine
end

section
/-! SUPPORT. SER_FLOAT and SER_XOR (45_serializer.md R315, R317). -/

namespace Sys2Proof.Machine

/-! ### One float from each scalar -/

theorem drawN_lcgFloat (n : Nat) (l : Lcg) :
    drawN lcgFloat n l =
      ((drawN lcgStep n l).1.map fun v => f64 v.toNat (bitlen (l.m.toNat - 1)),
        (drawN lcgStep n l).2) := by
  induction n generalizing l with
  | zero => rfl
  | succ n ih =>
    have sameM : (lcgStep l).2.m = l.m := rfl
    have next : (lcgFloat l).2 = (lcgStep l).2 := rfl
    rw [drawN, drawN, next, ih, sameM]
    rfl

theorem drawN_mtFloat (n : Nat) (b : Mt) :
    drawN mtFloat n b =
      ((drawN mtExtract n b).1.map fun w => f64 w.toNat 32, (drawN mtExtract n b).2) := by
  induction n generalizing b with
  | zero => rfl
  | succ n ih =>
    have next : (mtFloat b).2 = (mtExtract b).2 := rfl
    rw [drawN, drawN, next, ih]
    rfl

theorem drawN_bbsFloat (n : Nat) (b : Bbs) :
    drawN bbsFloat n b =
      ((drawN bbsByte n b).1.map fun x => f64 x.toNat 8, (drawN bbsByte n b).2) := by
  induction n generalizing b with
  | zero => rfl
  | succ n ih =>
    have next : (bbsFloat b).2 = (bbsByte b).2 := rfl
    rw [drawN, drawN, next, ih]
    rfl

theorem natOfBits_byteBits (x : Byte) : natOfBits (byteBits x) = x.toNat := by
  revert x; decide

/-- The bytes of a bit string are its bits eight by eight. -/
theorem map_toNat_eq_of_bits (bytes : List Byte) :
    bytes.map BitVec.toNat =
      (List.range bytes.length).map fun k => natOfBits (((bytesBits bytes).drop (8 * k)).take 8) := by
  induction bytes with
  | nil => rfl
  | cons x bytes ih =>
    have first : (bytesBits (x :: bytes)).take 8 = byteBits x := by
      rw [bytesBits_cons, ← byteBits_length x, List.take_left]
    have later (k : Nat) : (bytesBits (x :: bytes)).drop (8 * (k + 1)) =
        (bytesBits bytes).drop (8 * k) := by
      rw [bytesBits_cons, Nat.mul_succ, Nat.add_comm, ← byteBits_length x,
        List.drop_length_add_append]
    rw [List.length_cons, List.range_succ_eq_map, List.map_cons, List.map_cons, List.map_map,
      Nat.mul_zero, List.drop_zero, first, natOfBits_byteBits, ih]
    simp only [Function.comp_def, Nat.succ_eq_add_one, later]

section
variable {s : State} (j : Inst) (n : Nat)

theorem srcFloats_lcg (valid : s.lcg[j].valid = true) (legal : s.lcg[j].Legal) :
    s.srcFloats (.lcg j) n =
      ((s.lcg[j].outputs n).map fun v => f64 v (bitlen (s.lcg[j].m.toNat - 1)),
        s.setLcg j (s.lcg[j].after n)) := by
  obtain ⟨drawn, below⟩ := drawN_lcg _ valid legal n
  have bound := (legal valid).1.2
  rw [State.srcFloats, drawN_lcgFloat, drawn]
  simp only [List.map_map, Prod.mk.injEq, and_true]
  refine List.map_congr_left fun v mem => ?_
  rw [Function.comp_apply, BitVec.toNat_ofNat, Nat.mod_eq_of_lt ((below v mem).trans_le bound)]

theorem srcFloats_mt (legal : s.mt[j].Legal) :
    s.srcFloats (.mt j) n =
      ((s.mt[j].outputs n).map fun w => f64 w.toNat 32, s.setMt j (s.mt[j].after n)) := by
  rw [State.srcFloats, drawN_mtFloat, drawN_mt _ legal]

theorem srcFloats_bbs (below : s.bbs[j].x < s.bbs[j].n) :
    s.srcFloats (.bbs j) n =
      ((List.range n).map fun k =>
          f64 (natOfBits (((squaringBits s.bbs[j].x s.bbs[j].n (8 * n)).drop (8 * k)).take 8)) 8,
        s.setBbs j (s.bbs[j].after (8 * n))) := by
  obtain ⟨bits, last⟩ := drawN_bbsByte n s.bbs[j]
  rw [drawN_bbs _ below] at bits last
  have scalars := map_toNat_eq_of_bits (drawN bbsByte n s.bbs[j]).1
  rw [drawN_length, bits] at scalars
  rw [State.srcFloats, drawN_bbsFloat, last]
  have floats := congrArg (List.map fun v => f64 v 8) scalars
  rw [List.map_map, List.map_map] at floats
  exact congrArg (·, _) floats

end

section
variable {s : State} {src : Src} (n : Count)

theorem exec_serFloat_of_invalid (invalid : s.srcValid src = false) :
    exec (.serFloat src n) s =
      .next (s.answered (responseHeader 5 2 (srcNibble src) 0x08#8) []) :=
  (if_pos invalid).trans (raise_of_header rfl .notInstantiated s)

theorem exec_serFloat_of_valid (valid : s.srcValid src = true) :
    exec (.serFloat src n) s =
      .next ((s.srcFloats src n.toNat).2.answered (responseHeader 5 2 (srcNibble src) 0x00#8)
        ((s.srcFloats src n.toNat).1.flatMap wordsOf64)) :=
  (if_neg (by rw [valid]; decide)).trans (finish_of_header rfl _ _)

end

/-! ### SER_XOR -/

theorem zipWith_xor_get {x y : List Byte} (same : y.length = x.length) (p : Nat) :
    (List.zipWith (fun u v => u ^^^ v) x y).getD p 0#8 = x.getD p 0#8 ^^^ y.getD p 0#8 := by
  by_cases inside : p < x.length
  · rw [List.getD_eq_getElem _ _ (by simp [same, inside]), List.getD_eq_getElem _ _ inside,
      List.getD_eq_getElem _ _ (same ▸ inside), List.getElem_zipWith]
  · have beyond := Nat.le_of_not_lt inside
    rw [List.getD_eq_default _ _ (by simp [same, beyond]), List.getD_eq_default _ _ beyond,
      List.getD_eq_default _ _ (same ▸ beyond), BitVec.xor_self]

/-- Byte p of the combined string is the XOR of the strings' bytes p (R317). -/
theorem xorAll_get (p : Nat) (ss : List (List Byte)) :
    ∀ acc : List Byte, (∀ x ∈ ss, x.length = acc.length) →
      (xorAll acc ss).getD p 0#8 =
        ((acc :: ss).map fun x => x.getD p 0#8).foldr (· ^^^ ·) 0#8 := by
  induction ss with
  | nil => intro acc _; simp [xorAll]
  | cons y ss ih =>
    intro acc same
    obtain ⟨sameY, sameRest⟩ := List.forall_mem_cons.mp same
    have length : (List.zipWith (fun u v => u ^^^ v) acc y).length = acc.length := by
      rw [List.length_zipWith, sameY, Nat.min_self]
    have step : xorAll acc (y :: ss) = xorAll (List.zipWith (fun u v => u ^^^ v) acc y) ss := rfl
    rw [step, ih _ fun x mem => (sameRest x mem).trans length.symm]
    simp only [List.map_cons, List.foldr_cons, zipWith_xor_get sameY, BitVec.xor_assoc]

theorem zipWith_xor_self (b : List Byte) :
    List.zipWith (fun u v => u ^^^ v) b b = List.replicate b.length 0#8 := by
  induction b with
  | nil => rfl
  | cons x b ih => rw [List.zipWith_cons_cons, BitVec.xor_self, ih]; rfl

theorem encode_serXor (p : Params) {ss : List (List Byte)} (fits : ss.length < 2 ^ 20) :
    encode p (.serXor ss) = (0x54000000#32 ||| BitVec.ofNat 32 ss.length) ::
      ss.flatMap fun b => BitVec.ofNat 32 b.length :: packBytes b := by
  rw [← countOf_setWidth ss fits]
  rfl

section
variable {s : State} {b : List Byte} {rest : List (List Byte)}

theorem any_tooLong_iff (p : Params) (ss : List (List Byte)) :
    ss.any (tooLong p) = true ↔ ∃ x ∈ ss, p.maxStrBytes < x.length := by
  simp [tooLong]

theorem any_length_ne_iff :
    (rest.any fun y => decide (y.length ≠ b.length)) = true ↔ ∃ x ∈ rest, x.length ≠ b.length := by
  simp

theorem exec_serXor_of_long (long : ∃ x ∈ b :: rest, s.params.maxStrBytes < x.length) :
    exec (.serXor (b :: rest)) s = .next (s.answered 0x54000001#32 []) :=
  (if_pos ((any_tooLong_iff _ _).mpr long)).trans
    (raise_of_header (c := .serXor (b :: rest)) rfl .invalidParameter s)

theorem not_any_tooLong (fits : ∀ x ∈ b :: rest, x.length ≤ s.params.maxStrBytes) :
    ¬ (b :: rest).any (tooLong s.params) = true := by
  rw [any_tooLong_iff]
  rintro ⟨x, mem, long⟩
  exact Nat.not_le_of_lt long (fits x mem)

theorem exec_serXor_of_mismatch (fits : ∀ x ∈ b :: rest, x.length ≤ s.params.maxStrBytes)
    (mismatch : ∃ x ∈ rest, x.length ≠ b.length) :
    exec (.serXor (b :: rest)) s = .next (s.answered 0x54000005#32 []) :=
  (if_neg (not_any_tooLong fits)).trans <|
    (if_pos (any_length_ne_iff.mpr mismatch)).trans
      (raise_of_header (c := .serXor (b :: rest)) rfl .lengthMismatch s)

theorem exec_serXor_of_equal (fits : ∀ x ∈ b :: rest, x.length ≤ s.params.maxStrBytes)
    (same : ∀ x ∈ rest, x.length = b.length) :
    exec (.serXor (b :: rest)) s = .next (s.answered 0x54000000#32 (packBytes (xorAll b rest))) := by
  have matched : ¬ (rest.any fun y => decide (y.length ≠ b.length)) = true := by
    rw [any_length_ne_iff]
    rintro ⟨x, mem, differs⟩
    exact differs (same x mem)
  exact (if_neg (not_any_tooLong fits)).trans <|
    (if_neg matched).trans (finish_of_header (c := .serXor (b :: rest)) rfl _ s)

end

end Sys2Proof.Machine
end

section
/-! SUPPORT. The statements about SER_FLOAT and SER_XOR. -/

namespace Sys2Proof.Machine

/-- Settles O35: each source's scalars in closed form. -/
theorem serFloatResult : Obligations.SerFloatResult := by
  intro s src j n words
  refine ⟨rfl, exec_serFloat_of_invalid n, fun valid legal => ?_, fun valid legal => ?_,
    fun valid legal => ?_⟩
  · rw [exec_serFloat_of_valid n (src := .lcg j) valid, srcFloats_lcg j _ valid legal]
    rfl
  · rw [exec_serFloat_of_valid n (src := .mt j) valid, srcFloats_mt j _ legal]
    rfl
  · obtain ⟨_, _, _, below, _⟩ := legal valid
    rw [exec_serFloat_of_valid n (src := .bbs j) valid, srcFloats_bbs j _ below]
    rfl

/-- Settles O38: the checks in order, and the strings' bytes position by position (`xorAll_get`). -/
theorem serXorResult : Obligations.SerXorResult := by
  intro s
  refine ⟨fun ss => encode_serXor s.params, raise_of_header (c := .serXor []) rfl .invalidParameter s,
    fun b rest => ⟨exec_serXor_of_long, exec_serXor_of_mismatch, fun fits same =>
      ⟨xorAll b rest, xorAll_length b rest same, fun p => xorAll_get p rest b same,
        exec_serXor_of_equal fits same⟩⟩, fun b fits => ⟨?_, ?_⟩⟩
  · exact exec_serXor_of_equal (by simpa using fits) (by simp)
  · rw [exec_serXor_of_equal (by simpa using fits) (by simp), ← zipWith_xor_self]
    rfl

end Sys2Proof.Machine
end

section
/-! SUPPORT. Bounded integers by recursion on the attempts (44_drbg.md R276), for DRBG_RANDOM_INT
(R264) and SER_INT (45_serializer.md R316). -/

namespace Sys2Proof.Machine

/-! ### The loop -/

section
variable {σ : Type} {bits : Nat → σ → Except Status (List Bool × σ)} {a b : Word64} {s s' : σ}

theorem boundedInt_of_eq (attempts : Nat) (bits : Nat → σ → Except Status (List Bool × σ))
    (a : Word64) (s : σ) : boundedInt attempts a a bits s = (.ok a, s) :=
  if_pos (by simp)

theorem boundedInt_of_lt (attempts : Nat) (lt : a.toInt < b.toInt) :
    boundedInt attempts a b bits s =
      let r := (b.toInt - a.toInt).toNat
      let t := boundedAttempts r (bitlen r) bits attempts s
      (t.1.map fun v => BitVec.ofInt 64 (a.toInt + v), t.2) :=
  if_neg (Nat.ne_of_gt (rbound a b lt).1)

theorem boundedInt_zero (lt : a.toInt < b.toInt) :
    boundedInt 0 a b bits s = (.error .rangeGenerationFailed, s) := by
  rw [boundedInt_of_lt 0 lt]
  rfl

theorem boundedInt_of_refused (m : Nat) (lt : a.toInt < b.toInt) {st : Status}
    (refused : bits (bitlen (b.toInt - a.toInt).toNat) s = .error st) :
    boundedInt (m + 1) a b bits s = (.error st, s) := by
  rw [boundedInt_of_lt _ lt]
  simp only [boundedAttempts, refused]
  rfl

theorem boundedInt_of_hit (m : Nat) (lt : a.toInt < b.toInt) {bs : List Bool}
    (drawn : bits (bitlen (b.toInt - a.toInt).toNat) s = .ok (bs, s'))
    (hit : natOfBits bs ≤ (b.toInt - a.toInt).toNat) :
    boundedInt (m + 1) a b bits s = (.ok (BitVec.ofInt 64 (a.toInt + natOfBits bs)), s') := by
  rw [boundedInt_of_lt _ lt]
  simp only [boundedAttempts, drawn, if_pos hit]
  rfl

theorem boundedInt_of_miss (m : Nat) (lt : a.toInt < b.toInt) {bs : List Bool}
    (drawn : bits (bitlen (b.toInt - a.toInt).toNat) s = .ok (bs, s'))
    (miss : (b.toInt - a.toInt).toNat < natOfBits bs) :
    boundedInt (m + 1) a b bits s = boundedInt m a b bits s' := by
  rw [boundedInt_of_lt _ lt, boundedInt_of_lt _ lt]
  simp only [boundedAttempts, drawn, if_neg (Nat.not_le_of_lt miss)]

/-- What is answered lies in the interval. -/
theorem boundedInt_mem {attempts : Nat} {v : Word64} (ordered : a.toInt ≤ b.toInt)
    (answered : (boundedInt attempts a b bits s).1 = .ok v) :
    a.toInt ≤ v.toInt ∧ v.toInt ≤ b.toInt := by
  rcases ordered.eq_or_lt with same | lt
  · obtain rfl := BitVec.eq_of_toInt_eq same
    rw [boundedInt_of_eq] at answered
    cases answered
    exact ⟨le_rfl, le_rfl⟩
  · rw [boundedInt_of_lt _ lt] at answered
    cases drawn : (boundedAttempts (b.toInt - a.toInt).toNat (bitlen (b.toInt - a.toInt).toNat) bits
      attempts s).1 with
    | error st => simp only [drawn] at answered; cases answered
    | ok k =>
      simp only [drawn] at answered
      obtain rfl := Except.ok.inj answered
      have small := attempts_le _ _ bits attempts s k drawn
      have top := BitVec.toInt_lt (x := b)
      have bottom := BitVec.le_toInt (x := a)
      have number : (BitVec.ofInt 64 (a.toInt + k)).toInt = a.toInt + k := by
        rw [BitVec.toInt_ofInt]
        exact Int.bmod_eq_of_le (by omega) (by omega)
      rw [number]
      omega

/-- A change of the source that no draw sees leaves the loop's answer as it is. -/
theorem boundedInt_comm (g : σ → σ)
    (unseen : ∀ k s, bits k (g s) = (bits k s).map fun drawn => (drawn.1, g drawn.2))
    (attempts : Nat) (a b : Word64) (s : σ) :
    boundedInt attempts a b bits (g s) =
      ((boundedInt attempts a b bits s).1, g (boundedInt attempts a b bits s).2) := by
  have loop (r k attempts : Nat) (s : σ) : boundedAttempts r k bits attempts (g s) =
      ((boundedAttempts r k bits attempts s).1, g (boundedAttempts r k bits attempts s).2) := by
    induction attempts generalizing s with
    | zero => rfl
    | succ n ih =>
      rw [boundedAttempts, boundedAttempts, unseen]
      cases bits k s with
      | error st => rfl
      | ok drawn =>
        obtain ⟨bs, s'⟩ := drawn
        simp only [Except.map]
        split
        · rfl
        · exact ih s'
  simp only [boundedInt]
  split
  · rfl
  · rw [loop]

end

/-- A number of bits up to 64 as a COUNT. -/
theorem toNat_ofNat_bitlen {a b : Word64} (lt : a.toInt < b.toInt) :
    (BitVec.ofNat 20 (bitlen (b.toInt - a.toInt).toNat)).toNat =
      bitlen (b.toInt - a.toInt).toNat ∧
    bitlen (b.toInt - a.toInt).toNat ≠ 0 := by
  obtain ⟨pos, bound⟩ := rbound a b lt
  have few := bitlen_le _ 64 bound
  have some := bitlen_pos _ pos
  rw [BitVec.toNat_ofNat]
  omega

/-! ### DRBG_RANDOM_INT -/

/-- The end of a DRBG_RANDOM_INT whose loop gave `r` (R264). -/
def State.randomIntEnd (s : State) (i : Inst) (r : Except Status Word64 × Drbg) : State :=
  match r.1 with
  | .error st => (s.setDrbg i r.2).answered (responseHeader 4 4 (instNibble i) st.code) []
  | .ok v => (s.setDrbg i r.2).answered (responseHeader 4 4 (instNibble i) 0x00#8) (wordsOf64 v)

theorem encode_drbgRandomInt (p : Params) (i : Inst) (a b : Word64) :
    encode p (.drbgRandomInt i a b) =
      (0x44000000#32 ||| BitVec.ofNat 32 i.val <<< 20) :: (wordsOf64 a ++ wordsOf64 b) := by
  rw [encode, operandsOf, write64_eq, write64_eq]
  exact congrArg (· :: _) (header_inst_noArg 4 4 i)

section
variable {s : State} {i : Inst} {a b : Word64}

theorem exec_drbgRandomInt_of_uninstantiated (inst : s.drbg[i].inst = false) :
    exec (.drbgRandomInt i a b) s =
      .next (s.answered (responseHeader 4 4 (instNibble i) 0x08#8) []) :=
  (if_pos inst).trans (raise_of_header rfl .notInstantiated s)

theorem exec_drbgRandomInt_of_empty (inst : s.drbg[i].inst = true) (empty : b.toInt < a.toInt) :
    exec (.drbgRandomInt i a b) s =
      .next (s.answered (responseHeader 4 4 (instNibble i) 0x01#8) []) :=
  (if_neg (by rw [inst]; decide)).trans
    ((if_pos empty).trans (raise_of_header rfl .invalidParameter s))

theorem exec_drbgRandomInt_of_ordered (inst : s.drbg[i].inst = true)
    (ordered : a.toInt ≤ b.toInt) :
    exec (.drbgRandomInt i a b) s =
      .next (s.randomIntEnd i (boundedInt s.params.rangeMaxAttempts a b
        (Drbg.bits s.params.hmacPreUpdate) s.drbg[i])) := by
  refine (if_neg (by rw [inst]; decide)).trans ((if_neg (Int.not_lt.mpr ordered)).trans ?_)
  dsimp only
  generalize boundedInt s.params.rangeMaxAttempts a b (Drbg.bits s.params.hmacPreUpdate) s.drbg[i] = r
  obtain ⟨answer, left⟩ := r
  cases answer with
  | error st => exact raise_of_header (c := .drbgRandomInt i a b) rfl _ _
  | ok v => exact finish_of_header (c := .drbgRandomInt i a b) rfl _ _

/-- One attempt of a DRBG_RANDOM_INT: the DRBG_GEN_BITS that draws it. -/
theorem exec_drbgGenBits_bitlen (inst : s.drbg[i].inst = true) (lt : a.toInt < b.toInt)
    (within : s.drbg[i].ctr.toNat ≤ s.drbg[i].interval.toNat) :
    ∃ bs d, d.inst = true ∧
      Drbg.bits s.params.hmacPreUpdate (bitlen (b.toInt - a.toInt).toNat) s.drbg[i] =
        .ok (bs, d) ∧
      exec (.drbgGenBits i (BitVec.ofNat 20 (bitlen (b.toInt - a.toInt).toNat))) s =
        .next ((s.setDrbg i d).answered (responseHeader 4 3 (instNibble i) 0x00#8) (packBits bs)) ∧
      leadingBits (bitlen (b.toInt - a.toInt).toNat) (packBits bs) = natOfBits bs := by
  obtain ⟨count, pos⟩ := toNat_ofNat_bitlen lt
  rcases bits_cases s.params.hmacPreUpdate (bitlen (b.toInt - a.toInt).toNat) s.drbg[i] with
    ⟨exhausted, -⟩ | ⟨-, out, v, k, length, -, drawn⟩
  · exact absurd within (Nat.not_le_of_lt exhausted)
  · refine ⟨_, { s.drbg[i] with v := v, k := k, ctr := s.drbg[i].ctr + 1#32 }, inst, drawn,
      exec_drbgGenBits_of_ok inst (by rw [count]; exact pos)
      (by rw [count]; exact drawn), ?_⟩
    have whole : ((bytesBits out).take (bitlen (b.toInt - a.toInt).toNat)).length =
        bitlen (b.toInt - a.toInt).toNat := by
      rw [List.length_take, bytesBits_length, length, ceilDiv]
      omega
    have packed := leadingBits_pack ((bytesBits out).take (bitlen (b.toInt - a.toInt).toNat))
    rwa [whole] at packed

/-- With one attempt less and the draw made, the command ends where it would have ended. -/
theorem randomIntEnd_of_setDrbg (d : Drbg) (p : Params) (r : Except Status Word64 × Drbg) :
    { State.randomIntEnd { s with drbg := s.drbg.set i d, params := p } i r with
      params := s.params } = s.randomIntEnd i r := by
  obtain ⟨answer, left⟩ := r
  cases answer <;> simp [State.randomIntEnd, State.setDrbg, State.answered]

end

/-! ### SER_INT -/

/-- The end of a SER_INT whose loop gave `r` (R316). -/
def serIntEnd (src : Src) (r : Except Status Word64 × State) : State :=
  match r.1 with
  | .error st => r.2.answered (responseHeader 5 3 (srcNibble src) st.code) []
  | .ok v => r.2.answered (responseHeader 5 3 (srcNibble src) 0x00#8) (wordsOf64 v)

/-- The draws of SER_INT: the bits of SER_BITS, never refused. -/
def serDraw (src : Src) (k : Nat) (s : State) : Except Status (List Bool × State) :=
  .ok (s.srcBits src k)

theorem encode_serInt (p : Params) (src : Src) (a b : Word64) :
    encode p (.serInt src a b) =
      (0x53000000#32 ||| (srcNibble src).setWidth 32 <<< 20) :: (wordsOf64 a ++ wordsOf64 b) := by
  have opened : headerOf (.serInt src a b) =
      0x53000000#32 ||| (srcNibble src).setWidth 32 <<< 20 := by
    rw [headerOf, header]
    simp
  rw [encode, operandsOf, write64_eq, write64_eq, opened]

section
variable {s : State} {src : Src} {a b : Word64}

theorem exec_serInt_of_invalid (invalid : s.srcValid src = false) :
    exec (.serInt src a b) s =
      .next (s.answered (responseHeader 5 3 (srcNibble src) 0x08#8) []) :=
  (if_pos invalid).trans (raise_of_header rfl .notInstantiated s)

theorem exec_serInt_of_empty (valid : s.srcValid src = true) (empty : b.toInt < a.toInt) :
    exec (.serInt src a b) s =
      .next (s.answered (responseHeader 5 3 (srcNibble src) 0x01#8) []) :=
  (if_neg (by rw [valid]; decide)).trans
    ((if_pos empty).trans (raise_of_header rfl .invalidParameter s))

theorem exec_serInt_of_ordered (valid : s.srcValid src = true) (ordered : a.toInt ≤ b.toInt) :
    exec (.serInt src a b) s =
      .next (serIntEnd src (boundedInt s.params.rangeMaxAttempts a b (serDraw src) s)) := by
  refine (if_neg (by rw [valid]; decide)).trans ((if_neg (Int.not_lt.mpr ordered)).trans ?_)
  change _ = Host.Outcome.next (serIntEnd src
    (boundedInt s.params.rangeMaxAttempts a b (fun k t => .ok (State.srcBits t src k)) s))
  dsimp only
  generalize boundedInt s.params.rangeMaxAttempts a b (fun k t => .ok (State.srcBits t src k)) s = r
  obtain ⟨answer, left⟩ := r
  cases answer with
  | error st => exact raise_of_header (c := .serInt src a b) rfl _ _
  | ok v => exact finish_of_header (c := .serInt src a b) rfl _ _

/-- `s` with another place in a packet and other parameters: what no source sees. -/
def State.elsewhere (s : State) (m : Mode) (ph : Phase) (p : Params) : State :=
  { s with mode := m, phase := ph, params := p }

theorem serDraw_elsewhere (src : Src) (m : Mode) (ph : Phase) (p : Params) (k : Nat) (s : State) :
    serDraw src k (s.elsewhere m ph p) =
      (serDraw src k s).map fun drawn => (drawn.1, drawn.2.elsewhere m ph p) := by
  cases src <;> rfl

theorem srcValid_elsewhere (m : Mode) (ph : Phase) (p : Params) :
    (s.elsewhere m ph p).srcValid src = s.srcValid src := by
  cases src <;> rfl

theorem SrcDrew.srcValid_eq {s t : State} (drew : SrcDrew src s t) :
    t.srcValid src = s.srcValid src := by
  cases src with
  | lcg j => exact (drew.lcgKeep j).1
  | mt j => exact (drew.mtKeep j).1
  | bbs j => exact (drew.bbsKeep j).1

theorem serIntEnd_elsewhere (m : Mode) (ph : Phase) (p : Params) (answer : Except Status Word64) :
    { serIntEnd src (answer, s.elsewhere m ph p) with params := s.params } =
      serIntEnd src (answer, s) := by
  cases answer <;> rfl

/-- The command after a draw made elsewhere: it ends as it does from where the draw was made. -/
theorem exec_serInt_elsewhere (valid : s.srcValid src = true) (ordered : a.toInt ≤ b.toInt)
    (m : Mode) (ph : Phase) (p : Params) :
    ∃ t, exec (.serInt src a b) (s.elsewhere m ph p) = .next t ∧
      { t with params := s.params } =
        serIntEnd src (boundedInt p.rangeMaxAttempts a b (serDraw src) s) := by
  refine ⟨_, exec_serInt_of_ordered ((srcValid_elsewhere m ph p).trans valid) ordered, ?_⟩
  have moved := boundedInt_comm (fun s : State => s.elsewhere m ph p)
    (serDraw_elsewhere src m ph p) p.rangeMaxAttempts a b s
  have params : (boundedInt p.rangeMaxAttempts a b (serDraw src) s).2.params = s.params :=
    (congrArg State.params (boundedInt_src_drew src p.rangeMaxAttempts a b s).rest :)
  change { serIntEnd src (boundedInt p.rangeMaxAttempts a b (serDraw src)
    (s.elsewhere m ph p)) with params := s.params } = _
  rw [moved, ← params]
  exact serIntEnd_elsewhere m ph p _

end

/-! ### Responses of two data words -/

/-- A response without data has LEN 0, not 2. -/
theorem answered_ne_twoWords (s : State) (h : Word) {hdr : Word} {data : List Word} :
    (s.answered h []).phase ≠ .response [] (hdr :: 2#32 :: data) := by
  intro two
  injection two with _ words
  injection words with _ rest
  injection rest with length _
  exact absurd length (by decide)

theorem answered_words {s : State} {h hdr : Word} {words data : List Word}
    (two : (s.answered h words).phase = .response [] (hdr :: 2#32 :: data)) : words = data := by
  injection two with _ all
  injection all with _ rest
  injection rest

theorem randomIntEnd_twoWords {s : State} {i : Inst} {r : Except Status Word64 × Drbg} {hdr : Word}
    {data : List Word} (two : (s.randomIntEnd i r).phase = .response [] (hdr :: 2#32 :: data)) :
    ∃ v, r.1 = .ok v ∧ wordsOf64 v = data := by
  obtain ⟨answer, left⟩ := r
  cases answer with
  | error st => exact absurd two (answered_ne_twoWords _ _)
  | ok v => exact ⟨v, rfl, answered_words two⟩

theorem serIntEnd_twoWords {src : Src} {r : Except Status Word64 × State} {hdr : Word}
    {data : List Word} (two : (serIntEnd src r).phase = .response [] (hdr :: 2#32 :: data)) :
    ∃ v, r.1 = .ok v ∧ wordsOf64 v = data := by
  obtain ⟨answer, left⟩ := r
  cases answer with
  | error st => exact absurd two (answered_ne_twoWords _ _)
  | ok v => exact ⟨v, rfl, answered_words two⟩

end Sys2Proof.Machine
end

section
/-! SUPPORT. The statements about bounded integers. -/

namespace Sys2Proof.Machine

/-- Settles O28: the checks in order, and one turn of the loop (`boundedInt_of_refused`,
`boundedInt_of_hit`, `boundedInt_of_miss`). -/
theorem drbgRandomIntRecursion : Obligations.DrbgRandomIntRecursion := by
  intro s i a b d r
  refine ⟨encode_drbgRandomInt s.params i a b, exec_drbgRandomInt_of_uninstantiated,
    exec_drbgRandomInt_of_empty, fun inst same => ?_, fun inst lt spent => ?_,
    fun inst lt m attempts => ⟨fun exhausted => ?_, fun within => ?_⟩⟩
  · subst same
    rw [exec_drbgRandomInt_of_ordered inst le_rfl, boundedInt_of_eq, State.randomIntEnd,
      State.setDrbg_same]
  · rw [exec_drbgRandomInt_of_ordered inst lt.le, spent, boundedInt_zero lt, State.randomIntEnd,
      State.setDrbg_same]
    rfl
  · have refused : Drbg.bits s.params.hmacPreUpdate (bitlen r) d = .error .reseedRequired := by
      rcases bits_cases s.params.hmacPreUpdate (bitlen r) d with ⟨-, refused⟩ | ⟨within, -⟩
      · exact refused
      · exact absurd within (Nat.not_le_of_lt exhausted)
    rw [exec_drbgRandomInt_of_ordered inst lt.le, attempts, boundedInt_of_refused m lt refused,
      State.randomIntEnd, State.setDrbg_same]
    rfl
  · obtain ⟨bs, d', inst', drawn, bits, number⟩ := exec_drbgGenBits_bitlen inst lt within
    refine ⟨_, bits, ?_⟩
    rw [answered_responseData, number]
    refine ⟨fun hit => ?_, fun miss => ?_⟩
    · rw [exec_drbgRandomInt_of_ordered inst lt.le, attempts, boundedInt_of_hit m lt drawn hit]
      rfl
    · have fresh : (s.setDrbg i d').drbg[i] = d' := s.setDrbg_get_self i d'
      have rest := exec_drbgRandomInt_of_ordered (i := i) (a := a) (b := b)
        (s := { s with drbg := s.drbg.set i d', params := { s.params with rangeMaxAttempts := m } })
        ((congrArg Drbg.inst fresh).trans inst') lt.le
      refine ⟨_, rest, ?_⟩
      rw [exec_drbgRandomInt_of_ordered inst lt.le, attempts, boundedInt_of_miss m lt drawn miss,
        randomIntEnd_of_setDrbg]
      exact congrArg (fun x => Host.Outcome.next (s.randomIntEnd i
        (boundedInt m a b (Drbg.bits s.params.hmacPreUpdate) x))) fresh.symm

/-- Settles O37: as O28, where the state after the draw differs from the one the loop goes on from
in what no source sees (`exec_serInt_elsewhere`). -/
theorem serIntRecursion : Obligations.SerIntRecursion := by
  intro s src a b r
  refine ⟨encode_serInt s.params src a b, exec_serInt_of_invalid, exec_serInt_of_empty,
    fun valid same => ?_, fun valid lt spent => ?_, fun valid lt m attempts => ?_⟩
  · subst same
    rw [exec_serInt_of_ordered valid le_rfl, boundedInt_of_eq]
    rfl
  · rw [exec_serInt_of_ordered valid lt.le, spent, boundedInt_zero lt]
    rfl
  · obtain ⟨count, pos⟩ := toNat_ofNat_bitlen lt
    have bits := exec_serBits_of_valid (n := BitVec.ofNat 20 (bitlen r)) (by rw [count]; exact pos)
      valid
    rw [count] at bits
    have number := leadingBits_pack (s.srcBits src (bitlen r)).1
    rw [srcBits_length] at number
    refine ⟨_, bits, ?_⟩
    rw [answered_responseData, number]
    have drawn : serDraw src (bitlen r) s =
        .ok ((s.srcBits src (bitlen r)).1, (s.srcBits src (bitlen r)).2) := rfl
    refine ⟨fun hit => ?_, fun miss => ?_⟩
    · rw [exec_serInt_of_ordered valid lt.le, attempts, boundedInt_of_hit m lt drawn hit]
      rfl
    · have drew := srcBits_drew s src (bitlen r)
      have params : (s.srcBits src (bitlen r)).2.params = s.params :=
        (congrArg State.params drew.rest :)
      obtain ⟨t, ran, ended⟩ := exec_serInt_elsewhere (drew.srcValid_eq.trans valid) lt.le .exec
        (.response [] (responseHeader 5 1 (srcNibble src) 0x00#8 ::
          BitVec.ofNat 32 (packBits (s.srcBits src (bitlen r)).1).length ::
            packBits (s.srcBits src (bitlen r)).1))
        { s.params with rangeMaxAttempts := m }
      refine ⟨t, ran, ?_⟩
      rw [params] at ended
      rw [exec_serInt_of_ordered valid lt.le, attempts, boundedInt_of_miss m lt drawn miss, ended]

/-- Settles O29: a response of two words is the loop's answer, which lies in the interval
(`boundedInt_mem`). -/
theorem boundedIntegersInRange : Obligations.BoundedIntegersInRange := by
  intro s t a b c hdr data command ran two _
  have inRange {σ : Type} {bits : Nat → σ → Except Status (List Bool × σ)} {n : Nat} {x : σ}
      (ordered : a.toInt ≤ b.toInt) (v : Word64) (answer : (boundedInt n a b bits x).1 = .ok v)
      (words : wordsOf64 v = data) : data.length = 2 ∧
        a.toInt ≤ (BitVec.ofNat 64 (natOfWords data)).toInt ∧
        (BitVec.ofNat 64 (natOfWords data)).toInt ≤ b.toInt := by
    rw [← words, natOfWords_wordsOf64, BitVec.ofNat_toNat, BitVec.setWidth_eq]
    exact ⟨rfl, boundedInt_mem ordered answer⟩
  rcases command with ⟨j, rfl⟩ | ⟨src, rfl⟩
  · cases inst : s.drbg[j].inst with
    | false =>
      cases (exec_drbgRandomInt_of_uninstantiated inst).symm.trans ran
      exact absurd two (answered_ne_twoWords _ _)
    | true =>
      rcases lt_or_ge b.toInt a.toInt with empty | ordered
      · cases (exec_drbgRandomInt_of_empty inst empty).symm.trans ran
        exact absurd two (answered_ne_twoWords _ _)
      · cases (exec_drbgRandomInt_of_ordered inst ordered).symm.trans ran
        obtain ⟨v, answer, words⟩ := randomIntEnd_twoWords two
        exact inRange ordered v answer words
  · cases valid : s.srcValid src with
    | false =>
      cases (exec_serInt_of_invalid valid).symm.trans ran
      exact absurd two (answered_ne_twoWords _ _)
    | true =>
      rcases lt_or_ge b.toInt a.toInt with empty | ordered
      · cases (exec_serInt_of_empty valid empty).symm.trans ran
        exact absurd two (answered_ne_twoWords _ _)
      · cases (exec_serInt_of_ordered valid ordered).symm.trans ran
        obtain ⟨v, answer, words⟩ := serIntEnd_twoWords two
        exact inRange ordered v answer words

end Sys2Proof.Machine
end
